-- ==== Sys2Proof/Word.lean ====
section
/-!
DEFINITION. The word types of the hardware (00_scope.md R6, R9): a general register and an address are
64 bits wide (XLEN = 64, D1), memory holds bytes, an instruction is a 32-bit word (R80).
-/

namespace Sys2Proof

/-- A general register's value, an address, an internal register's value: `XLEN` = 64 bits (R21). -/
abbrev Word := BitVec 64

/-- One byte of memory (R50). -/
abbrev Byte := BitVec 8

/-- An instruction word (R80). -/
abbrev Insn := BitVec 32

/-- A general register's number, `r0` to `r63` (R21): `NREGS` = 64. -/
abbrev Reg := Fin 64

end Sys2Proof
end

