-- ==== Sys2Proof/Syntax.lean ====
section
/-!
DEFINITION. The syntax of the machine: the operand size, the field values that the flag tables name, the
17 internal registers, the 50 opcode symbols (30_encoding.md R84) and `Instr`, one constructor for each
row of spec/opcode_table.json.
-/

namespace Sys2Proof

/-- The operand size (R90): `.b` 8 bits, `.d` 16 bits, `.q` 32 bits, no postfix 64 bits (D5). -/
inductive Size where
  | b
  | d
  | q
  | full
deriving DecidableEq, Repr

/-- Byte order of a memory access (R52, R54). -/
inductive Endian where
  | little
  | big
deriving DecidableEq, Repr

/-- The operation of `bitop`, letters `[scxt]` (41_shift_logic.md R164). -/
inductive BitOperation where
  | set
  | clear
  | change
  | test
deriving DecidableEq, Repr

/-- The high-part mode of `mov` (R216); value 3 is reserved and has no constructor. -/
inductive HighMode where
  | keep
  | zeroExtend
  | signExtend
deriving DecidableEq, Repr

/-- The memory level of `cachemm` (R226); value 3 is unused and has no constructor. -/
inductive MemLevel where
  | dataL1
  | insnL1
  | onchip
  | offchip
  | localMem
  | globalMem
  | virtualMem
deriving DecidableEq, Repr

/-- The condition of `jmpa` before negation (R262): neither test bit set, `l`, or `m`. -/
inductive BitTest where
  | nonNil
  | lsb
  | msb
deriving DecidableEq, Repr

/-- The rounding mode of `int2f` and `f2int` (R186); values 5, 6, 7 are reserved. -/
inductive Rounding where
  | nearest
  | towardZero
  | awayFromZero
  | towardMinus
  | towardPlus
deriving DecidableEq, Repr

/-- The 17 internal registers (10_state.md R31 to R39). -/
inductive IReg where
  | srOpc
  | srOmsw
  | srEv
  | srTmp
  | srEr
  | srEnt
  | procId
  | cntCycles
  | cntCountdown
  | cntInstr
  | cntPageFault
  | cntTrap
  | cntFpuTrap
  | cntCache
  | cntBranch
  | cntBubble
  | cntTlb
deriving DecidableEq, Repr

/-- The 50 opcode symbols, in document order (R84). -/
inductive Op where
  | add | sub | mul | div | addi | subi | muli | divi | mod | modi
  | shift | rot | shifti | roti | bitop | logic | mix | expand
  | fadd | fsub | fmul | fdiv | fconv | finv | fsqrt | finvsqrt
  | bitrev | bitrevi | byterev
  | load | store | mov | loadcons | loadconsx | cachemm | loadi | storei
  | get | put | geti | puti
  | jmpa | loadaddr | loopentry | loop | jmpi | jmpr
  | systrap | halt | rfe
deriving DecidableEq, Repr

/-- The instructions, one constructor for each row of spec/opcode_table.json, its operands named as the
section's syntax line names them (`r1`, `r2`, `r3` are Reg1, Reg2, Reg3 of the figure). A field that the
spec reserves is no operand. -/
inductive Instr where
  /-- R124 -/
  | add (size : Size) (simd saturate carry : Bool) (r1 r2 r3 : Reg)
  /-- R125 -/
  | sub (size : Size) (simd floor borrow : Bool) (r1 r2 r3 : Reg)
  /-- R126 -/
  | mul (size : Size) (simd signed high : Bool) (r1 r2 r3 : Reg)
  /-- R127 -/
  | div (size : Size) (simd signed modulo : Bool) (r1 r2 r3 : Reg)
  /-- R128 -/
  | addi (size : Size) (simd : Bool) (imm8 : BitVec 8) (r1 r2 : Reg)
  /-- R129 -/
  | subi (size : Size) (simd : Bool) (imm8 : BitVec 8) (r1 r2 : Reg)
  /-- R130 -/
  | muli (size : Size) (simd : Bool) (imm8 : BitVec 8) (r1 r2 : Reg)
  /-- R131 -/
  | divi (size : Size) (simd : Bool) (imm8 : BitVec 8) (r1 r2 : Reg)
  /-- R132 -/
  | mod (size : Size) (simd : Bool) (r1 r2 r3 : Reg)
  /-- R133 -/
  | modi (size : Size) (simd : Bool) (imm8 : BitVec 8) (r1 r2 : Reg)
  /-- R152; `right` is the direction flag, `signed` the arithmetic flag -/
  | shift (size : Size) (right signed : Bool) (r1 r2 r3 : Reg)
  /-- R153 -/
  | rot (size : Size) (right : Bool) (r1 r2 r3 : Reg)
  /-- R154 -/
  | shifti (size : Size) (right signed : Bool) (imm6 : BitVec 6) (r1 r2 : Reg)
  /-- R155 -/
  | roti (size : Size) (right : Bool) (imm6 : BitVec 6) (r1 r2 : Reg)
  /-- R164 -/
  | bitop (op : BitOperation) (imm6 : BitVec 6) (r1 r2 : Reg)
  /-- `bitop.s` (R165) -/
  | bitset (imm6 : BitVec 6) (r1 r2 : Reg)
  /-- `bitop.c` (R165) -/
  | bclear (imm6 : BitVec 6) (r1 r2 : Reg)
  /-- `bitop.x` (R165) -/
  | bchange (imm6 : BitVec 6) (r1 r2 : Reg)
  /-- `bitop.t` (R165) -/
  | btest (imm6 : BitVec 6) (r1 r2 : Reg)
  /-- R166; `fpq` is f(p, q), p the bit of r1 and q the bit of r2 -/
  | logic (size : Size) (f00 f10 f01 f11 : Bool) (r1 r2 r3 : Reg)
  /-- `logic.0001` (R167) -/
  | and (size : Size) (r1 r2 r3 : Reg)
  /-- `logic.0110` (R167) -/
  | xor (size : Size) (r1 r2 r3 : Reg)
  /-- `logic.1010` (R167) -/
  | not (size : Size) (r1 r2 r3 : Reg)
  /-- `logic.1000` (R167) -/
  | nor (size : Size) (r1 r2 r3 : Reg)
  /-- `logic.1110` (R167) -/
  | nand (size : Size) (r1 r2 r3 : Reg)
  /-- R168; which value of the flag means high is not in the source -/
  | mix (part : Bool) (r1 r2 r3 : Reg)
  /-- R169 -/
  | expand (part : Bool) (r1 r2 : Reg)
  /-- R182; the floating-point size letters are illegible (R181), so the two bits are kept as bits -/
  | fadd (fpSize : BitVec 2) (simd nonIeee : Bool) (r1 r2 r3 : Reg)
  /-- R183 -/
  | fsub (fpSize : BitVec 2) (simd nonIeee : Bool) (r1 r2 r3 : Reg)
  /-- R184 -/
  | fmul (fpSize : BitVec 2) (simd nonIeee : Bool) (r1 r2 r3 : Reg)
  /-- R185 -/
  | fdiv (fpSize : BitVec 2) (simd nonIeee : Bool) (r1 r2 r3 : Reg)
  /-- R186 -/
  | int2f (fpSize : BitVec 2) (simd nonIeee : Bool) (rounding : Rounding) (r1 r2 : Reg)
  /-- R186 -/
  | f2int (fpSize : BitVec 2) (simd nonIeee : Bool) (rounding : Rounding) (r1 r2 : Reg)
  /-- R187 -/
  | finv (fpSize : BitVec 2) (simd nonIeee : Bool) (r1 r2 : Reg)
  /-- R188 -/
  | fsqrt (fpSize : BitVec 2) (simd nonIeee : Bool) (r1 r2 : Reg)
  /-- R189 -/
  | finvsqrt (fpSize : BitVec 2) (simd nonIeee : Bool) (r1 r2 : Reg)
  /-- R201 -/
  | bitrev (r1 r2 r3 : Reg)
  /-- R202 -/
  | bitrevi (imm6 : BitVec 6) (r1 r2 : Reg)
  /-- R203 -/
  | byterev (size : Size) (r1 r2 : Reg)
  /-- R210 -/
  | load (size : Size) (endian : Endian) (r1 r2 r3 : Reg)
  /-- R211 -/
  | store (size : Size) (endian : Endian) (r1 r2 r3 : Reg)
  /-- R215 -/
  | mov (size : Size) (mode : HighMode) (r1 r2 r3 : Reg)
  /-- R218; `shift` counts 16-bit positions -/
  | loadcons (shift : Fin 4) (imm16 : BitVec 16) (r1 : Reg)
  /-- R219 -/
  | loadconsx (shift : Fin 4) (imm16 : BitVec 16) (r1 : Reg)
  /-- R225; `fp` is insn[10], whose prefetch and flush values are not in the source -/
  | cachemm (size : Size) (fp lock : Bool) (level : MemLevel) (r1 r2 : Reg)
  /-- R228 -/
  | loadi (size : Size) (endian : Endian) (imm9 : BitVec 9) (r1 r2 : Reg)
  /-- R229 -/
  | storei (size : Size) (endian : Endian) (imm9 : BitVec 9) (r1 r2 : Reg)
  /-- R241 -/
  | get (r1 r2 : Reg)
  /-- R242 -/
  | put (r1 r2 : Reg)
  /-- R243 -/
  | geti (imm16 : BitVec 16) (r1 : Reg)
  /-- R244 -/
  | puti (imm16 : BitVec 16) (r1 : Reg)
  /-- R262 -/
  | jmpa (negate : Bool) (test : BitTest) (r1 r2 : Reg)
  /-- R263 -/
  | loadaddr (imm18 : BitVec 18) (r1 : Reg)
  /-- R264 -/
  | loopentry (r1 : Reg)
  /-- R266 -/
  | loop (r1 r2 : Reg)
  /-- R267 -/
  | jmpi (imm12 : BitVec 12) (r1 r2 : Reg)
  /-- R268 -/
  | jmpr (imm18 : BitVec 18) (r1 : Reg)
  /-- R281 -/
  | syscall (imm18 : BitVec 18) (r1 : Reg)
  /-- R281, the second name of `syscall` -/
  | trap (imm18 : BitVec 18) (r1 : Reg)
  /-- R283 -/
  | halt (imm18 : BitVec 18) (r1 : Reg)
  /-- R284 -/
  | rfe (imm18 : BitVec 18) (r1 : Reg)
deriving DecidableEq, Repr

/-- Why bytes are no instruction: R98, R97, or fewer than four bytes. -/
inductive Reject where
  | illegalOpcode
  | malformed
  | truncated
deriving DecidableEq, Repr

end Sys2Proof
end

