-- ==== Sys2Proof/Config.lean ====
section
/-!
DEFINITION. The configuration: the parameters of 00_scope.md R6 under their own names. A parameter that
the spec decides has the decided value (and the alternatives the spec names for it, so that it can be
changed in one place); a parameter that the spec leaves open to any value is a constant without a body,
so that nothing can be proved of its value; the open reset and launch values are named here (logs 1, 2, 6).
-/

namespace Sys2Proof.Config

/-- `XLEN` (D1): the width of a general register and of an address, "fixed" by D1 and so written out in the
type `Word`. -/
def xlen : Nat := 64

/-- `NREGS`: the number of general registers, written out in the type `Reg`. -/
def nregs : Nat := 64

/-- `ILEN`: the length of an instruction in bits, written out in the type `Insn`. -/
def ilen : Nat := 32

/-- The readings of the numbering of instruction bits (D2, R81). -/
inductive BitNumbering where
  | leastSignificant
  | mostSignificant
deriving DecidableEq, Repr

/-- `INSN_BIT0` (D2): which end of the instruction word is the manual's bit 0. The other reading mirrors the
places of the fields and the order of the digits within a field together (R81). UNVERIFIED (log 14),
unsafe. -/
def insnBit0 : BitNumbering := .leastSignificant

/-- `OPC` (D4): the provisional opcode numbers of R84, document order from 0x00. UNVERIFIED (log 13),
unsafe: the numbers carry no meaning. -/
def opc : Op → BitVec 8
  | .add => 0x00 | .sub => 0x01 | .mul => 0x02 | .div => 0x03 | .addi => 0x04
  | .subi => 0x05 | .muli => 0x06 | .divi => 0x07 | .mod => 0x08 | .modi => 0x09
  | .shift => 0x0A | .rot => 0x0B | .shifti => 0x0C | .roti => 0x0D | .bitop => 0x0E
  | .logic => 0x0F | .mix => 0x10 | .expand => 0x11 | .fadd => 0x12 | .fsub => 0x13
  | .fmul => 0x14 | .fdiv => 0x15 | .fconv => 0x16 | .finv => 0x17 | .fsqrt => 0x18
  | .finvsqrt => 0x19 | .bitrev => 0x1A | .bitrevi => 0x1B | .byterev => 0x1C | .load => 0x1D
  | .store => 0x1E | .mov => 0x1F | .loadcons => 0x20 | .loadconsx => 0x21 | .cachemm => 0x22
  | .loadi => 0x23 | .storei => 0x24 | .get => 0x25 | .put => 0x26 | .geti => 0x27
  | .puti => 0x28 | .jmpa => 0x29 | .loadaddr => 0x2A | .loopentry => 0x2B | .loop => 0x2C
  | .jmpi => 0x2D | .jmpr => 0x2E | .systrap => 0x2F | .halt => 0x30 | .rfe => 0x31

/-- `FETCH_ENDIAN` (D3): byte order of the four bytes of an instruction. UNVERIFIED (log 14), unsafe. -/
def fetchEndian : Endian := .little

/-- `SIZE_CODE` (D5), the code of each size. UNVERIFIED (log 15), unsafe. -/
def sizeCode : Size → BitVec 2
  | .b => 0
  | .d => 1
  | .q => 2
  | .full => 3

/-- `SIZE_CODE` (D5), the width in bits of each size. UNVERIFIED (log 15), unsafe. -/
@[reducible] def sizeWidth : Size → Nat
  | .b => 8
  | .d => 16
  | .q => 32
  | .full => 64

/-- The readings of the bits above the operand size that D6 names. -/
inductive HighPart where
  | firstSource
  | oldDestination
  | zeros
deriving DecidableEq, Repr

/-- `HIGH_PART` (D6). UNVERIFIED (log 16), unsafe. -/
def highPart : HighPart := .firstSource

/-- The readings of the extension of imm8 (D7). -/
inductive Extension where
  | sign
  | zero
deriving DecidableEq, Repr

/-- `IMM8_EXT` (D7). UNVERIFIED (log 17), unsafe. -/
def imm8Ext : Extension := .sign

/-- `DEST2` (D8): the register of the second result of a 2r2w form with destination d is d + 1; none, that
is a refusal, for r63. UNVERIFIED (log 18), unsafe. -/
def dest2 (d : Reg) : Option Reg :=
  if h : d.val + 1 < 64 then some ⟨d.val + 1, h⟩ else none

/-- The readings of an instruction that names r0 as its destination (D9): it runs and the write is
discarded, or the word is malformed. Under both r0 itself never changes (R22). -/
inductive R0Write where
  | discarded
  | malformed
deriving DecidableEq, Repr

/-- `R0_WRITE` (D9). UNVERIFIED (log 18), unsafe. -/
def r0Write : R0Write := .discarded

/-- `RESERVED_NONZERO` (D11): what a word with a reserved bit set or a reserved field value is rejected as.
UNVERIFIED (log 20), unsafe. -/
def reservedNonzero : Reject := .malformed

/-- `UNASSIGNED_OPCODE` (D11): what a word whose opcode byte selects no symbol is rejected as.
UNVERIFIED (log 20), unsafe. -/
def unassignedOpcode : Reject := .illegalOpcode

/-- The readings of what an exception does to the model (D12). `vectored` is the annex R316, which the spec
marks as unverified and not to be used in a proof. -/
inductive TrapModel where
  | faultStop
  | vectored
deriving DecidableEq, Repr

/-- `TRAP_MODEL` (D12). UNVERIFIED (log 21), unsafe. -/
def trapModel : TrapModel := .faultStop

/-- The readings of a load or store whose address is not a multiple of its width: the decided refusal and
the three that R57 says the hardware may have. -/
inductive MisalignedData where
  | refused
  | memoryException
  | split
  | lowBitsIgnored
deriving DecidableEq, Repr

/-- `MISALIGNED_DATA` (D14). UNVERIFIED (log 27), safe: the model stops. -/
def misalignedData : MisalignedData := .refused

/-- The readings of a taken jump whose target is not a multiple of 4: the decided refusal, and the jump to
the target with its two low bits cleared. The spec names no other reading than the first. -/
inductive MisalignedPc where
  | refused
  | lowBitsIgnored
deriving DecidableEq, Repr

/-- `MISALIGNED_PC` (D15). UNVERIFIED (log 27), safe: the model stops. -/
def misalignedPc : MisalignedPc := .refused

/-- `BITOP_CODE` (D20), the code of each operation. UNVERIFIED (log 33), unsafe. -/
def bitopCode : BitOperation → BitVec 2
  | .set => 0
  | .clear => 1
  | .change => 2
  | .test => 3

/-- The readings of the two test bits of jmpa (D19): which one selects the LSB test. -/
inductive JmpaTestBits where
  | lsbAt9
  | lsbAt10
deriving DecidableEq, Repr

/-- `JMPA_TEST_BITS` (D19). UNVERIFIED (log 33), unsafe. -/
def jmpaTestBits : JmpaTestBits := .lsbAt9

/-- The readings of the bits above the access size in the destination of a load (D30): any value, or one of
the three modes of mov. -/
inductive LoadHigh where
  | anyValue
  | unchanged
  | zeros
  | sign
deriving DecidableEq, Repr

/-- `LOAD_HIGH` (D30). UNVERIFIED (log 31), safe: nothing can be proved of these bits. -/
def loadHigh : LoadHigh := .anyValue

/-- The readings of the register field order of add and sub (D48, `90_conflicts.md` C1). -/
inductive FieldOrder where
  | asFigured
  | asOthers
deriving DecidableEq, Repr

/-- `ADD_SUB_FIELD_ORDER` (D48). UNVERIFIED (log 19), unsafe. -/
def addSubFieldOrder : FieldOrder := .asFigured

/-- The readings of "PC" in loadaddr, loopentry and jmpr (D22). -/
inductive PcBase where
  | own
  | next
deriving DecidableEq, Repr

/-- `JMPR_BASE` (D22): the address of the instruction itself. UNVERIFIED (log 33), unsafe. -/
def jmprBase : PcBase := .own

/-- `FP_LEVEL` (D26): 0, "No FP". UNVERIFIED (log 25), unsafe. -/
def fpLevel : Nat := 0

/-- `EV_ENTRIES`: "Exception pointer vector has 64 entries. [FIXME] Confirm that." (R301). The decided
trap model does not consult the vector. -/
def evEntries : Nat := 64

/-- `NCORES` (D43). -/
def ncores : Nat := 1

/-- `RESET_PC` (D32), open, a multiple of 4. DESIGN CHOICE (log 2), unsafe: the entry address that the
programs of 95_test_vectors.md use. -/
def resetPc : Word := 0x1000

/-- `PROC_ID` (D43), open. DESIGN CHOICE (log 6), unsafe: the value that `State.reset` puts into the
`Processor ID` register. -/
def procId : Word := 0

/-- `MEM` (D33), open. DESIGN CHOICE (log 1): the launch memory of `State.reset` is empty; a program and
its data are loaded from outside the machine. -/
def launchMemory : List (Nat × Byte) := []

/-- The places of one instruction that can need a `Draw` (R10): the reads of the registers in Reg1, Reg2
and Reg3, the read of a destination's old value, the open high bits of a load or of a second result, and
the read of an internal register. No instruction draws twice at one site. -/
inductive DrawSite where
  | reg1
  | reg2
  | reg3
  | dest
  | highBits
  | internal
deriving DecidableEq, Repr

/-- `Draw(64)` (R10): the free value that the run's draw number `draws` gives at a site. No body: nothing
can be proved of its value (log 8). -/
opaque draw : Nat → DrawSite → Word

/-- `SHIFT_OOR(n, v, cnt, direction, signed)` (R151, D28): the result of a shift whose amount is not
below the operand size. No body (log 10). -/
opaque shiftOor : (n : Nat) → BitVec n → (cnt : Word) → (right signed : Bool) → BitVec n

/-- `DIV_SIGNED_CORNER(n, a, b)` (R127, D29): quotient and remainder. No body (log 11). -/
opaque divSignedCorner : (n : Nat) → BitVec n → BitVec n → BitVec n × BitVec n

/-- `MODI_CORNER(n, a, imm8)` (R133, D29). No body (log 12). -/
opaque modiCorner : (n : Nat) → BitVec n → BitVec 8 → BitVec n

/-- All internal registers, in the order of their declaration. -/
def iregs : List IReg :=
  [.srOpc, .srOmsw, .srEv, .srTmp, .srEr, .srEnt, .procId, .cntCycles, .cntCountdown, .cntInstr,
   .cntPageFault, .cntTrap, .cntFpuTrap, .cntCache, .cntBranch, .cntBubble, .cntTlb]

/-- The open map from internal registers to 16-bit indices, before injectivity. No body (log 9). -/
opaque irIndexGiven : IReg → BitVec 16

/-- Whether a map of the internal registers to indices is injective. -/
def irInjective (f : IReg → BitVec 16) : Bool :=
  iregs.all fun m => iregs.all fun n => f m != f n || m == n

/-- `IR_INDEX` (R240, D31): an injective map from the 17 names to numbers below 2^16, any one. It is the
given map where that is injective, and a fixed injective map where it is not, so that injectivity holds
whatever the given map is (log 9). -/
def irIndex (n : IReg) : BitVec 16 :=
  if irInjective irIndexGiven then irIndexGiven n else BitVec.ofNat 16 (iregs.idxOf n)

end Sys2Proof.Config
end

