-- ==== Sys2Proof/Machine/Operands.lean ====
section
/-!
DEFINITION. Operand forms: operand sizes and lanes (00_scope.md R11), the scalar and SIMD forms (R121,
R122), the immediates (R95, R123), bit and byte reversal (R200), and byte lists in both orders (R52, R53).
-/

namespace Sys2Proof.Machine

/-! ### Sizes and lanes (R11) -/

/-- `SZ`: the width of an operand size in bits (R11, R90; D5). UNVERIFIED (log 15), unsafe. -/
def sizeBits (size : Size) : Nat :=
  Config.sizeWidth size

/-- The width in bytes, `SZ/8` (R51). -/
def sizeBytes (size : Size) : Nat :=
  sizeBits size / 8

/-- `lanes(n)` = 64/n (R11). -/
def lanes (n : Nat) : Nat :=
  64 / n

/-- `lane(v, n, k)` = `v[n*k+n-1 : n*k]` (R11). -/
def lane (n : Nat) (v : Word) (k : Nat) : BitVec n :=
  v.extractLsb' (n * k) n

/-- `himerge(n, src, w)`: w in the low n bits, the bits above, of which there are none at n = 64, from `src`
(R11). -/
def himerge (n : Nat) (src : Word) (w : BitVec n) : Word :=
  if 64 ≤ n then w.setWidth 64 else ((src >>> n) <<< n) ||| w.setWidth 64

/-- The word whose lanes 0 to `count - 1` are given and whose other bits are 0. -/
def joinLanes (n : Nat) (f : Nat → BitVec n) : Nat → Word
  | 0 => 0
  | count + 1 => joinLanes n f count ||| ((f count).setWidth 64 <<< (n * count))

/-- The first result of a scalar operation in its register (R121, D6): w in the low n bits, the bits above
by `HIGH_PART`. UNVERIFIED (log 16), unsafe. -/
def mergeHigh (n : Nat) (src old : Word) (w : BitVec n) : Word :=
  match Config.highPart with
  | .firstSource => himerge n src w
  | .oldDestination => himerge n old w
  | .zeros => himerge n 0 w

/-- The first result of a sized operation (R121): every lane (SIMD) or lane 0 only (scalar). `f k` is the
result of lane k, `src` the first source and `old` the destination's old value. -/
def firstResult (n : Nat) (simd : Bool) (src old : Word) (f : Nat → BitVec n) : Word :=
  if simd then joinLanes n f (lanes n) else mergeHigh n src old (f 0)

/-- The second result of a 2r2w form (R122): every lane (SIMD), or the low n bits with the bits above from
the free value `open64` (scalar). -/
def secondResult (n : Nat) (simd : Bool) (open64 : Word) (f : Nat → BitVec n) : Word :=
  if simd then joinLanes n f (lanes n) else himerge n open64 (f 0)

/-- Whether a tested lane satisfies `p`: any lane (SIMD) or lane 0 (scalar) (R127). -/
def anyLane (n : Nat) (simd : Bool) (v : Word) (p : BitVec n → Bool) : Bool :=
  if simd then (List.range (lanes n)).any fun k => p (lane n v k) else p (lane n v 0)

/-! ### Immediates -/

/-- `ext8(imm8, n)` (R123): imm8 at n = 8, else its extension by `IMM8_EXT`. UNVERIFIED (log 17), unsafe. -/
def ext8 (imm8 : BitVec 8) (n : Nat) : BitVec n :=
  match Config.imm8Ext with
  | .sign => imm8.signExtend n
  | .zero => imm8.setWidth n

/-- The effective address `(base + index * SZ/8) mod 2^64` (R69, R212). -/
def effectiveAddress (size : Size) (base index : Word) : Word :=
  base + index * BitVec.ofNat 64 (sizeBytes size)

/-- The "PC" of loadaddr, loopentry and jmpr (R25, D22), from the instruction's own address. -/
def pcBase (own : Word) : Word :=
  match Config.jmprBase with
  | .own => own
  | .next => own + 4

/-! ### Byte lists -/

/-- The number that a list of bytes denotes, the least significant byte first. -/
def numberOfBytes : List Byte → Nat
  | [] => 0
  | b :: bs => b.toNat + 256 * numberOfBytes bs

/-- The low `count` bytes of a number, the least significant first. -/
def bytesOfNumber : (count : Nat) → Nat → List Byte
  | 0, _ => []
  | count + 1, v => BitVec.ofNat 8 v :: bytesOfNumber count (v / 256)

/-- Bytes at rising addresses, as a list with the least significant byte first (R52), and back. -/
def inOrder (e : Endian) (bytes : List Byte) : List Byte :=
  match e with
  | .little => bytes
  | .big => bytes.reverse

/-! ### Reversal (R200) -/

/-- The low `count` bits of a number in reverse order. -/
def reverseBits : (count : Nat) → Nat → Nat
  | 0, _ => 0
  | count + 1, v => 2 ^ count * (v % 2) + reverseBits count (v / 2)

/-- `rev64(v)`: bit i of the result is bit 63 - i of v. -/
def rev64 (v : Word) : Word :=
  BitVec.ofNat 64 (reverseBits 64 v.toNat)

/-- `brev_n(v)`: byte j of the result is byte n/8 - 1 - j of v. -/
def brev (n : Nat) (v : BitVec n) : BitVec n :=
  BitVec.ofNat n (numberOfBytes (bytesOfNumber (n / 8) v.toNat).reverse)

end Sys2Proof.Machine
end

