-- ==== Sys2Proof/Machine/Flags.lean ====
section
/-!
DEFINITION. Results of one lane with what other machines put into flags. This hardware has no status flags
(10_state.md R28): a carry, a borrow, a high part and a remainder are second RESULTS, and conditions are
tests of a general register. Each function here answers the first result and the second one.
-/

namespace Sys2Proof.Machine

/-- One lane of add (R124): the wrapped or saturated sum, and the carry as the number 0 or 1. -/
def addLane (n : Nat) (saturate : Bool) (a b : BitVec n) : BitVec n × BitVec n :=
  let carry : Bool := 2 ^ n ≤ a.toNat + b.toNat
  (if saturate && carry then BitVec.allOnes n else a + b, if carry then 1 else 0)

/-- One lane of sub (R125): the wrapped or floored difference, and the borrow as all ones or 0. -/
def subLane (n : Nat) (floor : Bool) (a b : BitVec n) : BitVec n × BitVec n :=
  let borrow : Bool := a.toNat < b.toNat
  (if floor && borrow then 0 else a - b, if borrow then BitVec.allOnes n else 0)

/-- One lane of mul (R126): the low and the high half of the 2n-bit product, of signed or unsigned sources. -/
def mulLane (n : Nat) (signed : Bool) (a b : BitVec n) : BitVec n × BitVec n :=
  let p : BitVec (2 * n) :=
    if signed then a.signExtend (2 * n) * b.signExtend (2 * n)
    else a.setWidth (2 * n) * b.setWidth (2 * n)
  (p.extractLsb' 0 n, p.extractLsb' n n)

/-- One lane of a division by a divisor that is not 0 (R127): quotient and remainder, exact where the
division is unsigned or both operands have a clear top bit, else `DIV_SIGNED_CORNER`. -/
def divLane (n : Nat) (signed : Bool) (a b : BitVec n) : BitVec n × BitVec n :=
  if !signed || (!a.msb && !b.msb) then (a / b, a % b) else Config.divSignedCorner n a b

/-- One lane of modi for imm8 not 0 (R133). -/
def modiLane (n : Nat) (a : BitVec n) (imm8 : BitVec 8) : BitVec n :=
  if !a.msb && decide (imm8.toNat < 0x80) then a % imm8.setWidth n else Config.modiCorner n a imm8

/-- A shift of an n-bit value (R151, R152): left, logical right or arithmetic right by an amount below n,
else `SHIFT_OOR`. -/
def shiftLane (n : Nat) (right signed : Bool) (v : BitVec n) (cnt : Word) : BitVec n :=
  if n ≤ cnt.toNat then Config.shiftOor n v cnt right signed
  else if !right then v <<< cnt.toNat
  else if !signed then v >>> cnt.toNat
  else v.sshiftRight cnt.toNat

/-- A rotation of an n-bit value by `cnt mod n` (R151, R153). -/
def rotLane (n : Nat) (right : Bool) (v : BitVec n) (cnt : Nat) : BitVec n :=
  let c := cnt % n
  if !right then (v <<< c) ||| (v >>> (n - c)) else (v >>> c) ||| (v <<< (n - c))

/-- All ones or all zeros. -/
def spread (n : Nat) (b : Bool) : BitVec n :=
  if b then BitVec.allOnes n else 0

/-- The bitwise function of a truth table (R166): bit i is f(p, q) for bit i of a and bit i of b. -/
def logicLane (n : Nat) (f00 f10 f01 f11 : Bool) (a b : BitVec n) : BitVec n :=
  (spread n f00 &&& ~~~a &&& ~~~b) ||| (spread n f10 &&& a &&& ~~~b) |||
    (spread n f01 &&& ~~~a &&& b) ||| (spread n f11 &&& a &&& b)

/-- A single-bit operation on a whole register (R164). -/
def bitOperation (op : BitOperation) (imm6 : BitVec 6) (a : Word) : Word :=
  let m : Word := (1 : Word) <<< imm6.toNat
  match op with
  | .set => a ||| m
  | .clear => a &&& ~~~m
  | .change => a ^^^ m
  | .test => a &&& m

/-- A reversal and a logical right shift by less than 64 (R201, R202), else `SHIFT_OOR`. -/
def reverseShift (v cnt : Word) : Word :=
  if 64 ≤ cnt.toNat then Config.shiftOor 64 (rev64 v) cnt true false else rev64 v >>> cnt.toNat

/-- "non-nil" (R261): not zero, all 64 bits. -/
def nonNil (c : Word) : Bool :=
  c != 0

/-- The condition of jmpa (R262). -/
def jmpaCondition (negate : Bool) (test : BitTest) (c : Word) : Bool :=
  let holds : Bool :=
    match test with
    | .nonNil => nonNil c
    | .lsb => c.getLsbD 0
    | .msb => c.getLsbD 63
  if negate then !holds else holds

end Sys2Proof.Machine
end

