-- ==== Sys2Proof/WellFormed.lean ====
section
/-!
DEFINITION. Well-formed instructions. The types of `Instr` already bound every register number, immediate
and field value, so what is left to check is the NAME: some words have two names in the opcode table (R102,
R165, R167, R281), and an instruction is well formed when it is spelled by the name the decoder answers with.
-/

namespace Sys2Proof

/-- The name of a `logic` word: the alias that R167 prints for its truth table, if there is one. -/
def namedLogic (size : Size) (f00 f10 f01 f11 : Bool) (r1 r2 r3 : Reg) : Instr :=
  match f00, f10, f01, f11 with
  | false, false, false, true => .and size r1 r2 r3
  | false, true, true, false => .xor size r1 r2 r3
  | true, false, true, false => .not size r1 r2 r3
  | true, false, false, false => .nor size r1 r2 r3
  | true, true, true, false => .nand size r1 r2 r3
  | _, _, _, _ => .logic size f00 f10 f01 f11 r1 r2 r3

/-- The name of a `bitop` word: the alias that the section prints for its operation. For `s` the section
prints none (R165), so that form keeps the name `bitop`. DESIGN CHOICE (log 26), safe. -/
def namedBitop (op : BitOperation) (imm6 : BitVec 6) (r1 r2 : Reg) : Instr :=
  match op with
  | .set => .bitop .set imm6 r1 r2
  | .clear => .bclear imm6 r1 r2
  | .change => .bchange imm6 r1 r2
  | .test => .btest imm6 r1 r2

/-- The instruction under the name the decoder answers with. Both names stand for the same word, and the
machine gives both the same meaning. -/
def Instr.canonical : Instr → Instr
  | .bitop op imm6 r1 r2 => namedBitop op imm6 r1 r2
  | .bitset imm6 r1 r2 => .bitop .set imm6 r1 r2
  | .logic size f00 f10 f01 f11 r1 r2 r3 => namedLogic size f00 f10 f01 f11 r1 r2 r3
  | .trap imm18 r1 => .syscall imm18 r1
  | i => i

/-- An instruction is well formed when it is spelled by its canonical name. -/
def Instr.wellFormed (i : Instr) : Bool :=
  i.canonical == i

end Sys2Proof
end

