-- ==== Sys2Proof/Decode.lean ====
section
/-!
DEFINITION. The decoder (30_encoding.md R80 to R98), total on any bytes and rejecting by name, and after it
the encoder, written from the same figures. Where bit k of the source's figures lies in the word is said in
`flagAt`, `fieldAt` and `beside` alone (`INSN_BIT0`, R81, D2).
-/

namespace Sys2Proof

/-! ### Fields -/

/-- `insn[k]` (R8): the bit of weight 2^k under the decided `INSN_BIT0`. UNVERIFIED (log 14), unsafe. -/
def flagAt (w : Insn) (k : Nat) : Bool :=
  match Config.insnBit0 with
  | .leastSignificant => w.getLsbD k
  | .mostSignificant => w.getLsbD (31 - k)

/-- The field of `len` bits that a figure draws from bit `lo` up (R8, R81), bit `lo` its least significant
one under the decided `INSN_BIT0` and its most significant one under the other. UNVERIFIED (log 14),
unsafe. -/
def fieldAt (w : Insn) (lo len : Nat) : BitVec len :=
  match Config.insnBit0 with
  | .leastSignificant => w.extractLsb' lo len
  | .mostSignificant => w.extractLsb' (32 - lo - len) len

/-- A register number: a 6-bit field (R21). -/
def regAt (w : Insn) (lo : Nat) : Reg :=
  (fieldAt w lo 6).toFin

/-- The size of a 2-bit code (R90): the one whose `SIZE_CODE` it is. -/
def sizeOfCode (c : BitVec 2) : Size :=
  ([.b, .d, .q, .full].find? fun size => Config.sizeCode size == c).getD .full

/-- The size field insn[8..9] (R90). -/
def sizeAt (w : Insn) : Size :=
  sizeOfCode (fieldAt w 8 2)

/-- The endianness flag insn[10] of load, store, loadi, storei (R54). -/
def endianAt (w : Insn) : Endian :=
  if flagAt w 10 then .big else .little

/-- The `bitop` operation of a 2-bit code (R164): the one whose `BITOP_CODE` it is. -/
def bitOperationOfCode (c : BitVec 2) : BitOperation :=
  ([.set, .clear, .change, .test].find? fun op => Config.bitopCode op == c).getD .test

/-- The mode field insn[10..11] of mov (R216); value 3 is reserved. -/
def highModeOfCode (c : BitVec 2) : Option HighMode :=
  match c.toFin with
  | 0 => some .keep
  | 1 => some .zeroExtend
  | 2 => some .signExtend
  | 3 => none

/-- The level field insn[12..14] of cachemm (R226); value 3 is unused. -/
def memLevelOfCode (c : BitVec 3) : Option MemLevel :=
  match c.toFin with
  | 0 => some .dataL1
  | 1 => some .insnL1
  | 2 => some .onchip
  | 3 => none
  | 4 => some .offchip
  | 5 => some .localMem
  | 6 => some .globalMem
  | 7 => some .virtualMem

/-- The test that insn[9] and insn[10] of jmpa select (R262), by `JMPA_TEST_BITS`; both set are reserved. -/
def bitTestOfFlags (b9 b10 : Bool) : Option BitTest :=
  match b9, b10 with
  | false, false => some .nonNil
  | true, false => match Config.jmpaTestBits with
    | .lsbAt9 => some .lsb
    | .lsbAt10 => some .msb
  | false, true => match Config.jmpaTestBits with
    | .lsbAt9 => some .msb
    | .lsbAt10 => some .lsb
  | true, true => none

/-- The rounding field insn[13..15] of `OP_FCONV` (R186); 5, 6, 7 are reserved. -/
def roundingOfCode (c : BitVec 3) : Option Rounding :=
  match c.toFin with
  | 0 => some .nearest
  | 1 => some .towardZero
  | 2 => some .awayFromZero
  | 3 => some .towardMinus
  | 4 => some .towardPlus
  | 5 => none
  | 6 => none
  | 7 => none

/-! ### Opcodes -/

/-- All opcode symbols (R84). -/
def ops : List Op :=
  [.add, .sub, .mul, .div, .addi, .subi, .muli, .divi, .mod, .modi,
   .shift, .rot, .shifti, .roti, .bitop, .logic, .mix, .expand,
   .fadd, .fsub, .fmul, .fdiv, .fconv, .finv, .fsqrt, .finvsqrt,
   .bitrev, .bitrevi, .byterev,
   .load, .store, .mov, .loadcons, .loadconsx, .cachemm, .loadi, .storei,
   .get, .put, .geti, .puti,
   .jmpa, .loadaddr, .loopentry, .loop, .jmpi, .jmpr,
   .systrap, .halt, .rfe]

/-- The symbol an opcode byte selects (R82), none for an unassigned opcode (R98). -/
def opOfNumber (n : BitVec 8) : Option Op :=
  ops.find? fun op => Config.opc op == n

/-- The must-be-zero bits of each symbol (R97), as first bit and number of bits. -/
def mustBeZero : Op → Nat × Nat
  | .add | .sub | .mul | .div => (11, 1)
  | .addi | .subi | .muli | .divi | .modi => (11, 1)
  | .mod => (11, 3)
  | .shift | .shifti => (12, 2)
  | .rot | .roti => (11, 3)
  | .bitop => (10, 4)
  | .logic => (8, 0)
  | .mix => (9, 5)
  | .expand => (9, 11)
  | .fadd | .fsub | .fmul | .fdiv => (12, 2)
  | .fconv => (16, 4)
  | .finv | .fsqrt | .finvsqrt => (12, 8)
  | .bitrev | .bitrevi => (8, 6)
  | .byterev => (10, 10)
  | .load | .store => (11, 3)
  | .mov => (12, 2)
  | .loadcons | .loadconsx => (8, 0)
  | .cachemm => (15, 5)
  | .loadi | .storei => (8, 0)
  | .get | .put | .loop => (8, 12)
  | .geti | .puti => (8, 2)
  | .jmpa => (11, 9)
  | .loopentry => (8, 18)
  | .loadaddr | .jmpi | .jmpr | .systrap | .halt | .rfe => (8, 0)

/-- Whether a reserved or undefined bit of the symbol's flag area is set (R97). -/
def reservedSet (op : Op) (w : Insn) : Bool :=
  fieldAt w (mustBeZero op).1 (mustBeZero op).2 != 0

/-- The floating-point opcodes that an implementation level lists (R180); `true` for every opcode that is
not a floating-point one. -/
def implementedAt (level : Nat) : Op → Bool
  | .fadd | .fsub | .fmul | .fconv => level == 1 || level == 2 || level == 3
  | .finv | .fsqrt => level == 2 || level == 3
  | .fdiv | .finvsqrt => level == 3
  | _ => true

/-- What a word with a reserved bit or field value raises: a floating-point opcode that the level lacks is
an illegal opcode whatever its other bits (R191), any other word is what `RESERVED_NONZERO` says (R97). -/
def rejectOf (op : Op) : Reject :=
  if implementedAt Config.fpLevel op then Config.reservedNonzero else .illegalOpcode

/-- The register fields of add and sub as (r1, r2, r3) (R85, `90_conflicts.md` C1). -/
def addSubRegs (w : Insn) : Reg × Reg × Reg :=
  match Config.addSubFieldOrder with
  | .asFigured => (regAt w 26, regAt w 20, regAt w 14)
  | .asOthers => (regAt w 14, regAt w 20, regAt w 26)

/-! ### The decoder -/

/-- The instruction of a word with a known opcode and no must-be-zero bit set, under the name of its opcode
symbol; none where a field holds a reserved value (R97). -/
def decodeFields (op : Op) (w : Insn) : Option Instr :=
  match op with
  | .add => some (.add (sizeAt w) (flagAt w 10) (flagAt w 12) (flagAt w 13)
      (addSubRegs w).1 (addSubRegs w).2.1 (addSubRegs w).2.2)
  | .sub => some (.sub (sizeAt w) (flagAt w 10) (flagAt w 12) (flagAt w 13)
      (addSubRegs w).1 (addSubRegs w).2.1 (addSubRegs w).2.2)
  | .mul => some (.mul (sizeAt w) (flagAt w 10) (flagAt w 12) (flagAt w 13)
      (regAt w 14) (regAt w 20) (regAt w 26))
  | .div => some (.div (sizeAt w) (flagAt w 10) (flagAt w 12) (flagAt w 13)
      (regAt w 14) (regAt w 20) (regAt w 26))
  | .addi => some (.addi (sizeAt w) (flagAt w 10) (fieldAt w 12 8) (regAt w 20) (regAt w 26))
  | .subi => some (.subi (sizeAt w) (flagAt w 10) (fieldAt w 12 8) (regAt w 20) (regAt w 26))
  | .muli => some (.muli (sizeAt w) (flagAt w 10) (fieldAt w 12 8) (regAt w 20) (regAt w 26))
  | .divi => some (.divi (sizeAt w) (flagAt w 10) (fieldAt w 12 8) (regAt w 20) (regAt w 26))
  | .mod => some (.mod (sizeAt w) (flagAt w 10) (regAt w 14) (regAt w 20) (regAt w 26))
  | .modi => some (.modi (sizeAt w) (flagAt w 10) (fieldAt w 12 8) (regAt w 20) (regAt w 26))
  | .shift => some (.shift (sizeAt w) (flagAt w 10) (flagAt w 11)
      (regAt w 14) (regAt w 20) (regAt w 26))
  | .rot => some (.rot (sizeAt w) (flagAt w 10) (regAt w 14) (regAt w 20) (regAt w 26))
  | .shifti => some (.shifti (sizeAt w) (flagAt w 10) (flagAt w 11) (fieldAt w 14 6)
      (regAt w 20) (regAt w 26))
  | .roti => some (.roti (sizeAt w) (flagAt w 10) (fieldAt w 14 6) (regAt w 20) (regAt w 26))
  | .bitop => some (.bitop (bitOperationOfCode (fieldAt w 8 2)) (fieldAt w 14 6)
      (regAt w 20) (regAt w 26))
  | .logic => some (.logic (sizeAt w) (flagAt w 10) (flagAt w 11) (flagAt w 12) (flagAt w 13)
      (regAt w 14) (regAt w 20) (regAt w 26))
  | .mix => some (.mix (flagAt w 8) (regAt w 14) (regAt w 20) (regAt w 26))
  | .expand => some (.expand (flagAt w 8) (regAt w 20) (regAt w 26))
  | .fadd => some (.fadd (fieldAt w 8 2) (flagAt w 10) (flagAt w 11)
      (regAt w 14) (regAt w 20) (regAt w 26))
  | .fsub => some (.fsub (fieldAt w 8 2) (flagAt w 10) (flagAt w 11)
      (regAt w 14) (regAt w 20) (regAt w 26))
  | .fmul => some (.fmul (fieldAt w 8 2) (flagAt w 10) (flagAt w 11)
      (regAt w 14) (regAt w 20) (regAt w 26))
  | .fdiv => some (.fdiv (fieldAt w 8 2) (flagAt w 10) (flagAt w 11)
      (regAt w 14) (regAt w 20) (regAt w 26))
  | .fconv => (roundingOfCode (fieldAt w 13 3)).map fun rounding =>
      -- The direction flag: 0 = int2f, 1 = f2int (D49). UNVERIFIED (log 25), unsafe.
      if flagAt w 10 then
        .f2int (fieldAt w 8 2) (flagAt w 11) (flagAt w 12) rounding (regAt w 20) (regAt w 26)
      else
        .int2f (fieldAt w 8 2) (flagAt w 11) (flagAt w 12) rounding (regAt w 20) (regAt w 26)
  | .finv => some (.finv (fieldAt w 8 2) (flagAt w 10) (flagAt w 11) (regAt w 20) (regAt w 26))
  | .fsqrt => some (.fsqrt (fieldAt w 8 2) (flagAt w 10) (flagAt w 11) (regAt w 20) (regAt w 26))
  | .finvsqrt => some (.finvsqrt (fieldAt w 8 2) (flagAt w 10) (flagAt w 11)
      (regAt w 20) (regAt w 26))
  | .bitrev => some (.bitrev (regAt w 14) (regAt w 20) (regAt w 26))
  | .bitrevi => some (.bitrevi (fieldAt w 14 6) (regAt w 20) (regAt w 26))
  | .byterev => some (.byterev (sizeAt w) (regAt w 20) (regAt w 26))
  | .load => some (.load (sizeAt w) (endianAt w) (regAt w 14) (regAt w 20) (regAt w 26))
  | .store => some (.store (sizeAt w) (endianAt w) (regAt w 14) (regAt w 20) (regAt w 26))
  | .mov => (highModeOfCode (fieldAt w 10 2)).map fun mode =>
      .mov (sizeAt w) mode (regAt w 14) (regAt w 20) (regAt w 26)
  | .loadcons => some (.loadcons (fieldAt w 8 2).toFin (fieldAt w 10 16) (regAt w 26))
  | .loadconsx => some (.loadconsx (fieldAt w 8 2).toFin (fieldAt w 10 16) (regAt w 26))
  | .cachemm => (memLevelOfCode (fieldAt w 12 3)).map fun level =>
      .cachemm (sizeAt w) (flagAt w 10) (flagAt w 11) level (regAt w 20) (regAt w 26)
  | .loadi => some (.loadi (sizeAt w) (endianAt w) (fieldAt w 11 9) (regAt w 20) (regAt w 26))
  | .storei => some (.storei (sizeAt w) (endianAt w) (fieldAt w 11 9) (regAt w 20) (regAt w 26))
  | .get => some (.get (regAt w 20) (regAt w 26))
  | .put => some (.put (regAt w 20) (regAt w 26))
  | .geti => some (.geti (fieldAt w 10 16) (regAt w 26))
  | .puti => some (.puti (fieldAt w 10 16) (regAt w 26))
  | .jmpa => (bitTestOfFlags (flagAt w 9) (flagAt w 10)).map fun test =>
      .jmpa (flagAt w 8) test (regAt w 20) (regAt w 26)
  | .loadaddr => some (.loadaddr (fieldAt w 8 18) (regAt w 26))
  | .loopentry => some (.loopentry (regAt w 26))
  | .loop => some (.loop (regAt w 20) (regAt w 26))
  | .jmpi => some (.jmpi (fieldAt w 8 12) (regAt w 20) (regAt w 26))
  | .jmpr => some (.jmpr (fieldAt w 8 18) (regAt w 26))
  | .systrap => some (.syscall (fieldAt w 8 18) (regAt w 26))
  | .halt => some (.halt (fieldAt w 8 18) (regAt w 26))
  | .rfe => some (.rfe (fieldAt w 8 18) (regAt w 26))

/-- The destination registers of an instruction, register 0 among them where it is named (R22, R23). -/
def Instr.destinations : Instr → List Reg
  | .add _ _ _ second _ _ r3 | .sub _ _ _ second _ _ r3 | .mul _ _ _ second _ _ r3
  | .div _ _ _ second _ _ r3 => if second then [r3, r3 + 1] else [r3]
  | .addi _ _ _ _ r2 | .subi _ _ _ _ r2 | .muli _ _ _ _ r2 | .divi _ _ _ _ r2
  | .modi _ _ _ _ r2 => [r2]
  | .mod _ _ _ _ r3 | .shift _ _ _ _ _ r3 | .rot _ _ _ _ r3 => [r3]
  | .shifti _ _ _ _ _ r2 | .roti _ _ _ _ r2 => [r2]
  | .bitop _ _ _ r2 | .bitset _ _ r2 | .bclear _ _ r2 | .bchange _ _ r2 | .btest _ _ r2 => [r2]
  | .logic _ _ _ _ _ _ _ r3 | .and _ _ _ r3 | .xor _ _ _ r3 | .not _ _ _ r3 | .nor _ _ _ r3
  | .nand _ _ _ r3 => [r3]
  | .mix _ _ _ r3 | .fadd _ _ _ _ _ r3 | .fsub _ _ _ _ _ r3 | .fmul _ _ _ _ _ r3
  | .fdiv _ _ _ _ _ r3 => [r3]
  | .expand _ _ r2 | .int2f _ _ _ _ _ r2 | .f2int _ _ _ _ _ r2 | .finv _ _ _ _ r2
  | .fsqrt _ _ _ _ r2 | .finvsqrt _ _ _ _ r2 => [r2]
  | .bitrev _ _ r3 => [r3]
  | .bitrevi _ _ r2 | .byterev _ _ r2 => [r2]
  | .load _ _ _ _ r3 | .mov _ _ _ _ r3 => [r3]
  | .loadi _ _ _ _ r2 | .get _ r2 => [r2]
  | .loadcons _ _ r1 | .loadconsx _ _ r1 | .geti _ r1 | .loadaddr _ r1 | .loopentry r1 => [r1]
  | .store _ _ _ _ _ | .storei _ _ _ _ _ | .cachemm _ _ _ _ _ _ | .put _ _ | .puti _ _ => []
  | .jmpa _ _ _ _ | .loop _ _ | .jmpi _ _ _ | .jmpr _ _ => []
  | .syscall _ _ | .trap _ _ | .halt _ _ | .rfe _ _ => []

/-- Whether an instruction is rejected for naming r0 as its destination, by `R0_WRITE` (R22). -/
def rejectsR0 (i : Instr) : Bool :=
  match Config.r0Write with
  | .discarded => false
  | .malformed => i.destinations.head? == some 0

/-- The decoding procedure of R96, answering with canonical names (log 26). -/
def decodeWord (w : Insn) : Except Reject Instr :=
  match opOfNumber (fieldAt w 0 8) with
  | none => .error Config.unassignedOpcode
  | some op =>
    if reservedSet op w then .error (rejectOf op)
    else
      match decodeFields op w with
      | none => .error (rejectOf op)
      | some i => if rejectsR0 i then .error .malformed else .ok i.canonical

/-- The word whose four bytes lie at rising addresses in byte order `e` (R52, R55). -/
def wordOfBytes (e : Endian) (b0 b1 b2 b3 : Byte) : Insn :=
  match e with
  | .little => b3 ++ b2 ++ b1 ++ b0
  | .big => b0 ++ b1 ++ b2 ++ b3

/-- Decoding of the first four bytes of a list, lowest address first. -/
def decode : List Byte → Except Reject Instr
  | b0 :: b1 :: b2 :: b3 :: _ => decodeWord (wordOfBytes Config.fetchEndian b0 b1 b2 b3)
  | _ => .error .truncated

/-- The four bytes of an instruction word, lowest address first (R55, D3). -/
def bytesOfWord (w : Insn) : List Byte :=
  match Config.fetchEndian with
  | .little => [w.extractLsb' 0 8, w.extractLsb' 8 8, w.extractLsb' 16 8, w.extractLsb' 24 8]
  | .big => [w.extractLsb' 24 8, w.extractLsb' 16 8, w.extractLsb' 8 8, w.extractLsb' 0 8]

/-- The word that a row of spec/opcode_table.json names by its low `nbits` bits. -/
def tableWord (nbits w : Nat) : Insn :=
  BitVec.ofNat 32 (w % 2 ^ nbits)

/-- The instruction this decoder reads from a word of spec/opcode_table.json. -/
def decodeTableWord (nbits w : Nat) : Option Instr :=
  match decode (bytesOfWord (tableWord nbits w)) with
  | .ok i => some i
  | .error _ => none

/-! ### The encoder -/

/-- A flag as a field of one bit. -/
def bit (b : Bool) : BitVec 1 :=
  BitVec.ofBool b

/-- A register number as a field. -/
def regField (r : Reg) : BitVec 6 :=
  BitVec.ofFin r

/-- The code of a size (R90). -/
def sizeCode (size : Size) : BitVec 2 :=
  Config.sizeCode size

/-- The endianness flag (R54). -/
def endianCode : Endian → Bool
  | .little => false
  | .big => true

/-- The code of a `bitop` operation (R164). -/
def bitOperationCode (op : BitOperation) : BitVec 2 :=
  Config.bitopCode op

/-- The code of a high-part mode (R216). -/
def highModeCode : HighMode → BitVec 2
  | .keep => 0
  | .zeroExtend => 1
  | .signExtend => 2

/-- The code of a memory level (R226). -/
def memLevelCode : MemLevel → BitVec 3
  | .dataL1 => 0
  | .insnL1 => 1
  | .onchip => 2
  | .offchip => 4
  | .localMem => 5
  | .globalMem => 6
  | .virtualMem => 7

/-- insn[9] and insn[10] of jmpa (R262), by `JMPA_TEST_BITS`. -/
def bitTestFlags : BitTest → Bool × Bool
  | .nonNil => (false, false)
  | .lsb => match Config.jmpaTestBits with
    | .lsbAt9 => (true, false)
    | .lsbAt10 => (false, true)
  | .msb => match Config.jmpaTestBits with
    | .lsbAt9 => (false, true)
    | .lsbAt10 => (true, false)

/-- The code of a rounding mode (R186). -/
def roundingCode : Rounding → BitVec 3
  | .nearest => 0
  | .towardZero => 1
  | .awayFromZero => 2
  | .towardMinus => 3
  | .towardPlus => 4

/-- Two neighbouring pieces of a figure as one, `hi` at the higher bit numbers: the more significant piece
under the decided `INSN_BIT0`, the less significant one under the other (R81). UNVERIFIED (log 14), unsafe. -/
def beside {m n : Nat} (hi : BitVec m) (lo : BitVec n) : BitVec (m + n) :=
  match Config.insnBit0 with
  | .leastSignificant => hi ++ lo
  | .mostSignificant => (lo ++ hi).cast (Nat.add_comm n m)

/-- Formats R3 (R85) and I6 (R87): six flag bits and three 6-bit fields at 14, 20, 26. -/
def packR3 (op : Op) (flags f14 f20 f26 : BitVec 6) : Insn :=
  beside f26 (beside f20 (beside f14 (beside flags (Config.opc op))))

/-- Format R3A (R85): the fields of add and sub, from their registers r1, r2, r3. -/
def packR3A (op : Op) (flags r1 r2 r3 : BitVec 6) : Insn :=
  match Config.addSubFieldOrder with
  | .asFigured => packR3 op flags r3 r2 r1
  | .asOthers => packR3 op flags r1 r2 r3

/-- Format I8 (R86). -/
def packI8 (op : Op) (flags : BitVec 4) (imm8 : BitVec 8) (f20 f26 : BitVec 6) : Insn :=
  beside f26 (beside f20 (beside imm8 (beside flags (Config.opc op))))

/-- Formats R2 (R88) and I12 (R94): twelve bits from 8 to 19 and two register fields. -/
def packR2 (op : Op) (low : BitVec 12) (f20 f26 : BitVec 6) : Insn :=
  beside f26 (beside f20 (beside low (Config.opc op)))

/-- Format I9 (R89). -/
def packI9 (op : Op) (flags : BitVec 3) (imm9 : BitVec 9) (f20 f26 : BitVec 6) : Insn :=
  beside f26 (beside f20 (beside imm9 (beside flags (Config.opc op))))

/-- Format I16 (R91). -/
def packI16 (op : Op) (s : BitVec 2) (imm16 : BitVec 16) (f26 : BitVec 6) : Insn :=
  beside f26 (beside imm16 (beside s (Config.opc op)))

/-- Formats I18 (R92) and R1 (R93): eighteen bits from 8 to 25 and one register field. -/
def packI18 (op : Op) (low : BitVec 18) (f26 : BitVec 6) : Insn :=
  beside f26 (beside low (Config.opc op))

/-- Six flag bits: a size code and insn[10] to insn[13]. -/
def flags6 (code : BitVec 2) (b10 b11 b12 b13 : Bool) : BitVec 6 :=
  beside (bit b13) (beside (bit b12) (beside (bit b11) (beside (bit b10) code)))

/-- Four flag bits: a size code, insn[10] and insn[11]. -/
def flags4 (code : BitVec 2) (b10 b11 : Bool) : BitVec 4 :=
  beside (bit b11) (beside (bit b10) code)

/-- The two-register floating-point flags (R187) in the EMPTY area. -/
def fpLow (fpSize : BitVec 2) (simd nonIeee : Bool) : BitVec 12 :=
  beside (0 : BitVec 8) (flags4 fpSize simd nonIeee)

/-- The flags of `OP_FCONV` (R186) in the EMPTY area. -/
def fconvLow (fpSize : BitVec 2) (direction simd nonIeee : Bool) (rounding : Rounding) : BitVec 12 :=
  beside (0 : BitVec 4) (beside (roundingCode rounding)
    (beside (bit nonIeee) (beside (bit simd) (beside (bit direction) fpSize))))

/-- The EMPTY area of byterev (R203): the size code. -/
def byterevLow (code : BitVec 2) : BitVec 12 :=
  beside (0 : BitVec 10) code

/-- The flags of mix (R168): the high/low flag. -/
def mixFlags (part : Bool) : BitVec 6 :=
  beside (0 : BitVec 5) (bit part)

/-- The EMPTY area of expand (R169): the high/low flag. -/
def expandLow (part : Bool) : BitVec 12 :=
  beside (0 : BitVec 11) (bit part)

/-- The flags of mov (R215): a high-part mode above a size code. -/
def movFlags (mode code : BitVec 2) : BitVec 6 :=
  beside (0 : BitVec 2) (beside mode code)

/-- The EMPTY area of cachemm (R225). -/
def cachemmLow (level : BitVec 3) (code : BitVec 2) (fp lock : Bool) : BitVec 12 :=
  beside (0 : BitVec 5) (beside level (flags4 code fp lock))

/-- The flags of loadi and storei (R228, R229): the endianness flag above a size code. -/
def loadiFlags (big : Bool) (code : BitVec 2) : BitVec 3 :=
  beside (bit big) code

/-- The EMPTY area of jmpa (R262): insn[8], insn[9] and insn[10]. -/
def jmpaLow (negate b9 b10 : Bool) : BitVec 12 :=
  beside (0 : BitVec 9) (beside (bit b10) (beside (bit b9) (bit negate)))

/-- The word of an instruction (R84 to R97), every must-be-zero bit 0. -/
def encode : Instr → Insn
  | .add size simd saturate carry r1 r2 r3 =>
      packR3A .add (flags6 (sizeCode size) simd false saturate carry)
        (regField r1) (regField r2) (regField r3)
  | .sub size simd floor borrow r1 r2 r3 =>
      packR3A .sub (flags6 (sizeCode size) simd false floor borrow)
        (regField r1) (regField r2) (regField r3)
  | .mul size simd signed high r1 r2 r3 =>
      packR3 .mul (flags6 (sizeCode size) simd false signed high)
        (regField r1) (regField r2) (regField r3)
  | .div size simd signed modulo r1 r2 r3 =>
      packR3 .div (flags6 (sizeCode size) simd false signed modulo)
        (regField r1) (regField r2) (regField r3)
  | .addi size simd imm8 r1 r2 =>
      packI8 .addi (flags4 (sizeCode size) simd false) imm8 (regField r1) (regField r2)
  | .subi size simd imm8 r1 r2 =>
      packI8 .subi (flags4 (sizeCode size) simd false) imm8 (regField r1) (regField r2)
  | .muli size simd imm8 r1 r2 =>
      packI8 .muli (flags4 (sizeCode size) simd false) imm8 (regField r1) (regField r2)
  | .divi size simd imm8 r1 r2 =>
      packI8 .divi (flags4 (sizeCode size) simd false) imm8 (regField r1) (regField r2)
  | .mod size simd r1 r2 r3 =>
      packR3 .mod (flags6 (sizeCode size) simd false false false)
        (regField r1) (regField r2) (regField r3)
  | .modi size simd imm8 r1 r2 =>
      packI8 .modi (flags4 (sizeCode size) simd false) imm8 (regField r1) (regField r2)
  | .shift size right signed r1 r2 r3 =>
      packR3 .shift (flags6 (sizeCode size) right signed false false)
        (regField r1) (regField r2) (regField r3)
  | .rot size right r1 r2 r3 =>
      packR3 .rot (flags6 (sizeCode size) right false false false)
        (regField r1) (regField r2) (regField r3)
  | .shifti size right signed imm6 r1 r2 =>
      packR3 .shifti (flags6 (sizeCode size) right signed false false)
        imm6 (regField r1) (regField r2)
  | .roti size right imm6 r1 r2 =>
      packR3 .roti (flags6 (sizeCode size) right false false false)
        imm6 (regField r1) (regField r2)
  | .bitop op imm6 r1 r2 =>
      packR3 .bitop (flags6 (bitOperationCode op) false false false false)
        imm6 (regField r1) (regField r2)
  | .bitset imm6 r1 r2 =>
      packR3 .bitop (flags6 (bitOperationCode .set) false false false false) imm6 (regField r1) (regField r2)
  | .bclear imm6 r1 r2 =>
      packR3 .bitop (flags6 (bitOperationCode .clear) false false false false) imm6 (regField r1) (regField r2)
  | .bchange imm6 r1 r2 =>
      packR3 .bitop (flags6 (bitOperationCode .change) false false false false) imm6 (regField r1) (regField r2)
  | .btest imm6 r1 r2 =>
      packR3 .bitop (flags6 (bitOperationCode .test) false false false false) imm6 (regField r1) (regField r2)
  | .logic size f00 f10 f01 f11 r1 r2 r3 =>
      packR3 .logic (flags6 (sizeCode size) f00 f10 f01 f11)
        (regField r1) (regField r2) (regField r3)
  | .and size r1 r2 r3 =>
      packR3 .logic (flags6 (sizeCode size) false false false true)
        (regField r1) (regField r2) (regField r3)
  | .xor size r1 r2 r3 =>
      packR3 .logic (flags6 (sizeCode size) false true true false)
        (regField r1) (regField r2) (regField r3)
  | .not size r1 r2 r3 =>
      packR3 .logic (flags6 (sizeCode size) true false true false)
        (regField r1) (regField r2) (regField r3)
  | .nor size r1 r2 r3 =>
      packR3 .logic (flags6 (sizeCode size) true false false false)
        (regField r1) (regField r2) (regField r3)
  | .nand size r1 r2 r3 =>
      packR3 .logic (flags6 (sizeCode size) true true true false)
        (regField r1) (regField r2) (regField r3)
  | .mix part r1 r2 r3 =>
      packR3 .mix (mixFlags part)
        (regField r1) (regField r2) (regField r3)
  | .expand part r1 r2 =>
      packR2 .expand (expandLow part) (regField r1) (regField r2)
  | .fadd fpSize simd nonIeee r1 r2 r3 =>
      packR3 .fadd (flags6 fpSize simd nonIeee false false)
        (regField r1) (regField r2) (regField r3)
  | .fsub fpSize simd nonIeee r1 r2 r3 =>
      packR3 .fsub (flags6 fpSize simd nonIeee false false)
        (regField r1) (regField r2) (regField r3)
  | .fmul fpSize simd nonIeee r1 r2 r3 =>
      packR3 .fmul (flags6 fpSize simd nonIeee false false)
        (regField r1) (regField r2) (regField r3)
  | .fdiv fpSize simd nonIeee r1 r2 r3 =>
      packR3 .fdiv (flags6 fpSize simd nonIeee false false)
        (regField r1) (regField r2) (regField r3)
  | .int2f fpSize simd nonIeee rounding r1 r2 =>
      packR2 .fconv (fconvLow fpSize false simd nonIeee rounding) (regField r1) (regField r2)
  | .f2int fpSize simd nonIeee rounding r1 r2 =>
      packR2 .fconv (fconvLow fpSize true simd nonIeee rounding) (regField r1) (regField r2)
  | .finv fpSize simd nonIeee r1 r2 =>
      packR2 .finv (fpLow fpSize simd nonIeee) (regField r1) (regField r2)
  | .fsqrt fpSize simd nonIeee r1 r2 =>
      packR2 .fsqrt (fpLow fpSize simd nonIeee) (regField r1) (regField r2)
  | .finvsqrt fpSize simd nonIeee r1 r2 =>
      packR2 .finvsqrt (fpLow fpSize simd nonIeee) (regField r1) (regField r2)
  | .bitrev r1 r2 r3 => packR3 .bitrev 0 (regField r1) (regField r2) (regField r3)
  | .bitrevi imm6 r1 r2 => packR3 .bitrevi 0 imm6 (regField r1) (regField r2)
  | .byterev size r1 r2 =>
      packR2 .byterev (byterevLow (sizeCode size)) (regField r1) (regField r2)
  | .load size endian r1 r2 r3 =>
      packR3 .load (flags6 (sizeCode size) (endianCode endian) false false false)
        (regField r1) (regField r2) (regField r3)
  | .store size endian r1 r2 r3 =>
      packR3 .store (flags6 (sizeCode size) (endianCode endian) false false false)
        (regField r1) (regField r2) (regField r3)
  | .mov size mode r1 r2 r3 =>
      packR3 .mov (movFlags (highModeCode mode) (sizeCode size))
        (regField r1) (regField r2) (regField r3)
  | .loadcons shift imm16 r1 => packI16 .loadcons (BitVec.ofFin shift) imm16 (regField r1)
  | .loadconsx shift imm16 r1 => packI16 .loadconsx (BitVec.ofFin shift) imm16 (regField r1)
  | .cachemm size fp lock level r1 r2 =>
      packR2 .cachemm (cachemmLow (memLevelCode level) (sizeCode size) fp lock)
        (regField r1) (regField r2)
  | .loadi size endian imm9 r1 r2 =>
      packI9 .loadi (loadiFlags (endianCode endian) (sizeCode size)) imm9 (regField r1) (regField r2)
  | .storei size endian imm9 r1 r2 =>
      packI9 .storei (loadiFlags (endianCode endian) (sizeCode size)) imm9 (regField r1) (regField r2)
  | .get r1 r2 => packR2 .get 0 (regField r1) (regField r2)
  | .put r1 r2 => packR2 .put 0 (regField r1) (regField r2)
  | .geti imm16 r1 => packI16 .geti 0 imm16 (regField r1)
  | .puti imm16 r1 => packI16 .puti 0 imm16 (regField r1)
  | .jmpa negate test r1 r2 =>
      packR2 .jmpa (jmpaLow negate (bitTestFlags test).1 (bitTestFlags test).2) (regField r1) (regField r2)
  | .loadaddr imm18 r1 => packI18 .loadaddr imm18 (regField r1)
  | .loopentry r1 => packI18 .loopentry 0 (regField r1)
  | .loop r1 r2 => packR2 .loop 0 (regField r1) (regField r2)
  | .jmpi imm12 r1 r2 => packR2 .jmpi imm12 (regField r1) (regField r2)
  | .jmpr imm18 r1 => packI18 .jmpr imm18 (regField r1)
  | .syscall imm18 r1 => packI18 .systrap imm18 (regField r1)
  | .trap imm18 r1 => packI18 .systrap imm18 (regField r1)
  | .halt imm18 r1 => packI18 .halt imm18 (regField r1)
  | .rfe imm18 r1 => packI18 .rfe imm18 (regField r1)

/-- The bytes of an instruction, lowest address first. -/
def encodeBytes (i : Instr) : List Byte :=
  bytesOfWord (encode i)

end Sys2Proof
end

