-- ==== Sys2Proof/Machine/State.lean ====
section
/-!
DEFINITION. The state of the machine (10_state.md R20), the exceptions it raises (60_exceptions.md R304),
the refusals (R320, part R of 93_implementation_defined.md) and the state after reset (R43, R340).
-/

namespace Sys2Proof.Machine

/-- Memory (R50): the bytes that exist, as pairs of an address and a byte, addresses strictly rising. An
address that is not listed does not exist, so no entry can equal what an unlisted address reads as. -/
abbrev Memory := List Host.Cell

/-- The run state (R42). -/
inductive RunState where
  | running
  | halted
deriving DecidableEq, Repr

/-- The special registers (R31 to R37). `SR_ER` and `SR_ENT` are held although in the decided trap model
nothing writes them and every read of them is a `Draw` (R245, R312). The written marks are the model's own:
a register that no put has written reads as a `Draw` (R245, log 4). -/
structure SpecialRegs where
  /-- `SR_OPC`, "Old Program Counter", RW (R31) -/
  opc : Word
  /-- `SR_OMSW`, "Old Machine Status Word", RW (R32) -/
  omsw : Word
  /-- `SR_EV`, "Exception Vector", RW (R34) -/
  ev : Word
  /-- `SR_TMP`, "Temporary", RW (R35) -/
  tmp : Word
  /-- `SR_ER`, "Exception Reason", R (R36) -/
  er : Word
  /-- `SR_ENT`, "Exception Number/Type", R (R37) -/
  ent : Word
  opcWritten : Bool
  omswWritten : Bool
  evWritten : Bool
  tmpWritten : Bool
deriving DecidableEq, Repr

/-- The ten event counters, all read-only (R39). The model counts nothing and every read of one is a
`Draw` (R332), so nothing reads or writes these fields. -/
structure EventCounters where
  cycles : Word
  countdown : Word
  instr : Word
  pageFault : Word
  trap : Word
  fpuTrap : Word
  cache : Word
  branch : Word
  bubble : Word
  tlb : Word
deriving DecidableEq, Repr

/-- The state of the machine (R20). -/
structure State where
  /-- `x[0]` to `x[63]` (R21). The slot of `x[0]` is never read or written (R22). -/
  regs : Vector Word 64
  /-- The model's own: which general registers an instruction has written since reset (R43, log 3). -/
  written : Vector Bool 64
  /-- The program counter (R25). -/
  pc : Word
  /-- The machine status word, opaque: nothing reads or writes it (R33, R330). -/
  msw : Word
  /-- The special registers (R31 to R37). -/
  sr : SpecialRegs
  /-- `Processor ID`, read-only (R38). -/
  procId : Word
  /-- The event counters (R39). -/
  counters : EventCounters
  /-- Memory (R50). -/
  mem : Memory
  /-- The addresses that a store of this run has written (R66), strictly rising. -/
  storedTo : List Nat
  /-- The run state (R42). -/
  run : RunState
  /-- The model's own: the number of draws so far, which makes each `Draw` a fresh value (R10, log 8). -/
  draws : Nat
deriving DecidableEq, Repr

/-- The exceptions (R304): the type and reason of each are `Fault.type` and `Fault.reason` in Ops.lean. In
the decided trap model an exception ends the run with its type and reason and the state as before the
instruction (R312), so each is a fault of the step. Safe: no claim about handler code can be proved. -/
inductive Fault where
  /-- Reason 1. Never raised: the model delivers no interrupt (R306). -/
  | externalInterrupt
  /-- Reason 2. Raised by an unassigned opcode (R98) and by a floating-point opcode at level 0 (R191). Safe. -/
  | illegalOpcode
  /-- Reason 3. Raised by a reserved bit or field value (R97). Safe. -/
  | malformedInstruction
  /-- Reason 4. Never raised: the model has one mode, in which every instruction is permitted (R330). -/
  | privilegeViolation
  /-- Reason 5. Raised by div, divi, mod, modi for a zero divisor (R127, R131, R132, R133). Safe. -/
  | integerDivideByZero
  /-- Reason 6. Never raised at `FP_LEVEL` 0 (R190). -/
  | fpDivideByZero
  /-- Reason 7. Never raised at `FP_LEVEL` 0 (R190). -/
  | fpInfMinusInf
  /-- Reason 8. Never raised at `FP_LEVEL` 0 (R190). -/
  | fpInfOverInf
  /-- Reason 9. Never raised at `FP_LEVEL` 0 (R190). -/
  | fpZeroOverZero
  /-- Reason 10. Never raised at `FP_LEVEL` 0 (R190). -/
  | fpZeroTimesInf
  /-- Reason 11. Never raised at `FP_LEVEL` 0 (R190). -/
  | fpSqrtOfNegative
  /-- Reason 12. Raised by a fetch or a data access that touches an address not in memory (R50, R59). Safe. -/
  | memoryException
  /-- Type 5, no reason. Raised by syscall and trap (R281). Safe. -/
  | syscall
deriving DecidableEq, Repr

/-- The refusals (R320): situations to which the spec assigns no behaviour; the comment names the entry of
part R of 93_implementation_defined.md. All are safe: a claim holds only of runs that reach none. -/
inductive Refusal where
  /-- Raised by an arm of `exec` for an instruction that has no meaning yet. Safe. -/
  | notModelled (mnemonic : String)
  /-- X1: fetch of a byte that a store of this run has written (R66). Safe. -/
  | fetchOfStoredByte
  /-- X2: mix (R168). Safe. -/
  | mixSemanticsLost
  /-- X3: expand (R169). Safe. -/
  | expandSemanticsLost
  /-- X4: loop (R266). Safe. -/
  | loopSemanticsLost
  /-- X5: rfe (R284). Safe. -/
  | returnSequenceLost
  /-- X6: add with saturation and carry, sub with floor and borrow (R135). Safe. -/
  | clampWithSecondResult
  /-- X7: a 2r2w form with destination r63 (R23). Safe. -/
  | secondDestinationAboveR63
  /-- X8: loadi or storei with imm9 above 255 (R228, R229). Safe. -/
  | imm9Above255
  /-- X9: jmpi with imm12 above 2047 (R267). Safe. -/
  | imm12Above2047
  /-- X10: a listed floating-point instruction at a level above 0 (R191); never at `FP_LEVEL` 0. Safe. -/
  | fpResultNotDefined
  /-- X11: syscall, trap, halt or rfe whose register operand holds 0 (R280). Safe. -/
  | optionalOperandZero
  /-- X12: an internal register index that is not populated (R245, R246). Safe. -/
  | indexNotPopulated
  /-- X13: put or puti to a read-only internal register (R246). Safe. -/
  | putToReadOnly
  /-- X14: a data access whose address is not a multiple of its width (R57). Safe. -/
  | misalignedData
  /-- X15: a taken jump whose target is not a multiple of 4 (R27). Safe. -/
  | misalignedTarget
  /-- Not of part R: an exception under `TRAP_MODEL` = `vectored`, whose entry sequence is lost (R312, R316).
  Never raised in the decided model, whose `TRAP_MODEL` is `fault_stop`. Safe. -/
  | vectoredEntryLost
deriving DecidableEq, Repr

/-- The outcome of a step or of an instruction (R322). -/
abbrev Outcome := Host.Outcome State Fault Refusal

/-- The special registers after reset: the spec states no value. DESIGN CHOICE (log 4), unsafe only where a
statement reads the stored value of a register that has no written mark. -/
def SpecialRegs.reset : SpecialRegs :=
  { opc := 0, omsw := 0, ev := 0, tmp := 0, er := 0, ent := 0,
    opcWritten := false, omswWritten := false, evWritten := false, tmpWritten := false }

/-- The counters after reset: the spec states no value. DESIGN CHOICE (log 7). -/
def EventCounters.reset : EventCounters :=
  { cycles := 0, countdown := 0, instr := 0, pageFault := 0, trap := 0, fpuTrap := 0, cache := 0,
    branch := 0, bubble := 0, tlb := 0 }

/-- The machine right after reset (R43, R340): `pc` = `RESET_PC`, running, no register written, memory the
launch memory. Stored register values: DESIGN CHOICE (logs 2 to 8). -/
def State.reset : State :=
  { regs := Vector.replicate 64 0
    written := Vector.replicate 64 false
    pc := Config.resetPc
    msw := 0
    sr := SpecialRegs.reset
    procId := Config.procId
    counters := EventCounters.reset
    mem := Config.launchMemory
    storedTo := []
    run := .running
    draws := 0 }

end Sys2Proof.Machine
end

