-- ==== Sys2Proof/Machine/Ops.lean ====
section
/-!
DEFINITION. The named operations of the machine: memory, general registers, internal registers, the program
counter, taking an exception and returning from one, and the fetch.
-/

namespace Sys2Proof.Machine

/-! ### Memory (20_memory.md) -/

/-- Whether addresses rise strictly from above `low` and stay below 2^64. -/
def risingFrom : Nat → List Nat → Bool
  | _, [] => true
  | low, a :: rest => decide (low ≤ a) && decide (a < 2 ^ 64) && risingFrom (a + 1) rest

/-- The canonical form of a memory: addresses strictly rising, each a 64-bit address. -/
def Memory.wf (m : Memory) : Bool :=
  risingFrom 0 (m.map Prod.fst)

/-- The byte at an address; none where the address does not exist (R50). This is the one definition of what
an unlisted address reads as (log 1). -/
def Memory.byteAt : Memory → Nat → Option Byte
  | [], _ => none
  | (a, v) :: rest, b => if a = b then some v else Memory.byteAt rest b

/-- The memory with the byte at an address set; an address that did not exist comes to exist. -/
def Memory.put : Memory → Nat → Byte → Memory
  | [], b, v => [(b, v)]
  | (a, x) :: rest, b, v =>
    if b < a then (b, v) :: (a, x) :: rest
    else if b = a then (b, v) :: rest
    else (a, x) :: Memory.put rest b v

/-- A strictly rising list of addresses with one more address. -/
def insertAddress : List Nat → Nat → List Nat
  | [], b => [b]
  | a :: rest, b =>
    if b < a then b :: a :: rest
    else if b = a then a :: rest
    else a :: insertAddress rest b

/-- The address of byte k of an access at `a`, modulo 2^64 (R50, D34). -/
def byteAddress (a : Word) (k : Nat) : Nat :=
  (a + BitVec.ofNat 64 k).toNat

/-- The addresses that an access to `count` bytes at `a` touches (R50). -/
def touched (a : Word) (count : Nat) : List Nat :=
  (List.range count).map (byteAddress a)

/-- The bytes at a list of addresses; none where one of them does not exist (R50). -/
def Memory.bytesAt (m : Memory) : List Nat → Option (List Byte)
  | [] => some []
  | a :: rest =>
    match Memory.byteAt m a, Memory.bytesAt m rest with
    | some v, some vs => some (v :: vs)
    | _, _ => none

/-- `MemRead(a, n, e)` (R52) of an n-bit access, n the size's width; none where an address does not exist. -/
def Memory.read (m : Memory) (a : Word) (size : Size) (e : Endian) : Option (BitVec (sizeBits size)) :=
  (Memory.bytesAt m (touched a (sizeBytes size))).map fun bytes =>
    BitVec.ofNat (sizeBits size) (numberOfBytes (inOrder e bytes))

/-- The memory with bytes put at a list of addresses. -/
def Memory.putAll (m : Memory) : List Nat → List Byte → Memory
  | a :: as, v :: vs => Memory.putAll (Memory.put m a v) as vs
  | _, _ => m

/-- `MemWrite(a, n, e, v)` (R53): the low n bits of `v`; none where an address does not exist (R50). -/
def Memory.write (m : Memory) (a : Word) (size : Size) (e : Endian) (v : Word) : Option Memory :=
  match Memory.bytesAt m (touched a (sizeBytes size)) with
  | none => none
  | some _ =>
    some (Memory.putAll m (touched a (sizeBytes size))
      (inOrder e (bytesOfNumber (sizeBytes size) v.toNat)))

/-- Whether an address is a multiple of an access width (R57). -/
def aligned (a : Word) (bytes : Nat) : Bool :=
  a.toNat % bytes == 0

/-- The next lower multiple of an access width. -/
def lowBitsCleared (a : Word) (bytes : Nat) : Word :=
  a - BitVec.ofNat 64 (a.toNat % bytes)

/-! ### General registers (10_state.md R21 to R24) -/

/-- `x[r]` as an operand (R10): 0 for r0 (R22), the register's value if an instruction has written it, else
the `Draw` of this read (R43, D10; log 3). `site` says which operand of the instruction reads it. -/
def State.readReg (s : State) (site : Config.DrawSite) (r : Reg) : Word :=
  if r = 0 then 0
  else if s.written[r] then s.regs[r]
  else Config.draw s.draws site

/-- `x[r] <- v` (R10): discarded for r0, which never changes (R22), else the register holds `v`. Whether an
instruction that names r0 as its destination comes to run at all is `R0_WRITE` (D9), in `rejectsR0`. -/
def State.writeReg (s : State) (r : Reg) (v : Word) : State :=
  { s with
    regs := if r = 0 then s.regs else s.regs.set r v
    written := if r = 0 then s.written else s.written.set r true }

/-- `dest2(d)` (R23): d + 1, none for r63 (`DEST2`). -/
def dest2 (d : Reg) : Option Reg :=
  Config.dest2 d

/-- The `Draw` of this instruction at a site (R10). -/
def State.drawAt (s : State) (site : Config.DrawSite) : Word :=
  Config.draw s.draws site

/-! ### The program counter and the end of an instruction (10_state.md R25 to R27) -/

/-- `pc <- pc + 4`, modulo 2^64 (R26, R27). The next instruction draws afresh. -/
def State.advance (s : State) : State :=
  { s with pc := s.pc + 4, draws := s.draws + 1 }

/-- `pc <- t` (R10). The next instruction draws afresh. -/
def State.goto (s : State) (t : Word) : State :=
  { s with pc := t, draws := s.draws + 1 }

/-- The normal end of an instruction that is no taken jump (R26). -/
def complete (s : State) : Outcome :=
  .next s.advance

/-- A taken jump (R27, R260): a target that is not a multiple of 4 is refused (`MISALIGNED_PC`, D15). -/
def jumpTo (s : State) (t : Word) : Outcome :=
  if aligned t 4 then .next (s.goto t)
  else
    match Config.misalignedPc with
    | .refused => .refused .misalignedTarget
    | .lowBitsIgnored => .next (s.goto (lowBitsCleared t 4))

/-- A jump that is taken if its condition holds (R260); a jump not taken does not check its target. -/
def jumpIf (s : State) (cond : Bool) (t : Word) : Outcome :=
  if cond then jumpTo s t else complete s

/-! ### Exceptions (60_exceptions.md) -/

/-- The type of an exception (R301, R304). -/
def Fault.type : Fault → Nat
  | .externalInterrupt => 2
  | .privilegeViolation => 3
  | .memoryException => 4
  | .syscall => 5
  | .illegalOpcode | .malformedInstruction | .integerDivideByZero | .fpDivideByZero | .fpInfMinusInf
  | .fpInfOverInf | .fpZeroOverZero | .fpZeroTimesInf | .fpSqrtOfNegative => 1

/-- The reason code of an exception (R302, R304); the syscall exception has none. -/
def Fault.reason : Fault → Option Nat
  | .externalInterrupt => some 1
  | .illegalOpcode => some 2
  | .malformedInstruction => some 3
  | .privilegeViolation => some 4
  | .integerDivideByZero => some 5
  | .fpDivideByZero => some 6
  | .fpInfMinusInf => some 7
  | .fpInfOverInf => some 8
  | .fpZeroOverZero => some 9
  | .fpZeroTimesInf => some 10
  | .fpSqrtOfNegative => some 11
  | .memoryException => some 12
  | .syscall => none

/-- Taking an exception, `raise E(r)` (R310, R312), `TRAP_MODEL` = `fault_stop`: the instruction is
abandoned and the run ends with the exception as its outcome. The state of that outcome is the state before
the instruction, which the caller of the step has: no register, memory byte or `pc` changes, `SR_OPC`,
`SR_OMSW`, `SR_ER` and `SR_ENT` are not written and `SR_EV` is not read (log 21). The other reading,
`vectored`, has no decided entry sequence: R316 leaves its steps open and bars it from proofs. -/
def raise (e : Fault) : Outcome :=
  match Config.trapModel with
  | .faultStop => .fault e
  | .vectored => .refused .vectoredEntryLost

/-- The return from an exception (R284, R318): the return sequence is lost, so the spec refuses it. -/
def returnFromException : Outcome :=
  .refused .returnSequenceLost

/-- What a word that decodes to no instruction raises (R96 to R98). -/
def raiseReject : Reject → Outcome
  | .illegalOpcode => raise .illegalOpcode
  | .malformed => raise .malformedInstruction
  | .truncated => raise .memoryException

/-! ### Data accesses (44_load_store_move.md R212) -/

/-- The destination's value after a load of an n-bit value (R210, R228), the bits above n from `high`. -/
def loadValue (size : Size) (high : Word) (v : BitVec (sizeBits size)) : Word :=
  himerge (sizeBits size) high v

/-- Step (4) of R212: the access takes place at an address that is a multiple of its width; at another one
it is refused (`MISALIGNED_DATA`, R57, D14). -/
def accessAt (ea : Word) (bytes : Nat) (access : Word → Outcome) : Outcome :=
  if aligned ea bytes then access ea
  else
    match Config.misalignedData with
    | .refused => .refused .misalignedData
    | .memoryException => raise .memoryException
    | .split => access ea
    | .lowBitsIgnored => access (lowBitsCleared ea bytes)

/-- What the destination of a load holds above the loaded value (`LOAD_HIGH`, R210, D30). -/
def loadHighBits (s : State) (size : Size) (d : Reg) (v : BitVec (sizeBits size)) : Word :=
  match Config.loadHigh with
  | .anyValue => s.drawAt .highBits
  | .unchanged => s.readReg .dest d
  | .zeros => 0
  | .sign => v.signExtend 64

/-- Steps (4) to (7) of R212 for a load. -/
def loadFrom (s : State) (size : Size) (e : Endian) (ea : Word) (d : Reg) : Outcome :=
  accessAt ea (sizeBytes size) fun a =>
    match Memory.read s.mem a size e with
    | none => raise .memoryException
    | some v => complete (s.writeReg d (loadValue size (loadHighBits s size d v) v))

/-- The state with a new memory in which a store has written the given addresses (R66). -/
def State.stored (s : State) (m : Memory) (addresses : List Nat) : State :=
  { s with mem := m, storedTo := addresses.foldl insertAddress s.storedTo }

/-- Steps (4) to (6) of R212 for a store. -/
def storeTo (s : State) (size : Size) (e : Endian) (ea : Word) (v : Word) : Outcome :=
  accessAt ea (sizeBytes size) fun a =>
    match Memory.write s.mem a size e v with
    | none => raise .memoryException
    | some m => complete (s.stored m (touched a (sizeBytes size)))

/-! ### Internal registers (45_internal_registers.md R240, R245, R246) -/

/-- The internal register of a 64-bit index, none where the index is not populated (R240). -/
def iregAt (i : Word) : Option IReg :=
  Config.iregs.find? fun n => (Config.irIndex n).setWidth 64 == i

/-- The value that a read of an internal register gives (R245): a register that a put has written gives its
value, `Processor ID` its constant, every other read is a `Draw`. -/
def State.iregValue (s : State) (n : IReg) : Word :=
  match n with
  | .srOpc => if s.sr.opcWritten then s.sr.opc else s.drawAt .internal
  | .srOmsw => if s.sr.omswWritten then s.sr.omsw else s.drawAt .internal
  | .srEv => if s.sr.evWritten then s.sr.ev else s.drawAt .internal
  | .srTmp => if s.sr.tmpWritten then s.sr.tmp else s.drawAt .internal
  | .procId => s.procId
  | .srEr | .srEnt => s.drawAt .internal
  | .cntCycles | .cntCountdown | .cntInstr | .cntPageFault | .cntTrap | .cntFpuTrap | .cntCache
  | .cntBranch | .cntBubble | .cntTlb => s.drawAt .internal

/-- The special registers with one of the RW ones written (R246); none for a register whose access is "R". -/
def SpecialRegs.write (sr : SpecialRegs) (n : IReg) (v : Word) : Option SpecialRegs :=
  match n with
  | .srOpc => some { sr with opc := v, opcWritten := true }
  | .srOmsw => some { sr with omsw := v, omswWritten := true }
  | .srEv => some { sr with ev := v, evWritten := true }
  | .srTmp => some { sr with tmp := v, tmpWritten := true }
  | .srEr | .srEnt | .procId | .cntCycles | .cntCountdown | .cntInstr | .cntPageFault | .cntTrap
  | .cntFpuTrap | .cntCache | .cntBranch | .cntBubble | .cntTlb => none

/-- The state with new special registers. -/
def State.withSpecial (s : State) (sr : SpecialRegs) : State :=
  { s with sr := sr }

/-- `x[d] <- IRRead(i)` (R245). -/
def getInternal (s : State) (i : Word) (d : Reg) : Outcome :=
  match iregAt i with
  | none => .refused .indexNotPopulated
  | some n => complete (s.writeReg d (s.iregValue n))

/-- `IRWrite(i, v)` (R246). -/
def putInternal (s : State) (i v : Word) : Outcome :=
  match iregAt i with
  | none => .refused .indexNotPopulated
  | some n =>
    match s.sr.write n v with
    | none => .refused .putToReadOnly
    | some sr => complete (s.withSpecial sr)

/-! ### Fetch (20_memory.md R59, R66) -/

/-- Whether a byte of the instruction at `pc` was written by a store of this run (R66). -/
def State.fetchStored (s : State) : Bool :=
  (touched s.pc 4).any fun a => s.storedTo.contains a

/-- What the fetch and decode at `pc` give (R59, R96), in the order of R308: a refusal, an exception or the
instruction. -/
inductive Fetched where
  | storedByte
  | noMemory
  | rejected (r : Reject)
  | instruction (i : Instr)
deriving DecidableEq, Repr

/-- Fetch and decode at `pc`. -/
def State.fetch (s : State) : Fetched :=
  if s.fetchStored then .storedByte
  else
    match Memory.bytesAt s.mem (touched s.pc 4) with
    | none => .noMemory
    | some bytes =>
      match decode bytes with
      | .error r => .rejected r
      | .ok i => .instruction i

/-- The state in which an instruction word stands where the next step fetches it: its four bytes at `pc`
(R55), no store mark on them, the processor running. It stands for the load of a program from outside the
machine (log 1). -/
def State.placeWord (s : State) (w : Insn) : State :=
  { s with
    mem := Memory.putAll s.mem (touched s.pc 4) (bytesOfWord w)
    storedTo := s.storedTo.filter fun a => !(touched s.pc 4).contains a
    run := .running }

end Sys2Proof.Machine
end

