-- ==== Sys2Proof/Machine/Arithmetic.lean ====
section
/-!
DEFINITION. Integer arithmetic (40_integer_arithmetic.md): add, sub, mul, div, addi, subi, muli, divi, mod,
modi.
-/

namespace Sys2Proof.Machine

/-- The end of a three-register form (R121, R122): the first results go to `d`, and if `second` is set the
second results go to `dest2(d)`; `f k` is the pair of results of lane k and `src` the first source. A
second destination above r63 is refused (R23). -/
def writeResults (s : State) (size : Size) (simd second : Bool) (src : Word) (d : Reg)
    (f : Nat → BitVec (sizeBits size) × BitVec (sizeBits size)) : Outcome :=
  let n := sizeBits size
  let first := s.writeReg d (firstResult n simd src (s.readReg .dest d) fun k => (f k).1)
  if second then
    match dest2 d with
    | none => .refused .secondDestinationAboveR63
    | some d2 =>
      complete (first.writeReg d2 (secondResult n simd (s.drawAt .highBits) fun k => (f k).2))
  else complete first

/-- Whether a 2r2w form names a second destination that does not exist (R23), tested before the operands
are read (R308). -/
def noSecondDest (second : Bool) (d : Reg) : Bool :=
  second && (dest2 d).isNone

/-- `add` (R124, R135). -/
def execAdd (size : Size) (simd saturate carry : Bool) (r1 r2 r3 : Reg) (s : State) : Outcome :=
  if saturate && carry then .refused .clampWithSecondResult
  else
    let n := sizeBits size
    let a := s.readReg .reg1 r1
    let b := s.readReg .reg2 r2
    writeResults s size simd carry a r3 fun k => addLane n saturate (lane n a k) (lane n b k)

/-- `sub` (R125, R135). -/
def execSub (size : Size) (simd floor borrow : Bool) (r1 r2 r3 : Reg) (s : State) : Outcome :=
  if floor && borrow then .refused .clampWithSecondResult
  else
    let n := sizeBits size
    let a := s.readReg .reg1 r1
    let b := s.readReg .reg2 r2
    writeResults s size simd borrow a r3 fun k => subLane n floor (lane n a k) (lane n b k)

/-- `mul` (R126). -/
def execMul (size : Size) (simd signed high : Bool) (r1 r2 r3 : Reg) (s : State) : Outcome :=
  let n := sizeBits size
  let a := s.readReg .reg1 r1
  let b := s.readReg .reg2 r2
  writeResults s size simd high a r3 fun k => mulLane n signed (lane n a k) (lane n b k)

/-- `div` (R127, D44). The refusal of a second destination above r63 comes before the test of the divisor
(R308). -/
def execDiv (size : Size) (simd signed modulo : Bool) (r1 r2 r3 : Reg) (s : State) : Outcome :=
  let n := sizeBits size
  let a := s.readReg .reg1 r1
  let b := s.readReg .reg2 r2
  if noSecondDest modulo r3 then .refused .secondDestinationAboveR63
  else if anyLane n simd b fun x => x == 0 then raise .integerDivideByZero
  else writeResults s size simd modulo a r3 fun k => divLane n signed (lane n a k) (lane n b k)

/-- `addi` (R128). -/
def execAddi (size : Size) (simd : Bool) (imm8 : BitVec 8) (r1 r2 : Reg) (s : State) : Outcome :=
  let n := sizeBits size
  let a := s.readReg .reg1 r1
  writeResults s size simd false a r2 fun k => (lane n a k + ext8 imm8 n, 0)

/-- `subi` (R129). -/
def execSubi (size : Size) (simd : Bool) (imm8 : BitVec 8) (r1 r2 : Reg) (s : State) : Outcome :=
  let n := sizeBits size
  let a := s.readReg .reg1 r1
  writeResults s size simd false a r2 fun k => (lane n a k - ext8 imm8 n, 0)

/-- `muli` (R130). -/
def execMuli (size : Size) (simd : Bool) (imm8 : BitVec 8) (r1 r2 : Reg) (s : State) : Outcome :=
  let n := sizeBits size
  let a := s.readReg .reg1 r1
  writeResults s size simd false a r2 fun k => (lane n a k * ext8 imm8 n, 0)

/-- `divi` (R131): the signedness is not stated, so only operands with a clear top bit are exact. -/
def execDivi (size : Size) (simd : Bool) (imm8 : BitVec 8) (r1 r2 : Reg) (s : State) : Outcome :=
  let n := sizeBits size
  let a := s.readReg .reg1 r1
  if imm8 == 0 then raise .integerDivideByZero
  else writeResults s size simd false a r2 fun k => ((divLane n true (lane n a k) (ext8 imm8 n)).1, 0)

/-- `mod` (R132, D44). -/
def execMod (size : Size) (simd : Bool) (r1 r2 r3 : Reg) (s : State) : Outcome :=
  let n := sizeBits size
  let a := s.readReg .reg1 r1
  let b := s.readReg .reg2 r2
  if anyLane n simd b fun x => x == 0 then raise .integerDivideByZero
  else writeResults s size simd false a r3 fun k => ((divLane n true (lane n a k) (lane n b k)).2, 0)

/-- `modi` (R133, D44). -/
def execModi (size : Size) (simd : Bool) (imm8 : BitVec 8) (r1 r2 : Reg) (s : State) : Outcome :=
  let n := sizeBits size
  let a := s.readReg .reg1 r1
  if imm8 == 0 then raise .integerDivideByZero
  else writeResults s size simd false a r2 fun k => (modiLane n (lane n a k) imm8, 0)

end Sys2Proof.Machine
end

