-- ==== Sys2Proof/Machine/Control.lean ====
section
/-!
DEFINITION. Control transfer (46_control_transfer.md): jmpa, loadaddr, loopentry, loop, jmpi, jmpr.
-/

namespace Sys2Proof.Machine

/-- `jmpa` (R262). -/
def execJmpa (negate : Bool) (test : BitTest) (r1 r2 : Reg) (s : State) : Outcome :=
  jumpIf s (jmpaCondition negate test (s.readReg .reg1 r1)) (s.readReg .reg2 r2)

/-- `loadaddr` (R263): a signed byte offset from the instruction's own address. -/
def execLoadaddr (imm18 : BitVec 18) (r1 : Reg) (s : State) : Outcome :=
  complete (s.writeReg r1 (pcBase s.pc + imm18.signExtend 64))

/-- `loopentry` (R264): the address of the next instruction. -/
def execLoopentry (r1 : Reg) (s : State) : Outcome :=
  complete (s.writeReg r1 (pcBase s.pc + 4))

/-- `loop` (R266): the list of what it does is lost, and the spec refuses it (D27). -/
def execLoop (_r1 _r2 : Reg) (_s : State) : Outcome :=
  .refused .loopSemanticsLost

/-- `jmpi` (R267): imm12 above 2047 is refused (D21). -/
def execJmpi (imm12 : BitVec 12) (r1 r2 : Reg) (s : State) : Outcome :=
  if 2047 < imm12.toNat then .refused .imm12Above2047
  else jumpIf s (nonNil (s.readReg .reg1 r1)) (s.readReg .reg2 r2 + 4 * imm12.setWidth 64)

/-- `jmpr` (R268): a signed offset in instructions, and no check of the target. -/
def execJmpr (imm18 : BitVec 18) (r1 : Reg) (s : State) : Outcome :=
  if nonNil (s.readReg .reg1 r1) then .next (s.goto (pcBase s.pc + (imm18.signExtend 64 <<< 2)))
  else complete s

end Sys2Proof.Machine
end

