-- ==== Sys2Proof/Machine/FloatingPoint.lean ====
section
/-!
DEFINITION. Floating point (42_floating_point.md). At `FP_LEVEL` 0, the level of the hardware in scope
(D26), every floating-point instruction raises `IllegalOpcode(2)`; at a level that lists the instruction the
spec refuses its result (R191).
-/

namespace Sys2Proof.Machine

/-- The treatment of a floating-point instruction (R191), before any register is read. -/
def fpOp (op : Op) : Outcome :=
  if implementedAt Config.fpLevel op then .refused .fpResultNotDefined else raise .illegalOpcode

/-- `fadd` (R182). -/
def execFadd (_fpSize : BitVec 2) (_simd _nonIeee : Bool) (_r1 _r2 _r3 : Reg) (_s : State) : Outcome :=
  fpOp .fadd

/-- `fsub` (R183). -/
def execFsub (_fpSize : BitVec 2) (_simd _nonIeee : Bool) (_r1 _r2 _r3 : Reg) (_s : State) : Outcome :=
  fpOp .fsub

/-- `fmul` (R184). -/
def execFmul (_fpSize : BitVec 2) (_simd _nonIeee : Bool) (_r1 _r2 _r3 : Reg) (_s : State) : Outcome :=
  fpOp .fmul

/-- `fdiv` (R185). -/
def execFdiv (_fpSize : BitVec 2) (_simd _nonIeee : Bool) (_r1 _r2 _r3 : Reg) (_s : State) : Outcome :=
  fpOp .fdiv

/-- `int2f` (R186). -/
def execInt2f (_fpSize : BitVec 2) (_simd _nonIeee : Bool) (_rounding : Rounding) (_r1 _r2 : Reg)
    (_s : State) : Outcome :=
  fpOp .fconv

/-- `f2int` (R186). -/
def execF2int (_fpSize : BitVec 2) (_simd _nonIeee : Bool) (_rounding : Rounding) (_r1 _r2 : Reg)
    (_s : State) : Outcome :=
  fpOp .fconv

/-- `finv` (R187). -/
def execFinv (_fpSize : BitVec 2) (_simd _nonIeee : Bool) (_r1 _r2 : Reg) (_s : State) : Outcome :=
  fpOp .finv

/-- `fsqrt` (R188). -/
def execFsqrt (_fpSize : BitVec 2) (_simd _nonIeee : Bool) (_r1 _r2 : Reg) (_s : State) : Outcome :=
  fpOp .fsqrt

/-- `finvsqrt` (R189). -/
def execFinvsqrt (_fpSize : BitVec 2) (_simd _nonIeee : Bool) (_r1 _r2 : Reg) (_s : State) : Outcome :=
  fpOp .finvsqrt

end Sys2Proof.Machine
end

