-- ==== Sys2Proof/Machine/Internal.lean ====
section
/-!
DEFINITION. Access to the internal registers (45_internal_registers.md): get, put, geti, puti.
-/

namespace Sys2Proof.Machine

/-- `get` (R241): the index is the whole value of r1. -/
def execGet (r1 r2 : Reg) (s : State) : Outcome :=
  getInternal s (s.readReg .reg1 r1) r2

/-- `put` (R242): r1 is the data, r2 the index. -/
def execPut (r1 r2 : Reg) (s : State) : Outcome :=
  putInternal s (s.readReg .reg2 r2) (s.readReg .reg1 r1)

/-- `geti` (R243): the index is imm16, zero-extended (R240). -/
def execGeti (imm16 : BitVec 16) (r1 : Reg) (s : State) : Outcome :=
  getInternal s (imm16.setWidth 64) r1

/-- `puti` (R244, `90_conflicts.md` C11). -/
def execPuti (imm16 : BitVec 16) (r1 : Reg) (s : State) : Outcome :=
  putInternal s (imm16.setWidth 64) (s.readReg .reg1 r1)

end Sys2Proof.Machine
end

