-- ==== Sys2Proof/Machine/LoadStore.lean ====
section
/-!
DEFINITION. Loads, stores, the conditional move, constants and cache management (44_load_store_move.md).
-/

namespace Sys2Proof.Machine

/-- `load` (R210, R212). -/
def execLoad (size : Size) (endian : Endian) (r1 r2 r3 : Reg) (s : State) : Outcome :=
  loadFrom s size endian (effectiveAddress size (s.readReg .reg1 r1) (s.readReg .reg2 r2)) r3

/-- `store` (R211, R212): r1 is the data, r2 the base, r3 the index. -/
def execStore (size : Size) (endian : Endian) (r1 r2 r3 : Reg) (s : State) : Outcome :=
  storeTo s size endian (effectiveAddress size (s.readReg .reg2 r2) (s.readReg .reg3 r3))
    (s.readReg .reg1 r1)

/-- `loadi` (R228): imm9 above 255 is refused (D21). -/
def execLoadi (size : Size) (endian : Endian) (imm9 : BitVec 9) (r1 r2 : Reg) (s : State) : Outcome :=
  if 255 < imm9.toNat then .refused .imm9Above255
  else loadFrom s size endian (effectiveAddress size (s.readReg .reg1 r1) (imm9.setWidth 64)) r2

/-- `storei` (R229): r1 is the data, r2 the base; imm9 above 255 is refused (D21). -/
def execStorei (size : Size) (endian : Endian) (imm9 : BitVec 9) (r1 r2 : Reg) (s : State) : Outcome :=
  if 255 < imm9.toNat then .refused .imm9Above255
  else storeTo s size endian (effectiveAddress size (s.readReg .reg2 r2) (imm9.setWidth 64))
    (s.readReg .reg1 r1)

/-- The value that mov writes (R215, R216), from the destination's old value and the source. -/
def movValue (size : Size) (mode : HighMode) (old src : Word) : Word :=
  let v := lane (sizeBits size) src 0
  match mode with
  | .keep => himerge (sizeBits size) old v
  | .zeroExtend => v.setWidth 64
  | .signExtend => v.signExtend 64

/-- `mov` (R215): the condition is r1 not zero, all 64 bits (D36); nothing is written where it fails. -/
def execMov (size : Size) (mode : HighMode) (r1 r2 r3 : Reg) (s : State) : Outcome :=
  if nonNil (s.readReg .reg1 r1) then
    complete (s.writeReg r3 (movValue size mode (s.readReg .dest r3) (s.readReg .reg2 r2)))
  else complete s

/-- The value that loadcons writes (R218): bits [16s+15 : 16s] replaced by imm16. -/
def loadconsValue (shift : Fin 4) (imm16 : BitVec 16) (old : Word) : Word :=
  let p := 16 * shift.val
  (old &&& ~~~((0xFFFF : Word) <<< p)) ||| (imm16.setWidth 64 <<< p)

/-- The value that loadconsx writes (R219): imm16 at bit 16s, its top bit above, the old bits below. -/
def loadconsxValue (shift : Fin 4) (imm16 : BitVec 16) (old : Word) : Word :=
  let p := 16 * shift.val
  (old &&& ~~~(BitVec.allOnes 64 <<< p)) ||| (imm16.signExtend 64 <<< p)

/-- `loadcons` (R218): r1 is read and written. -/
def execLoadcons (shift : Fin 4) (imm16 : BitVec 16) (r1 : Reg) (s : State) : Outcome :=
  complete (s.writeReg r1 (loadconsValue shift imm16 (s.readReg .reg1 r1)))

/-- `loadconsx` (R219): r1 is read and written; at shift 0 no bit of the old value survives. -/
def execLoadconsx (shift : Fin 4) (imm16 : BitVec 16) (r1 : Reg) (s : State) : Outcome :=
  complete (s.writeReg r1 (loadconsxValue shift imm16 (s.readReg .reg1 r1)))

/-- `cachemm` (R225, R67): no architectural state changes but `pc` (D18, log 30). -/
def execCachemm (_size : Size) (_fp _lock : Bool) (_level : MemLevel) (_r1 _r2 : Reg) (s : State) :
    Outcome :=
  complete s

end Sys2Proof.Machine
end

