-- ==== Sys2Proof/Machine/ShiftLogic.lean ====
section
/-!
DEFINITION. Shift, rotate, single-bit, bitwise logic, mix and expand (41_shift_logic.md), the aliases of
bitop (R165) and logic (R167) among them.
-/

namespace Sys2Proof.Machine

/-- The end of a sized operation on the low n bits of a source (R150): `w` below, the rest by `HIGH_PART`. -/
def writeLow (s : State) (size : Size) (src : Word) (d : Reg) (w : BitVec (sizeBits size)) : Outcome :=
  complete (s.writeReg d (mergeHigh (sizeBits size) src (s.readReg .dest d) w))

/-- `shift` (R152). -/
def execShift (size : Size) (right signed : Bool) (r1 r2 r3 : Reg) (s : State) : Outcome :=
  let n := sizeBits size
  let a := s.readReg .reg1 r1
  writeLow s size a r3 (shiftLane n right signed (lane n a 0) (s.readReg .reg2 r2))

/-- `rot` (R153). -/
def execRot (size : Size) (right : Bool) (r1 r2 r3 : Reg) (s : State) : Outcome :=
  let n := sizeBits size
  let a := s.readReg .reg1 r1
  writeLow s size a r3 (rotLane n right (lane n a 0) (s.readReg .reg2 r2).toNat)

/-- `shifti` (R154). -/
def execShifti (size : Size) (right signed : Bool) (imm6 : BitVec 6) (r1 r2 : Reg) (s : State) : Outcome :=
  let n := sizeBits size
  let a := s.readReg .reg1 r1
  writeLow s size a r2 (shiftLane n right signed (lane n a 0) (imm6.setWidth 64))

/-- `roti` (R155). -/
def execRoti (size : Size) (right : Bool) (imm6 : BitVec 6) (r1 r2 : Reg) (s : State) : Outcome :=
  let n := sizeBits size
  let a := s.readReg .reg1 r1
  writeLow s size a r2 (rotLane n right (lane n a 0) imm6.toNat)

/-- A single-bit operation from r1 to r2 (R164). -/
def bitOp (op : BitOperation) (imm6 : BitVec 6) (r1 r2 : Reg) (s : State) : Outcome :=
  complete (s.writeReg r2 (bitOperation op imm6 (s.readReg .reg1 r1)))

/-- `bitop` (R164). -/
def execBitop (op : BitOperation) (imm6 : BitVec 6) (r1 r2 : Reg) (s : State) : Outcome :=
  bitOp op imm6 r1 r2 s

/-- `bitset`, `bitop.s` (R165). -/
def execBitset (imm6 : BitVec 6) (r1 r2 : Reg) (s : State) : Outcome :=
  bitOp .set imm6 r1 r2 s

/-- `bclear`, `bitop.c` (R165). -/
def execBclear (imm6 : BitVec 6) (r1 r2 : Reg) (s : State) : Outcome :=
  bitOp .clear imm6 r1 r2 s

/-- `bchange`, `bitop.x` (R165). -/
def execBchange (imm6 : BitVec 6) (r1 r2 : Reg) (s : State) : Outcome :=
  bitOp .change imm6 r1 r2 s

/-- `btest`, `bitop.t` (R165). -/
def execBtest (imm6 : BitVec 6) (r1 r2 : Reg) (s : State) : Outcome :=
  bitOp .test imm6 r1 r2 s

/-- The logic function of a truth table from r1 and r2 to r3 (R166). -/
def logicOp (size : Size) (f00 f10 f01 f11 : Bool) (r1 r2 r3 : Reg) (s : State) : Outcome :=
  let n := sizeBits size
  let a := s.readReg .reg1 r1
  let b := s.readReg .reg2 r2
  writeLow s size a r3 (logicLane n f00 f10 f01 f11 (lane n a 0) (lane n b 0))

/-- `logic` (R166). -/
def execLogic (size : Size) (f00 f10 f01 f11 : Bool) (r1 r2 r3 : Reg) (s : State) : Outcome :=
  logicOp size f00 f10 f01 f11 r1 r2 r3 s

/-- `and`, `logic.0001` (R167). -/
def execAnd (size : Size) (r1 r2 r3 : Reg) (s : State) : Outcome :=
  logicOp size false false false true r1 r2 r3 s

/-- `xor`, `logic.0110` (R167). -/
def execXor (size : Size) (r1 r2 r3 : Reg) (s : State) : Outcome :=
  logicOp size false true true false r1 r2 r3 s

/-- `not`, `logic.1010` (R167). -/
def execNot (size : Size) (r1 r2 r3 : Reg) (s : State) : Outcome :=
  logicOp size true false true false r1 r2 r3 s

/-- `nor`, `logic.1000` (R167). -/
def execNor (size : Size) (r1 r2 r3 : Reg) (s : State) : Outcome :=
  logicOp size true false false false r1 r2 r3 s

/-- `nand`, `logic.1110` (R167). -/
def execNand (size : Size) (r1 r2 r3 : Reg) (s : State) : Outcome :=
  logicOp size true true true false r1 r2 r3 s

/-- `mix` (R168): "Mix r1 and r2 into r3." is all the source says, and the spec refuses it (D27). -/
def execMix (_part : Bool) (_r1 _r2 _r3 : Reg) (_s : State) : Outcome :=
  .refused .mixSemanticsLost

/-- `expand` (R169): "Expand r1 into r2." is all the source says, and the spec refuses it (D27). -/
def execExpand (_part : Bool) (_r1 _r2 : Reg) (_s : State) : Outcome :=
  .refused .expandSemanticsLost

end Sys2Proof.Machine
end

