-- ==== Sys2Proof/Machine/Reversal.lean ====
section
/-!
DEFINITION. Bit and byte reversal (43_bit_byte_reverse.md): bitrev, bitrevi, byterev.
-/

namespace Sys2Proof.Machine

/-- `bitrev` (R201). -/
def execBitrev (r1 r2 r3 : Reg) (s : State) : Outcome :=
  complete (s.writeReg r3 (reverseShift (s.readReg .reg1 r1) (s.readReg .reg2 r2)))

/-- `bitrevi` (R202). -/
def execBitrevi (imm6 : BitVec 6) (r1 r2 : Reg) (s : State) : Outcome :=
  complete (s.writeReg r2 (reverseShift (s.readReg .reg1 r1) (imm6.setWidth 64)))

/-- `byterev` (R203). -/
def execByterev (size : Size) (r1 r2 : Reg) (s : State) : Outcome :=
  let n := sizeBits size
  let a := s.readReg .reg1 r1
  writeLow s size a r2 (brev n (lane n a 0))

end Sys2Proof.Machine
end

