-- ==== Sys2Proof/Machine/System.lean ====
section
/-!
DEFINITION. System instructions (47_system.md): syscall, trap, halt, rfe.
-/

namespace Sys2Proof.Machine

/-- R280 (D23): an instruction with the optional operand `[r1,]` has its meaning only where r1 is not zero. -/
def withOperand (s : State) (r1 : Reg) (o : Outcome) : Outcome :=
  if nonNil (s.readReg .reg1 r1) then o else .refused .optionalOperandZero

/-- `syscall` (R281): raises the exception of type 5; the immediate is ignored by the hardware. -/
def execSyscall (_imm18 : BitVec 18) (r1 : Reg) (s : State) : Outcome :=
  withOperand s r1 (raise .syscall)

/-- `trap` (R281): the second name of `syscall`. -/
def execTrap (_imm18 : BitVec 18) (r1 : Reg) (s : State) : Outcome :=
  withOperand s r1 (raise .syscall)

/-- The run state `halted`; `pc` keeps the address of the halt instruction (R283, D24). -/
def State.halted (s : State) : State :=
  { s with run := .halted }

/-- `halt` (R283). -/
def execHalt (_imm18 : BitVec 18) (r1 : Reg) (s : State) : Outcome :=
  withOperand s r1 (.next s.halted)

/-- `rfe` (R284): refused after R280 (log 23). -/
def execRfe (_imm18 : BitVec 18) (r1 : Reg) (s : State) : Outcome :=
  withOperand s r1 returnFromException

end Sys2Proof.Machine
end

