-- ==== Sys2Proof/Machine/Dispatch.lean ====
section
/-!
DEFINITION. The dispatch: one arm per constructor of `Instr`, each one direct call of its meaning.
-/

namespace Sys2Proof.Machine

def exec (i : Instr) (s : State) : Host.Outcome State Fault Refusal :=
  match i with
  | .add size simd saturate carry r1 r2 r3 => Sys2Proof.Machine.execAdd size simd saturate carry r1 r2 r3 s
  | .sub size simd floor borrow r1 r2 r3 => Sys2Proof.Machine.execSub size simd floor borrow r1 r2 r3 s
  | .mul size simd signed high r1 r2 r3 => Sys2Proof.Machine.execMul size simd signed high r1 r2 r3 s
  | .div size simd signed modulo r1 r2 r3 => Sys2Proof.Machine.execDiv size simd signed modulo r1 r2 r3 s
  | .addi size simd imm8 r1 r2 => Sys2Proof.Machine.execAddi size simd imm8 r1 r2 s
  | .subi size simd imm8 r1 r2 => Sys2Proof.Machine.execSubi size simd imm8 r1 r2 s
  | .muli size simd imm8 r1 r2 => Sys2Proof.Machine.execMuli size simd imm8 r1 r2 s
  | .divi size simd imm8 r1 r2 => Sys2Proof.Machine.execDivi size simd imm8 r1 r2 s
  | .mod size simd r1 r2 r3 => Sys2Proof.Machine.execMod size simd r1 r2 r3 s
  | .modi size simd imm8 r1 r2 => Sys2Proof.Machine.execModi size simd imm8 r1 r2 s
  | .shift size right signed r1 r2 r3 => Sys2Proof.Machine.execShift size right signed r1 r2 r3 s
  | .rot size right r1 r2 r3 => Sys2Proof.Machine.execRot size right r1 r2 r3 s
  | .shifti size right signed imm6 r1 r2 => Sys2Proof.Machine.execShifti size right signed imm6 r1 r2 s
  | .roti size right imm6 r1 r2 => Sys2Proof.Machine.execRoti size right imm6 r1 r2 s
  | .bitop op imm6 r1 r2 => Sys2Proof.Machine.execBitop op imm6 r1 r2 s
  | .bitset imm6 r1 r2 => Sys2Proof.Machine.execBitset imm6 r1 r2 s
  | .bclear imm6 r1 r2 => Sys2Proof.Machine.execBclear imm6 r1 r2 s
  | .bchange imm6 r1 r2 => Sys2Proof.Machine.execBchange imm6 r1 r2 s
  | .btest imm6 r1 r2 => Sys2Proof.Machine.execBtest imm6 r1 r2 s
  | .logic size f00 f10 f01 f11 r1 r2 r3 => Sys2Proof.Machine.execLogic size f00 f10 f01 f11 r1 r2 r3 s
  | .and size r1 r2 r3 => Sys2Proof.Machine.execAnd size r1 r2 r3 s
  | .xor size r1 r2 r3 => Sys2Proof.Machine.execXor size r1 r2 r3 s
  | .not size r1 r2 r3 => Sys2Proof.Machine.execNot size r1 r2 r3 s
  | .nor size r1 r2 r3 => Sys2Proof.Machine.execNor size r1 r2 r3 s
  | .nand size r1 r2 r3 => Sys2Proof.Machine.execNand size r1 r2 r3 s
  | .mix part r1 r2 r3 => Sys2Proof.Machine.execMix part r1 r2 r3 s
  | .expand part r1 r2 => Sys2Proof.Machine.execExpand part r1 r2 s
  | .fadd fpSize simd nonIeee r1 r2 r3 => Sys2Proof.Machine.execFadd fpSize simd nonIeee r1 r2 r3 s
  | .fsub fpSize simd nonIeee r1 r2 r3 => Sys2Proof.Machine.execFsub fpSize simd nonIeee r1 r2 r3 s
  | .fmul fpSize simd nonIeee r1 r2 r3 => Sys2Proof.Machine.execFmul fpSize simd nonIeee r1 r2 r3 s
  | .fdiv fpSize simd nonIeee r1 r2 r3 => Sys2Proof.Machine.execFdiv fpSize simd nonIeee r1 r2 r3 s
  | .int2f fpSize simd nonIeee rounding r1 r2 => Sys2Proof.Machine.execInt2f fpSize simd nonIeee rounding r1 r2 s
  | .f2int fpSize simd nonIeee rounding r1 r2 => Sys2Proof.Machine.execF2int fpSize simd nonIeee rounding r1 r2 s
  | .finv fpSize simd nonIeee r1 r2 => Sys2Proof.Machine.execFinv fpSize simd nonIeee r1 r2 s
  | .fsqrt fpSize simd nonIeee r1 r2 => Sys2Proof.Machine.execFsqrt fpSize simd nonIeee r1 r2 s
  | .finvsqrt fpSize simd nonIeee r1 r2 => Sys2Proof.Machine.execFinvsqrt fpSize simd nonIeee r1 r2 s
  | .bitrev r1 r2 r3 => Sys2Proof.Machine.execBitrev r1 r2 r3 s
  | .bitrevi imm6 r1 r2 => Sys2Proof.Machine.execBitrevi imm6 r1 r2 s
  | .byterev size r1 r2 => Sys2Proof.Machine.execByterev size r1 r2 s
  | .load size endian r1 r2 r3 => Sys2Proof.Machine.execLoad size endian r1 r2 r3 s
  | .store size endian r1 r2 r3 => Sys2Proof.Machine.execStore size endian r1 r2 r3 s
  | .mov size mode r1 r2 r3 => Sys2Proof.Machine.execMov size mode r1 r2 r3 s
  | .loadcons shift imm16 r1 => Sys2Proof.Machine.execLoadcons shift imm16 r1 s
  | .loadconsx shift imm16 r1 => Sys2Proof.Machine.execLoadconsx shift imm16 r1 s
  | .cachemm size fp lock level r1 r2 => Sys2Proof.Machine.execCachemm size fp lock level r1 r2 s
  | .loadi size endian imm9 r1 r2 => Sys2Proof.Machine.execLoadi size endian imm9 r1 r2 s
  | .storei size endian imm9 r1 r2 => Sys2Proof.Machine.execStorei size endian imm9 r1 r2 s
  | .get r1 r2 => Sys2Proof.Machine.execGet r1 r2 s
  | .put r1 r2 => Sys2Proof.Machine.execPut r1 r2 s
  | .geti imm16 r1 => Sys2Proof.Machine.execGeti imm16 r1 s
  | .puti imm16 r1 => Sys2Proof.Machine.execPuti imm16 r1 s
  | .jmpa negate test r1 r2 => Sys2Proof.Machine.execJmpa negate test r1 r2 s
  | .loadaddr imm18 r1 => Sys2Proof.Machine.execLoadaddr imm18 r1 s
  | .loopentry r1 => Sys2Proof.Machine.execLoopentry r1 s
  | .loop r1 r2 => Sys2Proof.Machine.execLoop r1 r2 s
  | .jmpi imm12 r1 r2 => Sys2Proof.Machine.execJmpi imm12 r1 r2 s
  | .jmpr imm18 r1 => Sys2Proof.Machine.execJmpr imm18 r1 s
  | .syscall imm18 r1 => Sys2Proof.Machine.execSyscall imm18 r1 s
  | .trap imm18 r1 => Sys2Proof.Machine.execTrap imm18 r1 s
  | .halt imm18 r1 => Sys2Proof.Machine.execHalt imm18 r1 s
  | .rfe imm18 r1 => Sys2Proof.Machine.execRfe imm18 r1 s

end Sys2Proof.Machine
end

