-- ==== Sys2Proof/Machine/Step.lean ====
section
/-!
DEFINITION. One step of the machine (R26, R59, R308, R322): fetch, decode, execute.
-/

namespace Sys2Proof.Machine

/-- One step. A halted processor executes nothing, and no External Exception ever wakes it (R283, R306), so
its state stays as it is (log 22). A running one fetches at `pc`, refuses a byte stored to in this run,
raises what the fetch or the decode raises, and else executes the instruction (R308). -/
def step (s : State) : Host.Outcome State Fault Refusal :=
  match s.run with
  | .halted => .next s
  | .running =>
    match s.fetch with
    | .storedByte => .refused .fetchOfStoredByte
    | .noMemory => raise .memoryException
    | .rejected r => raiseReject r
    | .instruction i => exec i s

/-- The state in which the word of spec/opcode_table.json stands where `step` fetches its next instruction:
four bytes at `pc`, no store mark on them, the processor running. Nothing else changes. -/
def State.withFetchWord (s : State) (nbits w : Nat) : State :=
  s.placeWord (tableWord nbits w)

end Sys2Proof.Machine
end

