-- ==== Sys2Proof/Safety.lean ====
section
/-!
DEFINITION. What counts as a good state and as a safe step, in the terms that claims use.
-/

namespace Sys2Proof

/-- The store instructions (R40). -/
def Instr.isStore : Instr → Bool
  | .store _ _ _ _ _ | .storei _ _ _ _ _ => true
  | _ => false

end Sys2Proof

namespace Sys2Proof.Machine

/-- The addresses that exist (R50). -/
def State.addresses (s : State) : List Nat :=
  s.mem.map Prod.fst

/-- `pc` is a multiple of 4 (R25, R58). -/
def State.pcAligned (s : State) : Bool :=
  aligned s.pc 4

/-- Every byte that a store has written exists, and the list of them is in canonical form (R50, R66). -/
def State.storesWf (s : State) : Bool :=
  risingFrom 0 s.storedTo && s.storedTo.all fun a => (Memory.byteAt s.mem a).isSome

/-- The unused slot of register 0 holds 0 and no written mark (R22). -/
def State.zeroSlot (s : State) : Bool :=
  s.regs[0] == 0 && s.written[0] == false

/-- The invariant of the machine: memory and the list of stored-to bytes in canonical form, `pc` aligned,
and nothing in the slot of register 0. -/
def State.inv (s : State) : Bool :=
  Memory.wf s.mem && s.storesWf && s.pcAligned && s.zeroSlot

/-- The normal end of a run (R322): a halt took effect. -/
def State.ended (s : State) : Bool :=
  s.run == .halted

/-! ### What an instruction leaves unchanged -/

/-- Register `r` reads as `v` at every place of an operand. -/
def State.holds (s : State) (r : Reg) (v : Word) : Prop :=
  ∀ site, s.readReg site r = v

/-- `t` has what `s` has in every general register that is not one of `ds`, and in the slot of register 0. -/
def State.sameRegs (s t : State) (ds : List Reg) : Prop :=
  ∀ r : Reg, r = 0 ∨ r ∉ ds → t.regs[r] = s.regs[r] ∧ t.written[r] = s.written[r]

/-- `t` has the internal registers and the status word of `s`. -/
def State.sameSpecial (s t : State) : Prop :=
  t.sr = s.sr ∧ t.msw = s.msw ∧ t.procId = s.procId ∧ t.counters = s.counters

/-- `t` has every byte of the memory of `s`, and the same bytes count as stored to (R66). -/
def State.sameMemory (s t : State) : Prop :=
  (∀ a, Memory.byteAt t.mem a = Memory.byteAt s.mem a) ∧ t.storedTo = s.storedTo

/-- The frame of an instruction that stores nothing: of `s`, only the general registers `ds`, `pc` and the
model's own draw number may differ in `t`. -/
def State.framed (s t : State) (ds : List Reg) : Prop :=
  s.sameRegs t ds ∧ s.sameSpecial t ∧ s.sameMemory t ∧ t.run = s.run

/-- `t` is `s` after an instruction that is no taken jump, stores nothing and writes exactly the given
general registers (a write to register 0 being discarded): its results, its frame and `pc + 4`. -/
def State.wrote (s t : State) (results : List (Reg × Word)) : Prop :=
  (∀ w ∈ results, w.1 ≠ 0 → t.holds w.1 w.2) ∧ s.framed t (results.map Prod.fst) ∧ t.pc = s.pc + 4

/-- The lanes that an operation works on: lane 0, and in the SIMD form every lane below 64/n (R121). -/
def workedOn (n : Nat) (simd : Bool) (k : Nat) : Prop :=
  k = 0 ∨ simd = true ∧ k < 64 / n

/-- A sized first result `v` keeps the bits of the first source above the operand size in the scalar form
(R121, D6). -/
def keepsHigh (n : Nat) (simd : Bool) (v source : Word) : Prop :=
  simd = false → v >>> n = source >>> n

/-- The result of a shift of an n-bit value (R151, R152), as numbers: `SHIFT_OOR` for an amount not below n,
else the value times a power of two, or its unsigned or signed quotient by one. -/
def shiftResult (n : Nat) (right signed : Bool) (v : BitVec n) (cnt : Word) (w : BitVec n) : Prop :=
  if n ≤ cnt.toNat then w = Config.shiftOor n v cnt right signed
  else if right = false then w.toNat = v.toNat * 2 ^ cnt.toNat % 2 ^ n
  else if signed = false then w.toNat = v.toNat / 2 ^ cnt.toNat
  else w.toInt = v.toInt / 2 ^ cnt.toNat

/-- The result of a rotation of an n-bit value (R153), bit by bit. -/
def rotateResult (n : Nat) (right : Bool) (v : BitVec n) (cnt : Nat) (w : BitVec n) : Prop :=
  ∀ i < n, w.getLsbD i =
    v.getLsbD (if right = true then (i + cnt % n) % n else (i + (n - cnt % n)) % n)

/-- The result of a single-bit operation (R164), bit by bit. -/
def singleBitResult (op : BitOperation) (imm6 : BitVec 6) (a w : Word) : Prop :=
  ∀ j < 64, w.getLsbD j =
    if j = imm6.toNat then
      (match op with
      | .set => true
      | .clear => false
      | .change => !a.getLsbD j
      | .test => a.getLsbD j)
    else
      (match op with
      | .set | .clear | .change => a.getLsbD j
      | .test => false)

/-- The result of a truth table in the low n bits (R166), bit by bit. -/
def logicResult (n : Nat) (f00 f10 f01 f11 : Bool) (a b w : Word) : Prop :=
  ∀ i < n, w.getLsbD i =
    if b.getLsbD i then (if a.getLsbD i then f11 else f01) else (if a.getLsbD i then f10 else f00)

/-- The result of a 64-bit reversal and a logical right shift (R200, R201), bit by bit; `SHIFT_OOR` of the
reversed value for an amount of 64 or more. -/
def reversalResult (a cnt w : Word) : Prop :=
  ∃ r : Word, (∀ i < 64, r.getLsbD i = a.getLsbD (63 - i)) ∧
    if 64 ≤ cnt.toNat then w = Config.shiftOor 64 r cnt true false
    else w.toNat = r.toNat / 2 ^ cnt.toNat

/-- Byte k of an access of `bytes` bytes, by rising address, is this byte of the value (R52, R53). -/
def bytePlace (e : Endian) (bytes k : Nat) : Nat :=
  if e = .little then k else bytes - 1 - k

/-- A store's effect on memory (R53, R66): the bytes of the access hold the low bytes of `v`, every other
byte is as it was, and the bytes of the access now count as stored to. -/
def State.storedBytes (s t : State) (size : Size) (e : Endian) (ea v : Word) : Prop :=
  (∀ k < sizeBytes size, Memory.byteAt t.mem (byteAddress ea k) =
    some (v.extractLsb' (8 * bytePlace e (sizeBytes size) k) 8)) ∧
  (∀ a, a ∉ touched ea (sizeBytes size) → Memory.byteAt t.mem a = Memory.byteAt s.mem a) ∧
  (∀ a, a ∈ t.storedTo ↔ a ∈ touched ea (sizeBytes size) ∨ a ∈ s.storedTo)

/-- The bytes of an access in memory are the low bytes of `v` (R52). -/
def State.loadsBytes (s : State) (size : Size) (e : Endian) (ea v : Word) : Prop :=
  ∀ k < sizeBytes size, Memory.byteAt s.mem (byteAddress ea k) =
    some (v.extractLsb' (8 * bytePlace e (sizeBytes size) k) 8)

/-- Every byte of an access exists (R50). -/
def State.accessExists (s : State) (ea : Word) (count : Nat) : Prop :=
  ∀ a ∈ touched ea count, (Memory.byteAt s.mem a).isSome = true

/-- The condition of jmpa as a proposition (R262). -/
def jumpCondition (negate : Bool) (test : BitTest) (c : Word) : Prop :=
  (match test with
  | .nonNil => c ≠ 0
  | .lsb => c.toNat % 2 = 1
  | .msb => 2 ^ 63 ≤ c.toNat) ↔ negate = false

/-- What a read of an internal register must give (R245): the value last put into an RW register, the
constant of `Processor ID`; of every other read nothing is known. -/
def State.internalRead (s : State) (n : IReg) (v : Word) : Prop :=
  (n = .srOpc → s.sr.opcWritten = true → v = s.sr.opc) ∧
  (n = .srOmsw → s.sr.omswWritten = true → v = s.sr.omsw) ∧
  (n = .srEv → s.sr.evWritten = true → v = s.sr.ev) ∧
  (n = .srTmp → s.sr.tmpWritten = true → v = s.sr.tmp) ∧
  (n = .procId → v = s.procId)

/-- The special registers after `v` is put into the register `n`, which must be RW (R246). -/
def SpecialRegs.afterPut (sr after : SpecialRegs) (n : IReg) (v : Word) : Prop :=
  n = .srOpc ∧ after = { sr with opc := v, opcWritten := true } ∨
  n = .srOmsw ∧ after = { sr with omsw := v, omswWritten := true } ∨
  n = .srEv ∧ after = { sr with ev := v, evWritten := true } ∨
  n = .srTmp ∧ after = { sr with tmp := v, tmpWritten := true }

/-- The internal registers whose access is "RW" (R31, R32, R34, R35). -/
def readWrite : List IReg :=
  [.srOpc, .srOmsw, .srEv, .srTmp]

/-- The must-be-zero bits of a word by its opcode: the column `reserved_mask` of spec/opcode_table.json. -/
def reservedMask : Op → Insn
  | .add | .sub | .mul | .div | .addi | .subi | .muli | .divi | .modi => 0x00000800
  | .mod | .rot | .roti | .load | .store => 0x00003800
  | .shift | .shifti | .fadd | .fsub | .fmul | .fdiv | .mov => 0x00003000
  | .bitop => 0x00003C00
  | .mix => 0x00003E00
  | .expand => 0x000FFE00
  | .fconv => 0x000F0000
  | .finv | .fsqrt | .finvsqrt => 0x000FF000
  | .bitrev | .bitrevi => 0x00003F00
  | .byterev => 0x000FFC00
  | .cachemm => 0x000F8000
  | .get | .put | .loop => 0x000FFF00
  | .geti | .puti => 0x00000300
  | .jmpa => 0x000FF800
  | .loopentry => 0x03FFFF00
  | .logic | .loadcons | .loadconsx | .loadi | .storei | .loadaddr | .jmpi | .jmpr | .systrap
  | .halt | .rfe => 0

/-- The floating-point opcodes (R191). -/
def isFloatingPoint : Op → Bool
  | .fadd | .fsub | .fmul | .fdiv | .fconv | .finv | .fsqrt | .finvsqrt => true
  | _ => false

/-- The fetch at `pc` succeeds and gives these four bytes (R59, R66). -/
def State.fetches (s : State) (bytes : List Byte) : Prop :=
  s.run = .running ∧ (∀ a ∈ touched s.pc 4, a ∉ s.storedTo) ∧
    Memory.bytesAt s.mem (touched s.pc 4) = some bytes

/-- Some instructions executed one after the other, each completing. -/
def execAll : List Instr → State → Outcome
  | [], s => .next s
  | i :: rest, s =>
    match exec i s with
    | .next t => execAll rest t
    | .fault f => .fault f
    | .refused r => .refused r

/-- Two states with the same draw number (log 8) that differ at most in values that no program can read: the
stored value of a general or special register that nothing has written, the slot of register 0, `SR_ER`,
`SR_ENT`, the status word and the counters (R43, R245). -/
def State.sameVisible (s t : State) : Prop :=
  (∀ r : Reg, r ≠ 0 → t.written[r] = s.written[r] ∧ (s.written[r] = true → t.regs[r] = s.regs[r])) ∧
  t.pc = s.pc ∧ t.procId = s.procId ∧ t.mem = s.mem ∧ t.storedTo = s.storedTo ∧ t.run = s.run ∧
  t.draws = s.draws ∧
  (t.sr.opcWritten = s.sr.opcWritten ∧ (s.sr.opcWritten = true → t.sr.opc = s.sr.opc)) ∧
  (t.sr.omswWritten = s.sr.omswWritten ∧ (s.sr.omswWritten = true → t.sr.omsw = s.sr.omsw)) ∧
  (t.sr.evWritten = s.sr.evWritten ∧ (s.sr.evWritten = true → t.sr.ev = s.sr.ev)) ∧
  (t.sr.tmpWritten = s.sr.tmpWritten ∧ (s.sr.tmpWritten = true → t.sr.tmp = s.sr.tmp))

/-! ### Outcomes -/

/-- Two outcomes that agree: next states that satisfy `R`, or the same exception, or the same refusal. -/
def Outcome.agree (R : State → State → Prop) (o o' : Outcome) : Prop :=
  match o, o' with
  | .next s, .next t => R s t
  | .fault f, .fault g => f = g
  | .refused r, .refused q => r = q
  | _, _ => False

/-- A step that is no stop: it answers a next state. -/
def Outcome.goesOn (o : Outcome) : Bool :=
  match o with
  | .next _ => true
  | .fault _ => false
  | .refused _ => false

end Sys2Proof.Machine
end

