-- ==== Sys2Proof/Certificates/Slice0/Obligations.lean ====
section
/-!
DEFINITION. The statements for the provers. Each docstring names the rules of spec/ that a statement follows,
or says that it rests on a decision of the spec (D<n>) or on a log entry of the model.
-/

section

open Sys2Proof Sys2Proof.Machine

/-- For every well-formed instruction and any following bytes, decoding its encoded bytes gives that
instruction, with every operand at every value. The opcode numbers, bit 0 = least significant and the
fetch byte order are decisions of the spec (D2, D3, D4); the canonical names are the model's choice (log
26). (30_encoding.md sections 1 to 5, 20_memory.md section 2) -/
def Obligations.EncodedInstructionDecodesToItself : Prop :=
  ∀ (i : Instr) (rest : List Byte), i.wellFormed = true →
    decode (encodeBytes i ++ rest) = .ok i

/-- If a word decodes to an instruction then that instruction is well formed and its encoding is that
word, so no two accepted words mean one instruction and no bit of an accepted word is dropped (D2, D4, D11
are decisions of the spec; names: log 26). (30_encoding.md sections 2 to 5) -/
def Obligations.DecodedWordIsTheEncodingOfItsInstruction : Prop :=
  ∀ (w : Insn) (i : Instr), decodeWord w = .ok i → i.wellFormed = true ∧ encode i = w

/-- Each alias of bitop has the instruction word of the form it stands for, and executing it is executing
that form, in every state: bclear of bitop.c, bchange of bitop.x, btest of bitop.t, and bitset (the
spelling of LOADCONST.C) of bitop.s. (R165) -/
def Obligations.BitopAliasIsTheSameInstruction : Prop :=
  ∀ (imm6 : BitVec 6) (r1 r2 : Reg) (s : State),
    (encode (.bclear imm6 r1 r2) = encode (.bitop .clear imm6 r1 r2) ∧
      exec (.bclear imm6 r1 r2) s = exec (.bitop .clear imm6 r1 r2) s) ∧
    (encode (.bchange imm6 r1 r2) = encode (.bitop .change imm6 r1 r2) ∧
      exec (.bchange imm6 r1 r2) s = exec (.bitop .change imm6 r1 r2) s) ∧
    (encode (.btest imm6 r1 r2) = encode (.bitop .test imm6 r1 r2) ∧
      exec (.btest imm6 r1 r2) s = exec (.bitop .test imm6 r1 r2) s) ∧
    (encode (.bitset imm6 r1 r2) = encode (.bitop .set imm6 r1 r2) ∧
      exec (.bitset imm6 r1 r2) s = exec (.bitop .set imm6 r1 r2) s)

/-- For every instruction the canonical spelling (the aliases of logic, bitop, syscall/trap) encodes to
the same word and executes alike in every state. Which spelling is canonical is the model's choice (log
26). (30_encoding.md section 6, 41_shift_logic.md section 2, 47_system.md section 2) -/
def Obligations.CanonicalNameIsTheSameInstruction : Prop :=
  ∀ (i : Instr) (s : State), encode i.canonical = encode i ∧ exec i.canonical s = exec i s ∧
    i.canonical.wellFormed = true

/-- For every word whose opcode is assigned and not a floating-point one: it is rejected as a malformed
instruction exactly if it has a bit of the reserved mask of spec/opcode_table.json set, or mode 3 of mov,
level 3 of cachemm or both test bits of jmpa; otherwise it decodes to an instruction (D11, D19, D38 are
decisions of the spec). (30_encoding.md sections 4 and 5, 44_load_store_move.md sections 2 and 4,
46_control_transfer.md section 2) -/
def Obligations.ReservedBitsAreMalformed : Prop :=
  ∀ (w : Insn) (op : Op), fieldAt w 0 8 = Config.opc op → isFloatingPoint op = false →
    (decodeWord w = .error .malformed ↔
      w &&& reservedMask op ≠ 0 ∨ (op = .mov ∧ fieldAt w 10 2 = 3) ∨
      (op = .cachemm ∧ fieldAt w 12 3 = 3) ∨ (op = .jmpa ∧ fieldAt w 9 2 = 3)) ∧
    (decodeWord w = .error .malformed ∨ ∃ i, decodeWord w = .ok i)

/-- A word is rejected as an illegal opcode only if its opcode byte is 0x32 or more or one of the
floating-point ones; every word whose opcode byte is 0x32 or more is rejected so, and a step that fetches
it raises the exception of reason 2 whatever the other bits. The byte numbers are the spec's provisional
ones (D4, D11). (30_encoding.md section 5, 60_exceptions.md sections 1 and 3) -/
def Obligations.UnassignedOpcodeIsIllegal : Prop :=
  (∀ w : Insn, decodeWord w = .error .illegalOpcode → 0x32 ≤ (fieldAt w 0 8).toNat ∨
    0x12 ≤ (fieldAt w 0 8).toNat ∧ (fieldAt w 0 8).toNat ≤ 0x19) ∧
  ∀ w : Insn, 0x32 ≤ (fieldAt w 0 8).toNat → decodeWord w = .error .illegalOpcode ∧
    ∀ s : State, s.fetches (bytesOfWord w) → step s = .fault .illegalOpcode

/-- A running machine that fetches any word whose opcode byte is one of the eight floating-point ones
(0x12 to 0x19) raises the exception of reason 2, whatever the other bits of the word and whatever the
registers hold (FP_LEVEL 0 is the decision D26 of the spec). (42_floating_point.md section 1,
30_encoding.md section 4) -/
def Obligations.FloatingPointOpcodeIsIllegalWhateverItsBits : Prop :=
  ∀ (w : Insn) (s : State), 0x12 ≤ (fieldAt w 0 8).toNat → (fieldAt w 0 8).toNat ≤ 0x19 →
    s.fetches (bytesOfWord w) → step s = .fault .illegalOpcode

/-- One word of each format, put together bit by bit from the spec's figures and its provisional opcode
numbers (D2, D4), decodes to its instruction. (30_encoding.md section 3, 95_test_vectors.md section 2) -/
def Obligations.WordsOfTheFiguresDecode : Prop :=
  decodeWord 0x0420E000 = .ok (.add .b false false true 1 2 3) ∧
  decodeWord 0x0C207002 = .ok (.mul .b false true true 1 2 3) ∧
  decodeWord 0x0C187504 = .ok (.addi .d true 0x87 1 3) ∧
  decodeWord 0x0817CE0C = .ok (.shifti .q true true 31 1 2) ∧
  decodeWord 0x0810021C = .ok (.byterev .q 1 2) ∧
  decodeWord 0x08101D24 = .ok (.storei .d .big 3 1 2) ∧
  decodeWord 0x06AF3720 = .ok (.loadcons 3 0xABCD 1) ∧
  decodeWord 0x07FFFE2E = .ok (.jmpr 0x3FFFE 1) ∧
  decodeWord 0x1400002B = .ok (.loopentry 5) ∧
  decodeWord 0x0810032D = .ok (.jmpi 3 1 2)

/-- After reset the processor runs, pc is a multiple of 4 (its value is the model's choice, log 2),
register 0 reads 0, no general register and no read/write special register counts as written, nothing has
been stored to, and the memory is the launch memory in canonical form (D32, D33 are decisions of the spec;
the launch memory is log 1). (10_state.md section 7, 70_reset_and_hazards.md section 1) -/
def Obligations.ResetState : Prop :=
  State.reset.run = .running ∧ State.reset.pc.toNat % 4 = 0 ∧ State.reset.holds 0 0 ∧
  (∀ r : Reg, State.reset.written[r] = false) ∧
  State.reset.sr.opcWritten = false ∧ State.reset.sr.omswWritten = false ∧
  State.reset.sr.evWritten = false ∧ State.reset.sr.tmpWritten = false ∧
  State.reset.procId = Config.procId ∧ State.reset.storedTo = [] ∧
  State.reset.mem = Config.launchMemory ∧ Memory.wf State.reset.mem = true

/-- The reset state has its memory and its list of stored-to bytes in canonical form, an aligned pc and an
empty slot of register 0. (10_state.md sections 2, 3 and 7, 20_memory.md section 1) -/
def Obligations.ResetMeetsTheInvariant : Prop :=
  State.reset.inv = true

/-- From every state with memory and stored-to list in canonical form, every stored-to byte existing, pc a
multiple of 4 and nothing in the slot of register 0, a step that answers a next state answers one with the
same four properties. (10_state.md sections 2 and 3, 20_memory.md sections 1, 3 and 6) -/
def Obligations.StepKeepsTheInvariant : Prop :=
  ∀ s t : State, s.inv = true → step s = .next t → t.inv = true

/-- From a state whose pc is a multiple of 4 every next state has such a pc; a taken jmpr from an aligned
pc always has an aligned target; a taken jmpa or jmpi whose target is not a multiple of 4 is refused.
(R58) -/
def Obligations.PcStaysAligned : Prop :=
  (∀ s t : State, s.pc.toNat % 4 = 0 → step s = .next t → t.pc.toNat % 4 = 0) ∧
  (∀ (imm18 : BitVec 18) (r1 : Reg) (s : State), s.pc.toNat % 4 = 0 →
    ∃ t, exec (.jmpr imm18 r1) s = .next t ∧ t.pc.toNat % 4 = 0) ∧
  (∀ (negate : Bool) (test : BitTest) (r1 r2 : Reg) (s : State),
    jumpCondition negate test (s.readReg .reg1 r1) → (s.readReg .reg2 r2).toNat % 4 ≠ 0 →
    exec (.jmpa negate test r1 r2) s = .refused .misalignedTarget) ∧
  (∀ (imm12 : BitVec 12) (r1 r2 : Reg) (s : State), imm12.toNat ≤ 2047 →
    s.readReg .reg1 r1 ≠ 0 → (s.readReg .reg2 r2).toNat % 4 ≠ 0 →
    exec (.jmpi imm12 r1 r2) s = .refused .misalignedTarget)

/-- Register 0 reads as 0 at every operand place of every state, a write to it leaves the state as it is
(D9 is a decision of the spec), and a write to another register is read back. (10_state.md section 2) -/
def Obligations.RegisterZeroIsZero : Prop :=
  ∀ (s : State) (site : Config.DrawSite) (v : Word),
    s.readReg site 0 = 0 ∧ s.writeReg 0 v = s ∧
    ∀ r : Reg, r ≠ 0 → (s.writeReg r v).holds r v

/-- If the processor runs, no byte of the instruction was stored to, the four bytes at pc exist and they
decode to an instruction, then the step is the execution of that instruction in that state, and nothing is
added around it. (20_memory.md section 4, 30_encoding.md section 4) -/
def Obligations.StepRunsTheDecodedInstruction : Prop :=
  ∀ (s : State) (bytes : List Byte) (i : Instr), s.fetches bytes → decode bytes = .ok i →
    step s = exec i s

/-- The step of a halted processor answers the same state (that the run ends at the halt is decision D24
of the spec; what the step of a halted machine answers is the choice of the model, log 22, a DESIGN
CHOICE); a running one refuses the fetch of a byte stored to in this run, whatever else holds; it raises
the memory exception (type 4, reason 12) if a byte of the instruction does not exist and none was stored
to; and it raises reason 2 or 3 for a word that is illegal or malformed (D11, D17, D39, D46 are decisions
of the spec). (20_memory.md sections 4 and 6, 47_system.md section 2, 60_exceptions.md section 3) -/
def Obligations.StepStopsAtTheFetch : Prop :=
  ∀ s : State,
    (s.run = .halted → step s = .next s) ∧
    (s.run = .running → (∃ a ∈ touched s.pc 4, a ∈ s.storedTo) →
      step s = .refused .fetchOfStoredByte) ∧
    (s.run = .running → (∀ a ∈ touched s.pc 4, a ∉ s.storedTo) →
      (∃ a ∈ touched s.pc 4, Memory.byteAt s.mem a = none) → step s = .fault .memoryException) ∧
    (∀ bytes, s.fetches bytes → decode bytes = .error .illegalOpcode →
      step s = .fault .illegalOpcode) ∧
    (∀ bytes, s.fetches bytes → decode bytes = .error .malformed →
      step s = .fault .malformedInstruction)

/-- If every byte of an access exists, the write succeeds, and reading the same address with the same
width and byte order returns the low bits of the value written. (20_memory.md section 1) -/
def Obligations.WriteThenReadReturnsTheLowBytes : Prop :=
  ∀ (s : State) (ea v : Word) (size : Size) (e : Endian), s.accessExists ea (sizeBytes size) →
    ∃ m, Memory.write s.mem ea size e v = some m ∧
      Memory.read m ea size e = some (v.setWidth (sizeBits size))

/-- A write stores byte k of the access by rising address from the value's bytes in the chosen order,
leaves every other address as it was, makes no address exist or vanish where the memory is in canonical
form, and keeps that form. (20_memory.md section 1) -/
def Obligations.WriteChangesOnlyItsBytes : Prop :=
  ∀ (m m' : Memory) (ea v : Word) (size : Size) (e : Endian),
    Memory.write m ea size e v = some m' →
    (∀ k < sizeBytes size, Memory.byteAt m' (byteAddress ea k) =
      some (v.extractLsb' (8 * bytePlace e (sizeBytes size) k) 8)) ∧
    (∀ a, a ∉ touched ea (sizeBytes size) → Memory.byteAt m' a = Memory.byteAt m a) ∧
    (Memory.wf m = true → Memory.wf m' = true ∧ m'.map Prod.fst = m.map Prod.fst)

/-- A read gives a value exactly if every byte of the access exists, and then byte k by rising address is
byte k of the value (little-endian) or byte n-1-k (big-endian); addresses are taken modulo 2^64, and the
effective address is the base plus the index times the width in bytes, modulo 2^64 (D34 is a decision of
the spec). (20_memory.md sections 1, 2 and 6, 44_load_store_move.md section 1) -/
def Obligations.ReadAssemblesBytesInTheChosenOrder : Prop :=
  ∀ (s : State) (ea : Word) (size : Size) (e : Endian),
    ((Memory.read s.mem ea size e).isSome = true ↔ s.accessExists ea (sizeBytes size)) ∧
    (∀ v, Memory.read s.mem ea size e = some v → s.loadsBytes size e ea (v.setWidth 64)) ∧
    (∀ k < sizeBytes size, byteAddress ea k = (ea.toNat + k) % 2 ^ 64) ∧
    ∀ base index : Word, (effectiveAddress size base index).toNat =
      (base.toNat + index.toNat * (sizeBits size / 8)) % 2 ^ 64

/-- A load or loadi that completes changes no byte of memory, and after any sequence of completed
instructions without a store or storei every read of memory, of every width and byte order, returns what
it returned before. (R61) -/
def Obligations.ReadsAgreeBetweenStores : Prop :=
  (∀ (i : Instr) (s t : State), i.isStore = false → exec i s = .next t → t.mem = s.mem) ∧
  ∀ (is : List Instr) (s t : State), (∀ i ∈ is, i.isStore = false) → execAll is s = .next t →
    ∀ (a : Word) (size : Size) (e : Endian),
      Memory.read t.mem a size e = Memory.read s.mem a size e

/-- In a state whose memory is in canonical form, every step that completes leaves the list of existing
addresses as it was. (20_memory.md sections 1 and 5) -/
def Obligations.ExistingAddressesNeverChange : Prop :=
  ∀ s t : State, Memory.wf s.mem = true → step s = .next t → t.addresses = s.addresses

/-- Every instruction that completes leaves MSW, Processor ID and the counters as they were, and leaves
the special registers as they were unless it is put or puti; put and puti never change SR_ER or SR_ENT
(D31, D40 are decisions of the spec). (10_state.md section 5, 45_internal_registers.md section 1,
60_exceptions.md section 6) -/
def Obligations.OnlyPutsChangeInternalRegisters : Prop :=
  ∀ (i : Instr) (s t : State), exec i s = .next t →
    t.msw = s.msw ∧ t.procId = s.procId ∧ t.counters = s.counters ∧
    t.sr.er = s.sr.er ∧ t.sr.ent = s.sr.ent ∧
    (t.sr = s.sr ∨ (∃ r1 r2, i = .put r1 r2) ∨ ∃ imm16 r1, i = .puti imm16 r1)

/-- Every instruction that completes and is not jmpa, jmpi, jmpr or halt leaves pc 4 higher modulo 2^64
and the run state as it was; the three jumps leave the run state as it was; a halt leaves pc at the halt
and the run state halted (D24, D34 are decisions of the spec). (10_state.md sections 3 and 6,
46_control_transfer.md section 1, 47_system.md section 2) -/
def Obligations.PcAdvancesByFourUnlessJumped : Prop :=
  ∀ (i : Instr) (s t : State), exec i s = .next t →
    ((∃ imm18 r1, i = .halt imm18 r1) → t.pc = s.pc ∧ t.run = .halted) ∧
    ((∀ imm18 r1, i ≠ .halt imm18 r1) → t.run = s.run ∧
      (t.pc.toNat = (s.pc.toNat + 4) % 2 ^ 64 ∨ (∃ negate test r1 r2, i = .jmpa negate test r1 r2) ∨
        (∃ imm12 r1 r2, i = .jmpi imm12 r1 r2) ∨ ∃ imm18 r1, i = .jmpr imm18 r1))

/-- For every instruction and every state: if it completes, every general register that is not one of its
destination registers (two for the 2r2w forms) is as it was, register 0 among them, and its bytes of
memory and stored-to marks are as they were unless it is a store. (10_state.md section 2,
40_integer_arithmetic.md section 3, 44_load_store_move.md section 1, 46_control_transfer.md section 1) -/
def Obligations.OnlyDestinationsChange : Prop :=
  ∀ (i : Instr) (s t : State), exec i s = .next t →
    s.sameRegs t i.destinations ∧ (i.isStore = false → s.sameMemory t)

/-- An instruction raises integer divide by zero only if it is div, divi, mod or modi, the memory
exception only if it is a load or a store, the syscall exception only if it is syscall or trap, the
illegal-opcode exception only if it is a floating-point instruction, and no other exception at all (D25,
D26, D40, D41, D44, D46 are decisions of the spec). (60_exceptions.md section 1) -/
def Obligations.CausesOfExceptions : Prop :=
  ∀ (i : Instr) (s : State) (f : Fault), exec i s = .fault f →
    (f = .integerDivideByZero ∧ ((∃ z b g m p q r, i = .div z b g m p q r) ∨
      (∃ z b m p q, i = .divi z b m p q) ∨ (∃ z b p q r, i = .mod z b p q r) ∨
      ∃ z b m p q, i = .modi z b m p q)) ∨
    (f = .memoryException ∧ ((∃ z e p q r, i = .load z e p q r) ∨
      (∃ z e p q r, i = .store z e p q r) ∨ (∃ z e m p q, i = .loadi z e m p q) ∨
      ∃ z e m p q, i = .storei z e m p q)) ∨
    (f = .syscall ∧ ((∃ m p, i = .syscall m p) ∨ ∃ m p, i = .trap m p)) ∨
    (f = .illegalOpcode ∧ ∃ op, isFloatingPoint op = true ∧
      fieldAt (encode i) 0 8 = Config.opc op)

/-- Each exception has the type and the reason code that the two tables print, paired by name (D13 is a
decision of the spec): reasons run from 1 to 12, types from 1 to 5, and two exceptions with a reason never
share it, and the six floating-point exceptions have type 1. (60_exceptions.md section 1) -/
def Obligations.TypesAndReasonsOfExceptions : Prop :=
  Fault.reason .externalInterrupt = some 1 ∧ Fault.type .externalInterrupt = 2 ∧
  Fault.reason .illegalOpcode = some 2 ∧ Fault.type .illegalOpcode = 1 ∧
  Fault.reason .malformedInstruction = some 3 ∧ Fault.type .malformedInstruction = 1 ∧
  Fault.reason .privilegeViolation = some 4 ∧ Fault.type .privilegeViolation = 3 ∧
  Fault.reason .integerDivideByZero = some 5 ∧ Fault.type .integerDivideByZero = 1 ∧
  Fault.reason .fpDivideByZero = some 6 ∧ Fault.reason .fpInfMinusInf = some 7 ∧
  Fault.reason .fpInfOverInf = some 8 ∧ Fault.reason .fpZeroOverZero = some 9 ∧
  Fault.reason .fpZeroTimesInf = some 10 ∧ Fault.reason .fpSqrtOfNegative = some 11 ∧
  Fault.type .fpDivideByZero = 1 ∧ Fault.type .fpInfMinusInf = 1 ∧ Fault.type .fpInfOverInf = 1 ∧
  Fault.type .fpZeroOverZero = 1 ∧ Fault.type .fpZeroTimesInf = 1 ∧ Fault.type .fpSqrtOfNegative = 1 ∧
  Fault.reason .memoryException = some 12 ∧ Fault.type .memoryException = 4 ∧
  Fault.reason .syscall = none ∧ Fault.type .syscall = 5 ∧
  (∀ f n, Fault.reason f = some n → 1 ≤ n ∧ n ≤ 12) ∧ (∀ f, 1 ≤ Fault.type f ∧ Fault.type f ≤ 5) ∧
  (∀ f g, Fault.reason f = Fault.reason g → f = g)

/-- Take two states with the same draw number that differ at most in values no program can read: the
stored value of a general or read/write special register that nothing has written since reset, the slot of
register 0, SR_ER, SR_ENT, MSW and the counters. Then their steps agree: the same exception, the same
refusal, or next states that again differ at most there. So nothing rests on the stored reset values that
the model chose (logs 3, 4, 5, 7). That the two steps agree rests on choices of the model: a Draw is a
function of the draw number and of the place that draws (log 8, DESIGN CHOICE, unsafe for a statement that
compares two runs), and the open results of shifts, of division and of modi are functions of their
operands (logs 10, 11, 12, DESIGN CHOICE). (10_state.md section 7, 45_internal_registers.md section 1) -/
def Obligations.UnwrittenValuesInfluenceNothing : Prop :=
  ∀ s t : State, s.sameVisible t → Outcome.agree State.sameVisible (step s) (step t)

/-- Unless saturation and carry are both asked for, and with a second destination below r63 where carry
is: add completes; each lane worked on holds the sum of the lanes modulo 2^n, or 2^n - 1 where saturation
is asked for and the exact sum does not fit; with carry, the next register holds 1 in the lanes whose
exact sum does not fit and 0 in the others; a scalar result keeps the first source above n; nothing else
changes but pc, 4 further (D6, D8, D9 are decisions of the spec). (40_integer_arithmetic.md sections 1 and
2, 10_state.md section 2) -/
def Obligations.AddResults : Prop :=
  ∀ (size : Size) (simd saturate carry : Bool) (r1 r2 r3 : Reg) (s : State),
    ¬(saturate = true ∧ carry = true) → (carry = true → r3.val < 63) →
    ∃ t v w, exec (.add size simd saturate carry r1 r2 r3) s = .next t ∧
      s.wrote t ((r3, v) :: if carry then [(r3 + 1, w)] else []) ∧
      keepsHigh (sizeBits size) simd v (s.readReg .reg1 r1) ∧
      ∀ k, workedOn (sizeBits size) simd k →
        let a := (lane (sizeBits size) (s.readReg .reg1 r1) k).toNat
        let b := (lane (sizeBits size) (s.readReg .reg2 r2) k).toNat
        (lane (sizeBits size) v k).toNat =
          (if saturate = true ∧ 2 ^ sizeBits size ≤ a + b then 2 ^ sizeBits size - 1
           else (a + b) % 2 ^ sizeBits size) ∧
        (carry = true → (lane (sizeBits size) w k).toNat = if 2 ^ sizeBits size ≤ a + b then 1 else 0)

/-- Unless floor and borrow are both asked for, and with a second destination below r63 where borrow is:
sub completes; each lane worked on holds the difference modulo 2^n, or 0 where floor is asked for and the
minuend is smaller; with borrow, the next register holds all ones in the lanes whose minuend is smaller
and 0 in the others; a scalar result keeps the first source above n; nothing else changes but pc, 4
further (D6, D8, D9). (40_integer_arithmetic.md sections 1 and 2, 10_state.md section 2) -/
def Obligations.SubResults : Prop :=
  ∀ (size : Size) (simd floor borrow : Bool) (r1 r2 r3 : Reg) (s : State),
    ¬(floor = true ∧ borrow = true) → (borrow = true → r3.val < 63) →
    ∃ t v w, exec (.sub size simd floor borrow r1 r2 r3) s = .next t ∧
      s.wrote t ((r3, v) :: if borrow then [(r3 + 1, w)] else []) ∧
      keepsHigh (sizeBits size) simd v (s.readReg .reg1 r1) ∧
      ∀ k, workedOn (sizeBits size) simd k →
        let a := (lane (sizeBits size) (s.readReg .reg1 r1) k).toNat
        let b := (lane (sizeBits size) (s.readReg .reg2 r2) k).toNat
        (lane (sizeBits size) v k).toNat =
          (if b ≤ a then a - b else if floor = true then 0 else 2 ^ sizeBits size + a - b) ∧
        (borrow = true → (lane (sizeBits size) w k).toNat = if a < b then 2 ^ sizeBits size - 1 else 0)

/-- With a second destination below r63 where the high part is asked for, mul completes; each lane worked
on holds the product of the signed or unsigned source lanes modulo 2^n, and with the high part the next
register holds the next n bits of the two's complement product; a scalar result keeps the first source
above n; nothing else changes but pc, 4 further (D6, D8, D42). (40_integer_arithmetic.md sections 1 and 2,
10_state.md section 2) -/
def Obligations.MulResults : Prop :=
  ∀ (size : Size) (simd signed high : Bool) (r1 r2 r3 : Reg) (s : State),
    (high = true → r3.val < 63) →
    ∃ t v w, exec (.mul size simd signed high r1 r2 r3) s = .next t ∧
      s.wrote t ((r3, v) :: if high then [(r3 + 1, w)] else []) ∧
      keepsHigh (sizeBits size) simd v (s.readReg .reg1 r1) ∧
      ∀ k, workedOn (sizeBits size) simd k →
        let x := lane (sizeBits size) (s.readReg .reg1 r1) k
        let y := lane (sizeBits size) (s.readReg .reg2 r2) k
        let p : Int := if signed then x.toInt * y.toInt else x.toNat * y.toNat
        ((lane (sizeBits size) v k).toNat : Int) = p % 2 ^ sizeBits size ∧
        (high = true → ((lane (sizeBits size) w k).toNat : Int) =
          p / 2 ^ sizeBits size % 2 ^ sizeBits size)

/-- If no tested lane of the divisor is zero, and with a second destination below r63 where the remainder
is asked for, div completes; each lane worked on holds the floor quotient (and the next register the
remainder) if the division is unsigned or both lanes have a clear top bit, and else what the open function
DIV_SIGNED_CORNER gives; a scalar result keeps the first source above n; nothing else changes but pc, 4
further (D6, D8, D29, D44). (40_integer_arithmetic.md sections 1 and 2, 10_state.md section 2) -/
def Obligations.DivResults : Prop :=
  ∀ (size : Size) (simd signed modulo : Bool) (r1 r2 r3 : Reg) (s : State),
    (modulo = true → r3.val < 63) →
    (∀ k, workedOn (sizeBits size) simd k → lane (sizeBits size) (s.readReg .reg2 r2) k ≠ 0) →
    ∃ t v w, exec (.div size simd signed modulo r1 r2 r3) s = .next t ∧
      s.wrote t ((r3, v) :: if modulo then [(r3 + 1, w)] else []) ∧
      keepsHigh (sizeBits size) simd v (s.readReg .reg1 r1) ∧
      ∀ k, workedOn (sizeBits size) simd k →
        let x := lane (sizeBits size) (s.readReg .reg1 r1) k
        let y := lane (sizeBits size) (s.readReg .reg2 r2) k
        let q := lane (sizeBits size) v k
        let r := lane (sizeBits size) w k
        if signed = false ∨ x.toNat < 2 ^ (sizeBits size - 1) ∧ y.toNat < 2 ^ (sizeBits size - 1) then
          q.toNat = x.toNat / y.toNat ∧
            (modulo = true → x.toNat = q.toNat * y.toNat + r.toNat ∧ r.toNat < y.toNat)
        else
          q = (Config.divSignedCorner (sizeBits size) x y).1 ∧
            (modulo = true → r = (Config.divSignedCorner (sizeBits size) x y).2)

/-- If no tested lane of the divisor is zero, mod completes; each lane worked on holds the remainder if
both lanes have a clear top bit, and else the remainder of the open function DIV_SIGNED_CORNER; a scalar
result keeps the first source above n; nothing else changes but pc, 4 further (D6, D29, D44).
(40_integer_arithmetic.md sections 1 and 2) -/
def Obligations.ModResults : Prop :=
  ∀ (size : Size) (simd : Bool) (r1 r2 r3 : Reg) (s : State),
    (∀ k, workedOn (sizeBits size) simd k → lane (sizeBits size) (s.readReg .reg2 r2) k ≠ 0) →
    ∃ t v, exec (.mod size simd r1 r2 r3) s = .next t ∧ s.wrote t [(r3, v)] ∧
      keepsHigh (sizeBits size) simd v (s.readReg .reg1 r1) ∧
      ∀ k, workedOn (sizeBits size) simd k →
        let x := lane (sizeBits size) (s.readReg .reg1 r1) k
        let y := lane (sizeBits size) (s.readReg .reg2 r2) k
        if x.toNat < 2 ^ (sizeBits size - 1) ∧ y.toNat < 2 ^ (sizeBits size - 1) then
          (lane (sizeBits size) v k).toNat = x.toNat % y.toNat
        else lane (sizeBits size) v k = (Config.divSignedCorner (sizeBits size) x y).2

/-- addi, subi and muli complete in every state; each lane worked on holds the sum, difference or product
of the lane and the signed value of imm8, modulo 2^n; a scalar result keeps the source above n; nothing
else changes but pc, 4 further (D6, D7). (40_integer_arithmetic.md sections 1 and 2) -/
def Obligations.ImmediateResults : Prop :=
  ∀ (size : Size) (simd : Bool) (imm8 : BitVec 8) (r1 r2 : Reg) (s : State),
    ∀ c ∈ [(Instr.addi size simd imm8 r1 r2, fun x m : Int => x + m),
           (Instr.subi size simd imm8 r1 r2, fun x m : Int => x - m),
           (Instr.muli size simd imm8 r1 r2, fun x m : Int => x * m)],
      ∃ t v, exec c.1 s = .next t ∧ s.wrote t [(r2, v)] ∧
        keepsHigh (sizeBits size) simd v (s.readReg .reg1 r1) ∧
        ∀ k, workedOn (sizeBits size) simd k →
          ((lane (sizeBits size) v k).toNat : Int) =
            c.2 (lane (sizeBits size) (s.readReg .reg1 r1) k).toNat imm8.toInt % 2 ^ sizeBits size

/-- For an immediate that is not 0, divi and modi complete; each lane worked on holds the exact quotient
or remainder if the lane has a clear top bit and the immediate is below 0x80, and else what
DIV_SIGNED_CORNER or MODI_CORNER gives; a scalar result keeps the source above n; nothing else changes but
pc, 4 further (D6, D7, D29, D44). (40_integer_arithmetic.md sections 1 and 2) -/
def Obligations.ImmediateDivisionResults : Prop :=
  ∀ (size : Size) (simd : Bool) (imm8 : BitVec 8) (r1 r2 : Reg) (s : State), imm8 ≠ 0 →
    (∃ t v, exec (.divi size simd imm8 r1 r2) s = .next t ∧ s.wrote t [(r2, v)] ∧
      keepsHigh (sizeBits size) simd v (s.readReg .reg1 r1) ∧
      ∀ k, workedOn (sizeBits size) simd k →
        let x := lane (sizeBits size) (s.readReg .reg1 r1) k
        if x.toNat < 2 ^ (sizeBits size - 1) ∧ imm8.toNat < 0x80 then
          (lane (sizeBits size) v k).toNat = x.toNat / imm8.toNat
        else lane (sizeBits size) v k =
          (Config.divSignedCorner (sizeBits size) x (imm8.signExtend (sizeBits size))).1) ∧
    (∃ t v, exec (.modi size simd imm8 r1 r2) s = .next t ∧ s.wrote t [(r2, v)] ∧
      keepsHigh (sizeBits size) simd v (s.readReg .reg1 r1) ∧
      ∀ k, workedOn (sizeBits size) simd k →
        let x := lane (sizeBits size) (s.readReg .reg1 r1) k
        if x.toNat < 2 ^ (sizeBits size - 1) ∧ imm8.toNat < 0x80 then
          (lane (sizeBits size) v k).toNat = x.toNat % imm8.toNat
        else lane (sizeBits size) v k = Config.modiCorner (sizeBits size) x imm8)

/-- div (without a second destination above r63) and mod raise the exception of type 1 and reason 5 if any
tested lane of the divisor is zero, every lane being tested in the SIMD form and lane 0 alone in the
scalar one; divi and modi raise it for the immediate 0 (D44 is a decision of the spec).
(40_integer_arithmetic.md sections 2 and 3, 60_exceptions.md section 1) -/
def Obligations.DivisionByZeroIsRaised : Prop :=
  (∀ (size : Size) (simd signed modulo : Bool) (r1 r2 r3 : Reg) (s : State) (k : Nat),
    ¬(modulo = true ∧ r3 = 63) → workedOn (sizeBits size) simd k →
    lane (sizeBits size) (s.readReg .reg2 r2) k = 0 →
    exec (.div size simd signed modulo r1 r2 r3) s = .fault .integerDivideByZero ∧
    exec (.mod size simd r1 r2 r3) s = .fault .integerDivideByZero) ∧
  ∀ (size : Size) (simd : Bool) (r1 r2 : Reg) (s : State),
    exec (.divi size simd 0 r1 r2) s = .fault .integerDivideByZero ∧
    exec (.modi size simd 0 r1 r2) s = .fault .integerDivideByZero

/-- shift and shifti complete in every state; the low n bits of the destination are the low n bits of the
source shifted left, right with zeros or right with copies of the sign by the amount (the whole register,
or imm6), or what the open function SHIFT_OOR gives for an amount of n or more; the bits above n are the
source's; nothing else changes but pc, 4 further (D6, D28). (41_shift_logic.md sections 1 and 2) -/
def Obligations.ShiftResults : Prop :=
  ∀ (size : Size) (right signed : Bool) (r1 r2 r3 : Reg) (imm6 : BitVec 6) (s : State),
    (∃ t v, exec (.shift size right signed r1 r2 r3) s = .next t ∧ s.wrote t [(r3, v)] ∧
      v >>> sizeBits size = s.readReg .reg1 r1 >>> sizeBits size ∧
      shiftResult (sizeBits size) right signed (lane (sizeBits size) (s.readReg .reg1 r1) 0)
        (s.readReg .reg2 r2) (lane (sizeBits size) v 0)) ∧
    (∃ t v, exec (.shifti size right signed imm6 r1 r2) s = .next t ∧ s.wrote t [(r2, v)] ∧
      v >>> sizeBits size = s.readReg .reg1 r1 >>> sizeBits size ∧
      shiftResult (sizeBits size) right signed (lane (sizeBits size) (s.readReg .reg1 r1) 0)
        (imm6.setWidth 64) (lane (sizeBits size) v 0))

/-- rot and roti complete in every state; bit i of the low n bits of the destination is the bit of the
source that lies the amount modulo n to the right (left rotation) or to the left (right rotation) of it,
around the n bits; the bits above n are the source's; nothing else changes but pc, 4 further (D6, D28).
(41_shift_logic.md sections 1 and 2) -/
def Obligations.RotateResults : Prop :=
  ∀ (size : Size) (right : Bool) (r1 r2 r3 : Reg) (imm6 : BitVec 6) (s : State),
    (∃ t v, exec (.rot size right r1 r2 r3) s = .next t ∧ s.wrote t [(r3, v)] ∧
      v >>> sizeBits size = s.readReg .reg1 r1 >>> sizeBits size ∧
      rotateResult (sizeBits size) right (lane (sizeBits size) (s.readReg .reg1 r1) 0)
        (s.readReg .reg2 r2).toNat (lane (sizeBits size) v 0)) ∧
    (∃ t v, exec (.roti size right imm6 r1 r2) s = .next t ∧ s.wrote t [(r2, v)] ∧
      v >>> sizeBits size = s.readReg .reg1 r1 >>> sizeBits size ∧
      rotateResult (sizeBits size) right (lane (sizeBits size) (s.readReg .reg1 r1) 0)
        imm6.toNat (lane (sizeBits size) v 0))

/-- bitop and its four aliases complete in every state; set, clear and change write the source with bit
imm6 set, cleared or inverted, and test writes the source's bit imm6 in its place and zeros elsewhere;
nothing else changes but pc, 4 further (the numbering of the bits from the least significant one is the
spec's reading). (41_shift_logic.md section 2) -/
def Obligations.SingleBitResults : Prop :=
  ∀ (op : BitOperation) (imm6 : BitVec 6) (r1 r2 : Reg) (s : State),
    ∀ c ∈ [(Instr.bitop op imm6 r1 r2, op), (Instr.bitset imm6 r1 r2, .set),
           (Instr.bclear imm6 r1 r2, .clear), (Instr.bchange imm6 r1 r2, .change),
           (Instr.btest imm6 r1 r2, .test)],
      ∃ t v, exec c.1 s = .next t ∧ s.wrote t [(r2, v)] ∧
        singleBitResult c.2 imm6 (s.readReg .reg1 r1) v

/-- logic, and, xor, not, nor and nand complete in every state; each of the low n bits of the destination
is the value of the truth table at the bits of r1 and r2 there (and = 0001, xor = 0110, not = 1010, nor =
1000, nand = 1110); the bits above n are those of r1; nothing else changes but pc, 4 further (D6; which
argument varies fastest is the spec's inference). (41_shift_logic.md sections 1 and 2) -/
def Obligations.LogicResults : Prop :=
  ∀ (size : Size) (f00 f10 f01 f11 : Bool) (r1 r2 r3 : Reg) (s : State),
    ∀ c ∈ [(Instr.logic size f00 f10 f01 f11 r1 r2 r3, f00, f10, f01, f11),
           (Instr.and size r1 r2 r3, false, false, false, true),
           (Instr.xor size r1 r2 r3, false, true, true, false),
           (Instr.not size r1 r2 r3, true, false, true, false),
           (Instr.nor size r1 r2 r3, true, false, false, false),
           (Instr.nand size r1 r2 r3, true, true, true, false)],
      ∃ t v, exec c.1 s = .next t ∧ s.wrote t [(r3, v)] ∧
        v >>> sizeBits size = s.readReg .reg1 r1 >>> sizeBits size ∧
        logicResult (sizeBits size) c.2.1 c.2.2.1 c.2.2.2.1 c.2.2.2.2
          (s.readReg .reg1 r1) (s.readReg .reg2 r2) v

/-- bitrev and bitrevi complete in every state; the destination is the 64-bit reversal of the source
shifted right with zeros by the amount, or what the open function SHIFT_OOR gives for an amount register
of 64 or more; nothing else changes but pc, 4 further (D28, D38). (43_bit_byte_reverse.md sections 1 and
2) -/
def Obligations.BitReversalResults : Prop :=
  ∀ (r1 r2 r3 : Reg) (imm6 : BitVec 6) (s : State),
    (∃ t v, exec (.bitrev r1 r2 r3) s = .next t ∧ s.wrote t [(r3, v)] ∧
      reversalResult (s.readReg .reg1 r1) (s.readReg .reg2 r2) v) ∧
    (∃ t v, exec (.bitrevi imm6 r1 r2) s = .next t ∧ s.wrote t [(r2, v)] ∧
      reversalResult (s.readReg .reg1 r1) (imm6.setWidth 64) v)

/-- byterev completes in every state; byte j of the low n bits of the destination is byte n/8 - 1 - j of
the source, and the bits above n are the source's; nothing else changes but pc, 4 further (D6).
(43_bit_byte_reverse.md sections 1 and 2) -/
def Obligations.ByteReversalResults : Prop :=
  ∀ (size : Size) (r1 r2 : Reg) (s : State),
    ∃ t v, exec (.byterev size r1 r2) s = .next t ∧ s.wrote t [(r2, v)] ∧
      v >>> sizeBits size = s.readReg .reg1 r1 >>> sizeBits size ∧
      ∀ j < sizeBytes size, v.extractLsb' (8 * j) 8 =
        (s.readReg .reg1 r1).extractLsb' (8 * (sizeBytes size - 1 - j)) 8

/-- If the effective address is a multiple of the width and every byte of the access exists (and imm9 is
at most 255 for loadi), load and loadi complete, the low bits of the destination hold the bytes of the
access in the chosen order, nothing is said of the bits above a narrow access (D30), and nothing else
changes but pc, 4 further (D14, D21, D46). (44_load_store_move.md section 1, 20_memory.md sections 1 and
2) -/
def Obligations.LoadResults : Prop :=
  ∀ (size : Size) (e : Endian) (r1 r2 r3 : Reg) (imm9 : BitVec 9) (s : State),
    (let ea := effectiveAddress size (s.readReg .reg1 r1) (s.readReg .reg2 r2)
     ea.toNat % sizeBytes size = 0 → s.accessExists ea (sizeBytes size) →
     ∃ t v, exec (.load size e r1 r2 r3) s = .next t ∧ s.wrote t [(r3, v)] ∧
       s.loadsBytes size e ea v) ∧
    (let ea := effectiveAddress size (s.readReg .reg1 r1) (imm9.setWidth 64)
     imm9.toNat ≤ 255 → ea.toNat % sizeBytes size = 0 → s.accessExists ea (sizeBytes size) →
     ∃ t v, exec (.loadi size e imm9 r1 r2) s = .next t ∧ s.wrote t [(r2, v)] ∧
       s.loadsBytes size e ea v)

/-- If the effective address is a multiple of the width and every byte of the access exists (and imm9 is
at most 255 for storei), store and storei complete: the bytes of the access, at the address the meaning
computes, hold the low bytes of the data register in the chosen order and count as stored to, every other
byte is as it was, no register changes, and pc is 4 further (D14, D21, D46). (44_load_store_move.md
section 1, 20_memory.md sections 1, 2 and 6) -/
def Obligations.StoreResults : Prop :=
  ∀ (size : Size) (e : Endian) (r1 r2 r3 : Reg) (imm9 : BitVec 9) (s : State),
    (let ea := effectiveAddress size (s.readReg .reg2 r2) (s.readReg .reg3 r3)
     ea.toNat % sizeBytes size = 0 → s.accessExists ea (sizeBytes size) →
     ∃ t, exec (.store size e r1 r2 r3) s = .next t ∧
       s.storedBytes t size e ea (s.readReg .reg1 r1) ∧
       s.sameRegs t [] ∧ s.sameSpecial t ∧ t.run = s.run ∧ t.pc = s.pc + 4) ∧
    (let ea := effectiveAddress size (s.readReg .reg2 r2) (imm9.setWidth 64)
     imm9.toNat ≤ 255 → ea.toNat % sizeBytes size = 0 → s.accessExists ea (sizeBytes size) →
     ∃ t, exec (.storei size e imm9 r1 r2) s = .next t ∧
       s.storedBytes t size e ea (s.readReg .reg1 r1) ∧
       s.sameRegs t [] ∧ s.sameSpecial t ∧ t.run = s.run ∧ t.pc = s.pc + 4)

/-- load, store, loadi and storei refuse an effective address that is not a multiple of the width, and
raise the memory exception for an aligned access with a byte that does not exist; loadi and storei refuse
an imm9 above 255 before anything else (D14, D21, D39, D46 are decisions of the spec).
(44_load_store_move.md section 1, 20_memory.md sections 1 and 3, 60_exceptions.md section 3) -/
def Obligations.AccessStops : Prop :=
  ∀ (size : Size) (e : Endian) (r1 r2 r3 : Reg) (imm9 : BitVec 9) (s : State),
    (∀ c ∈ [(Instr.load size e r1 r2 r3,
               effectiveAddress size (s.readReg .reg1 r1) (s.readReg .reg2 r2)),
            (Instr.store size e r1 r2 r3,
               effectiveAddress size (s.readReg .reg2 r2) (s.readReg .reg3 r3))],
      (c.2.toNat % sizeBytes size ≠ 0 → exec c.1 s = .refused .misalignedData) ∧
      (c.2.toNat % sizeBytes size = 0 → ¬ s.accessExists c.2 (sizeBytes size) →
        exec c.1 s = .fault .memoryException)) ∧
    (∀ c ∈ [(Instr.loadi size e imm9 r1 r2,
               effectiveAddress size (s.readReg .reg1 r1) (imm9.setWidth 64)),
            (Instr.storei size e imm9 r1 r2,
               effectiveAddress size (s.readReg .reg2 r2) (imm9.setWidth 64))],
      (255 < imm9.toNat → exec c.1 s = .refused .imm9Above255) ∧
      (imm9.toNat ≤ 255 → c.2.toNat % sizeBytes size ≠ 0 → exec c.1 s = .refused .misalignedData) ∧
      (imm9.toNat ≤ 255 → c.2.toNat % sizeBytes size = 0 → ¬ s.accessExists c.2 (sizeBytes size) →
        exec c.1 s = .fault .memoryException))

/-- mov completes in every state: if r1 is zero in all 64 bits nothing is written; else the low n bits of
the destination are those of r2 and the bits above are the destination's own old ones (mode 0), zeros
(mode 1) or copies of the top bit (mode 2); nothing else changes but pc, 4 further (D36 is a decision of
the spec). (44_load_store_move.md section 2) -/
def Obligations.MovResults : Prop :=
  ∀ (size : Size) (mode : HighMode) (r1 r2 r3 : Reg) (s : State),
    (s.readReg .reg1 r1 = 0 → ∃ t, exec (.mov size mode r1 r2 r3) s = .next t ∧ s.wrote t []) ∧
    (s.readReg .reg1 r1 ≠ 0 → ∃ t v, exec (.mov size mode r1 r2 r3) s = .next t ∧
      s.wrote t [(r3, v)] ∧
      lane (sizeBits size) v 0 = lane (sizeBits size) (s.readReg .reg2 r2) 0 ∧
      match mode with
      | .keep => v >>> sizeBits size = s.readReg .dest r3 >>> sizeBits size
      | .zeroExtend => v.toNat = (lane (sizeBits size) (s.readReg .reg2 r2) 0).toNat
      | .signExtend => v.toInt = (lane (sizeBits size) (s.readReg .reg2 r2) 0).toInt)

/-- A word of mov whose other must-be-zero bits are clear: with insn[11] insn[10] = 00 it is a mov that
leaves the high part of its destination unchanged, with 01 one that zero-extends, with 10 one that
sign-extends, and with 11 it is malformed. The effect is stated for a condition register that is not zero.
(R216) -/
def Obligations.MovHighPartModes : Prop :=
  ∀ (w : Insn) (s : State), fieldAt w 0 8 = Config.opc .mov → fieldAt w 12 2 = 0 →
    (flagAt w 11 = false → flagAt w 10 = false → ∃ size r1 r2 r3,
      decodeWord w = .ok (.mov size .keep r1 r2 r3) ∧ (s.readReg .reg1 r1 ≠ 0 → ∃ t v,
        exec (.mov size .keep r1 r2 r3) s = .next t ∧ s.wrote t [(r3, v)] ∧
        v >>> sizeBits size = s.readReg .dest r3 >>> sizeBits size)) ∧
    (flagAt w 11 = false → flagAt w 10 = true → ∃ size r1 r2 r3,
      decodeWord w = .ok (.mov size .zeroExtend r1 r2 r3) ∧ (s.readReg .reg1 r1 ≠ 0 → ∃ t v,
        exec (.mov size .zeroExtend r1 r2 r3) s = .next t ∧ s.wrote t [(r3, v)] ∧
        v.toNat = (s.readReg .reg2 r2).toNat % 2 ^ sizeBits size)) ∧
    (flagAt w 11 = true → flagAt w 10 = false → ∃ size r1 r2 r3,
      decodeWord w = .ok (.mov size .signExtend r1 r2 r3) ∧ (s.readReg .reg1 r1 ≠ 0 → ∃ t v,
        exec (.mov size .signExtend r1 r2 r3) s = .next t ∧ s.wrote t [(r3, v)] ∧
        v.toInt = (lane (sizeBits size) (s.readReg .reg2 r2) 0).toInt)) ∧
    (flagAt w 11 = true → flagAt w 10 = true → decodeWord w = .error .malformed)

/-- loadcons completes in every state; bits 16s to 16s+15 of the register are the constant and every other
bit is the old one; nothing else changes but pc, 4 further (D37 is a decision of the spec).
(44_load_store_move.md section 3) -/
def Obligations.LoadconsResults : Prop :=
  ∀ (shift : Fin 4) (imm16 : BitVec 16) (r1 : Reg) (s : State),
    ∃ t v, exec (.loadcons shift imm16 r1) s = .next t ∧ s.wrote t [(r1, v)] ∧
      ∀ j < 64, v.getLsbD j =
        if 16 * shift.val ≤ j ∧ j < 16 * shift.val + 16 then imm16.getLsbD (j - 16 * shift.val)
        else (s.readReg .reg1 r1).getLsbD j

/-- Every word with the opcode of loadconsx decodes to loadconsx with shift insn[8..9], constant
insn[10..25] and register insn[26..31]. It completes in every state: bits 16s to 16s+15 of the register
are the constant, every bit above is the constant's bit 15, every bit below is the old one; nothing else
changes but pc, 4 further. (R219) -/
def Obligations.LoadconsxResults : Prop :=
  (∀ w : Insn, fieldAt w 0 8 = Config.opc .loadconsx → ∃ shift imm16 r1,
    decodeWord w = .ok (.loadconsx shift imm16 r1) ∧ shift.val = (fieldAt w 8 2).toNat ∧
    imm16 = fieldAt w 10 16 ∧ r1.val = (fieldAt w 26 6).toNat) ∧
  ∀ (shift : Fin 4) (imm16 : BitVec 16) (r1 : Reg) (s : State),
    ∃ t v, exec (.loadconsx shift imm16 r1) s = .next t ∧ s.wrote t [(r1, v)] ∧
      ∀ j < 64, v.getLsbD j =
        if j < 16 * shift.val then (s.readReg .reg1 r1).getLsbD j
        else if j < 16 * shift.val + 16 then imm16.getLsbD (j - 16 * shift.val)
        else imm16.getLsbD 15

/-- cachemm completes in every state, for every size, prefetch or flush, lock and level, and changes no
general or internal register and no byte of memory; pc is 4 further (D18 is a decision of the spec).
(44_load_store_move.md section 4, 20_memory.md section 6) -/
def Obligations.CachemmChangesNothing : Prop :=
  ∀ (size : Size) (fp lock : Bool) (level : MemLevel) (r1 r2 : Reg) (s : State),
    ∃ t, exec (.cachemm size fp lock level r1 r2) s = .next t ∧ s.wrote t []

/-- A word of cachemm whose must-be-zero bits are clear is a cachemm of the level that its field
insn[12..14] names: 0 data L1, 1 instructions L1, 2 on-chip, 4 off-chip, 5 local memory, 6 global memory,
7 virtual memory; the value 3, unused, names none. (R226) -/
def Obligations.CachemmLevels : Prop :=
  ∀ w : Insn, fieldAt w 0 8 = Config.opc .cachemm → fieldAt w 15 5 = 0 →
    (∀ c ∈ [((0 : BitVec 3), MemLevel.dataL1), (1, .insnL1), (2, .onchip), (4, .offchip),
            (5, .localMem), (6, .globalMem), (7, .virtualMem)],
      fieldAt w 12 3 = c.1 → ∃ size fp lock r1 r2,
        decodeWord w = .ok (.cachemm size fp lock c.2 r1 r2)) ∧
    (fieldAt w 12 3 = 3 → ∀ i, decodeWord w ≠ .ok i)

/-- If the index (the whole of r1 for get, the zero-extended imm16 for geti) is that of an internal
register, get and geti complete and write to the destination the value last put into it if it is an RW
register that has been put, the constant of Processor ID if it is that, and in every other case a value of
which nothing is said; nothing else changes but pc, 4 further (D31, D43). (45_internal_registers.md
sections 1 and 2, 10_state.md section 5) -/
def Obligations.GetResults : Prop :=
  ∀ (n : IReg) (r1 r2 : Reg) (s : State),
    (s.readReg .reg1 r1 = (Config.irIndex n).setWidth 64 →
      ∃ t v, exec (.get r1 r2) s = .next t ∧ s.wrote t [(r2, v)] ∧ s.internalRead n v) ∧
    (∃ t v, exec (.geti (Config.irIndex n) r1) s = .next t ∧ s.wrote t [(r1, v)] ∧
      s.internalRead n v)

/-- If the index is that of an RW internal register, put and puti complete, that register holds the data
register and counts as written, the other special registers, Processor ID, the counters, MSW, every
general register and every byte of memory are as they were, and pc is 4 further (D31).
(45_internal_registers.md sections 1 and 2, 10_state.md section 5) -/
def Obligations.PutResults : Prop :=
  ∀ (n : IReg) (r1 r2 : Reg) (s : State), n ∈ readWrite →
    (s.readReg .reg2 r2 = (Config.irIndex n).setWidth 64 →
      ∃ t, exec (.put r1 r2) s = .next t ∧ s.sr.afterPut t.sr n (s.readReg .reg1 r1) ∧
        s.sameRegs t [] ∧ s.sameMemory t ∧ t.msw = s.msw ∧ t.procId = s.procId ∧
        t.counters = s.counters ∧ t.run = s.run ∧ t.pc = s.pc + 4) ∧
    (∃ t, exec (.puti (Config.irIndex n) r1) s = .next t ∧
        s.sr.afterPut t.sr n (s.readReg .reg1 r1) ∧
        s.sameRegs t [] ∧ s.sameMemory t ∧ t.msw = s.msw ∧ t.procId = s.procId ∧
        t.counters = s.counters ∧ t.run = s.run ∧ t.pc = s.pc + 4)

/-- The indices of the 17 internal registers are different numbers; get, put, geti and puti refuse an
index that is none of them, in particular one of 2^16 or more in a register, and put and puti refuse to
write a register whose access is R (D31 is a decision of the spec). (45_internal_registers.md sections 1
and 2) -/
def Obligations.InternalRegisterStops : Prop :=
  (∀ m n : IReg, Config.irIndex m = Config.irIndex n → m = n) ∧
  (∀ (r1 r2 : Reg) (s : State),
    ((∀ n, s.readReg .reg1 r1 ≠ (Config.irIndex n).setWidth 64) →
      exec (.get r1 r2) s = .refused .indexNotPopulated) ∧
    ((∀ n, s.readReg .reg2 r2 ≠ (Config.irIndex n).setWidth 64) →
      exec (.put r1 r2) s = .refused .indexNotPopulated) ∧
    (2 ^ 16 ≤ (s.readReg .reg1 r1).toNat → exec (.get r1 r2) s = .refused .indexNotPopulated) ∧
    (2 ^ 16 ≤ (s.readReg .reg2 r2).toNat → exec (.put r1 r2) s = .refused .indexNotPopulated)) ∧
  (∀ (imm16 : BitVec 16) (r1 : Reg) (s : State), (∀ n, imm16 ≠ Config.irIndex n) →
    exec (.geti imm16 r1) s = .refused .indexNotPopulated ∧
    exec (.puti imm16 r1) s = .refused .indexNotPopulated) ∧
  ∀ (n : IReg) (r1 r2 : Reg) (s : State), n ∉ readWrite →
    (s.readReg .reg2 r2 = (Config.irIndex n).setWidth 64 →
      exec (.put r1 r2) s = .refused .putToReadOnly) ∧
    exec (.puti (Config.irIndex n) r1) s = .refused .putToReadOnly

/-- If the condition (r1 not zero, its lowest bit or its highest bit, negated or not) holds and r2 is a
multiple of 4, jmpa completes with pc equal to r2; if it does not hold, jmpa completes with pc 4 further,
whatever r2 is; in both cases nothing else changes (D15, D19). (46_control_transfer.md sections 1 and 2,
10_state.md section 3) -/
def Obligations.JmpaResults : Prop :=
  ∀ (negate : Bool) (test : BitTest) (r1 r2 : Reg) (s : State),
    (jumpCondition negate test (s.readReg .reg1 r1) → (s.readReg .reg2 r2).toNat % 4 = 0 →
      ∃ t, exec (.jmpa negate test r1 r2) s = .next t ∧ t.pc = s.readReg .reg2 r2 ∧ s.framed t []) ∧
    (¬ jumpCondition negate test (s.readReg .reg1 r1) →
      ∃ t, exec (.jmpa negate test r1 r2) s = .next t ∧ s.wrote t [])

/-- jmpi with an imm12 of at most 2047 and jmpr complete with pc 4 further if r1 is zero. If it is not,
jmpi completes with pc equal to r2 + 4 imm12 if that is a multiple of 4, and jmpr with pc moved by 4 times
the signed imm18 from its own address, both modulo 2^64. Nothing else changes (D15, D21, D22, D34).
(46_control_transfer.md sections 1 and 2, 10_state.md section 3) -/
def Obligations.JmpiAndJmprResults : Prop :=
  ∀ (imm12 : BitVec 12) (imm18 : BitVec 18) (r1 r2 : Reg) (s : State),
    (imm12.toNat ≤ 2047 →
      (s.readReg .reg1 r1 = 0 → ∃ t, exec (.jmpi imm12 r1 r2) s = .next t ∧ s.wrote t []) ∧
      (s.readReg .reg1 r1 ≠ 0 → (s.readReg .reg2 r2).toNat % 4 = 0 →
        ∃ t, exec (.jmpi imm12 r1 r2) s = .next t ∧ s.framed t [] ∧
          t.pc.toNat = ((s.readReg .reg2 r2).toNat + 4 * imm12.toNat) % 2 ^ 64)) ∧
    (s.readReg .reg1 r1 = 0 → ∃ t, exec (.jmpr imm18 r1) s = .next t ∧ s.wrote t []) ∧
    (s.readReg .reg1 r1 ≠ 0 → ∃ t, exec (.jmpr imm18 r1) s = .next t ∧ s.framed t [] ∧
      (t.pc.toNat : Int) = (s.pc.toNat + 4 * imm18.toInt) % 2 ^ 64)

/-- loadaddr completes in every state and writes the address of the instruction plus the signed imm18,
modulo 2^64; nothing else changes but pc, 4 further (D22 is a decision of the spec).
(46_control_transfer.md section 2, 10_state.md section 3) -/
def Obligations.LoadaddrResults : Prop :=
  ∀ (imm18 : BitVec 18) (r1 : Reg) (s : State),
    ∃ t v, exec (.loadaddr imm18 r1) s = .next t ∧ s.wrote t [(r1, v)] ∧
      (v.toNat : Int) = (s.pc.toNat + imm18.toInt) % 2 ^ 64

/-- A word with the opcode of loopentry decodes to loopentry of register insn[26..31] if insn[8..25] are
all zero, and is malformed otherwise. loopentry completes in every state and writes pc + 4 modulo 2^64,
the address of the next instruction; nothing else changes but pc, 4 further. (R264) -/
def Obligations.LoopentryResults : Prop :=
  (∀ w : Insn, fieldAt w 0 8 = Config.opc .loopentry →
    (fieldAt w 8 18 = 0 → ∃ r1 : Reg, decodeWord w = .ok (.loopentry r1) ∧
      r1.val = (fieldAt w 26 6).toNat) ∧
    (fieldAt w 8 18 ≠ 0 → decodeWord w = .error .malformed)) ∧
  ∀ (r1 : Reg) (s : State),
    ∃ t v, exec (.loopentry r1) s = .next t ∧ s.wrote t [(r1, v)] ∧
      v.toNat = (s.pc.toNat + 4) % 2 ^ 64 ∧ v = t.pc ∧ exec (.loadaddr 4 r1) s = .next t

/-- If its register is not zero, halt completes with the run state halted, pc still at the halt, and
nothing else changed, and every later step leaves that state as it is (that the step of a halted machine
answers the same state is the choice of the model, log 22, a DESIGN CHOICE); if its register is zero, halt
is refused (D23, D24 are decisions of the spec). (47_system.md sections 1 and 2, 60_exceptions.md section
5) -/
def Obligations.HaltResults : Prop :=
  ∀ (imm18 : BitVec 18) (r1 : Reg) (s : State),
    (s.readReg .reg1 r1 ≠ 0 → ∃ t, exec (.halt imm18 r1) s = .next t ∧ t.run = .halted ∧
      t.pc = s.pc ∧ s.sameRegs t [] ∧ s.sameSpecial t ∧ s.sameMemory t ∧
      ∀ k, Host.Core.run Sys2Proof.core k t = .next t) ∧
    (s.readReg .reg1 r1 = 0 → exec (.halt imm18 r1) s = .refused .optionalOperandZero)

/-- syscall and trap raise the exception of type 5 if their register is not zero, and are refused if it is
zero; rfe is refused in every state, for the zero operand or for its lost return sequence; mix, expand and
loop are refused in every state, each by its own name (D23, D25, D27 are decisions of the spec).
(47_system.md sections 1 and 2, 60_exceptions.md sections 1 and 4, 41_shift_logic.md section 2,
46_control_transfer.md section 2) -/
def Obligations.SystemAndLostInstructionStops : Prop :=
  (∀ (imm18 : BitVec 18) (r1 : Reg) (s : State),
    (s.readReg .reg1 r1 ≠ 0 →
      exec (.syscall imm18 r1) s = .fault .syscall ∧ exec (.trap imm18 r1) s = .fault .syscall ∧
      exec (.rfe imm18 r1) s = .refused .returnSequenceLost) ∧
    (s.readReg .reg1 r1 = 0 →
      exec (.syscall imm18 r1) s = .refused .optionalOperandZero ∧
      exec (.trap imm18 r1) s = .refused .optionalOperandZero ∧
      exec (.rfe imm18 r1) s = .refused .optionalOperandZero)) ∧
  ∀ (part : Bool) (r1 r2 r3 : Reg) (s : State),
    exec (.mix part r1 r2 r3) s = .refused .mixSemanticsLost ∧
    exec (.expand part r1 r2) s = .refused .expandSemanticsLost ∧
    exec (.loop r1 r2) s = .refused .loopSemanticsLost

/-- add with saturation and carry and sub with floor and borrow are refused; add, sub, mul and div with a
second result and destination r63 are refused (for div even if the divisor is zero); jmpi with an imm12
above 2047 is refused whether or not its condition holds (D8, D21, D35, D39). (10_state.md section 2,
40_integer_arithmetic.md section 1, 46_control_transfer.md section 2, 60_exceptions.md section 3) -/
def Obligations.FormsWithoutMeaningAreRefused : Prop :=
  (∀ (size : Size) (simd : Bool) (r1 r2 r3 : Reg) (s : State),
    exec (.add size simd true true r1 r2 r3) s = .refused .clampWithSecondResult ∧
    exec (.sub size simd true true r1 r2 r3) s = .refused .clampWithSecondResult) ∧
  (∀ (size : Size) (simd signed : Bool) (r1 r2 : Reg) (s : State),
    exec (.add size simd false true r1 r2 63) s = .refused .secondDestinationAboveR63 ∧
    exec (.sub size simd false true r1 r2 63) s = .refused .secondDestinationAboveR63 ∧
    exec (.mul size simd signed true r1 r2 63) s = .refused .secondDestinationAboveR63 ∧
    exec (.div size simd signed true r1 r2 63) s = .refused .secondDestinationAboveR63) ∧
  ∀ (imm12 : BitVec 12) (r1 r2 : Reg) (s : State), 2047 < imm12.toNat →
    exec (.jmpi imm12 r1 r2) s = .refused .imm12Above2047

/-- Each of the nine floating-point mnemonics raises the exception of reason 2 in every state, whatever
its operands and flags (FP_LEVEL 0 is the decision D26 of the spec). (42_floating_point.md sections 1 and
2) -/
def Obligations.FloatingPointIsIllegal : Prop :=
  ∀ (fpSize : BitVec 2) (simd nonIeee : Bool) (rounding : Rounding) (r1 r2 r3 : Reg) (s : State),
    ∀ i ∈ [Instr.fadd fpSize simd nonIeee r1 r2 r3, .fsub fpSize simd nonIeee r1 r2 r3,
           .fmul fpSize simd nonIeee r1 r2 r3, .fdiv fpSize simd nonIeee r1 r2 r3,
           .int2f fpSize simd nonIeee rounding r1 r2, .f2int fpSize simd nonIeee rounding r1 r2,
           .finv fpSize simd nonIeee r1 r2, .fsqrt fpSize simd nonIeee r1 r2,
           .finvsqrt fpSize simd nonIeee r1 r2],
      exec i s = .fault .illegalOpcode

end
end

