-- ==== Sys2Proof/Laws/Encoding.lean ====
section
/-!
SUPPORT. How the decoder reads a word: the opcode, the codes of field values, and the fields of a word that
the encoder has put together.
-/

namespace Sys2Proof

/-! ### The numbering of bits (`INSN_BIT0`, D2) -/

/-- A field lies where its figure draws it. -/
theorem fieldAt_eq (w : Insn) (lo len : Nat) : fieldAt w lo len = w.extractLsb' lo len := rfl

theorem flagAt_eq_getLsbD (w : Insn) (k : Nat) : flagAt w k = w.getLsbD k := rfl

@[simp] theorem beside_eq {m n : Nat} (hi : BitVec m) (lo : BitVec n) : beside hi lo = hi ++ lo := rfl

/-- Two neighbouring fields of a word are one field. -/
theorem beside_fieldAt (w : Insn) (lo m n : Nat) :
    beside (fieldAt w (lo + n) m) (fieldAt w lo n) = fieldAt w lo (m + n) := by
  apply BitVec.eq_of_getLsbD_eq
  intro i hi
  simp only [beside_eq, fieldAt_eq, BitVec.getLsbD_append, BitVec.getLsbD_extractLsb']
  by_cases h : i < n
  · simp [h, hi]
  · simp [h, hi, show i - n < m by omega, show lo + n + (i - n) = lo + i by omega]

/-- The field of all the bits of a word is the word. -/
theorem fieldAt_whole (w : Insn) : fieldAt w 0 32 = w :=
  BitVec.extractLsb'_eq_self

/-- Naming r0 as a destination is no ground to reject a word (`R0_WRITE`, D9). -/
@[simp] theorem rejectsR0_eq (i : Instr) : rejectsR0 i = false := rfl

/-! ### Codes -/

theorem opOfNumber_opc (op : Op) : opOfNumber (Config.opc op) = some op := by
  cases op <;> decide

theorem opc_of_opOfNumber {n : BitVec 8} {op : Op} (h : opOfNumber n = some op) : Config.opc op = n := by
  have := List.find?_some h
  simpa using this

theorem opOfNumber_none_iff {n : BitVec 8} : opOfNumber n = none ↔ 0x32 ≤ n.toNat := by
  revert n; decide

@[simp] theorem sizeOfCode_sizeCode (size : Size) : sizeOfCode (sizeCode size) = size := by
  cases size <;> rfl

@[simp] theorem sizeCode_sizeOfCode (c : BitVec 2) : sizeCode (sizeOfCode c) = c := by
  revert c; decide

@[simp] theorem bitOperationOfCode_code (op : BitOperation) :
    bitOperationOfCode (bitOperationCode op) = op := by cases op <;> rfl

@[simp] theorem bitOperationCode_ofCode (c : BitVec 2) :
    bitOperationCode (bitOperationOfCode c) = c := by revert c; decide

@[simp] theorem highModeOfCode_code (mode : HighMode) : highModeOfCode (highModeCode mode) = some mode := by
  cases mode <;> rfl

theorem highModeCode_ofCode {c : BitVec 2} {mode : HighMode} (h : highModeOfCode c = some mode) :
    highModeCode mode = c := by revert c mode; decide

@[simp] theorem memLevelOfCode_code (level : MemLevel) : memLevelOfCode (memLevelCode level) = some level := by
  cases level <;> rfl

theorem memLevelCode_ofCode {c : BitVec 3} {level : MemLevel} (h : memLevelOfCode c = some level) :
    memLevelCode level = c := by revert c level; decide

@[simp] theorem roundingOfCode_code (r : Rounding) : roundingOfCode (roundingCode r) = some r := by
  cases r <;> rfl

theorem roundingCode_ofCode {c : BitVec 3} {r : Rounding} (h : roundingOfCode c = some r) :
    roundingCode r = c := by revert c r; decide

@[simp] theorem toFin_regField (r : Reg) : (regField r).toFin = r := rfl

@[simp] theorem regField_toFin (f : BitVec 6) : regField f.toFin = f := rfl

/-- A flag is its field of one bit. -/
theorem flagAt_eq (w : Insn) (k : Nat) : flagAt w k = (fieldAt w k 1 == 1#1) := by
  have h : ∀ x : BitVec 1, x.getLsbD 0 = (x == 1#1) := by decide
  rw [← h]
  simp [flagAt_eq_getLsbD, fieldAt_eq]

@[simp] theorem bit_eq_one (b : Bool) : (bit b == 1#1) = b := by cases b <;> rfl

@[simp] theorem bit_false : bit false = 0#1 := rfl

@[simp] theorem bit_flagAt (w : Insn) (k : Nat) : bit (flagAt w k) = fieldAt w k 1 := by
  have h : ∀ x : BitVec 1, bit (x == 1#1) = x := by decide
  rw [flagAt_eq, h]

/-! ### The fields of an encoded word -/

@[simp] theorem packR3_opcode (op : Op) (flags f14 f20 f26 : BitVec 6) :
    fieldAt (packR3 op flags f14 f20 f26) 0 8 = Config.opc op := by
  simp (disch := decide) only [fieldAt_eq, packR3, beside_eq, BitVec.extractLsb'_append_eq_of_add_le,
    BitVec.extractLsb'_eq_self]

@[simp] theorem packR3_flags (op : Op) (flags f14 f20 f26 : BitVec 6)
    (lo len : Nat) (h : 8 ≤ lo) (h' : lo + len ≤ 14) :
    fieldAt (packR3 op flags f14 f20 f26) lo len = flags.extractLsb' (lo - 8) len := by
  simp (disch := omega) only [fieldAt_eq, packR3, beside_eq, BitVec.extractLsb'_append_eq_of_le,
    BitVec.extractLsb'_append_eq_of_add_le]

@[simp] theorem packR3_f14 (op : Op) (flags f14 f20 f26 : BitVec 6) :
    fieldAt (packR3 op flags f14 f20 f26) 14 6 = f14 := by
  simp (disch := decide) only [fieldAt_eq, packR3, beside_eq, BitVec.extractLsb'_append_eq_of_le,
    BitVec.extractLsb'_append_eq_of_add_le]
  exact BitVec.extractLsb'_eq_self

@[simp] theorem packR3_f20 (op : Op) (flags f14 f20 f26 : BitVec 6) :
    fieldAt (packR3 op flags f14 f20 f26) 20 6 = f20 := by
  simp (disch := decide) only [fieldAt_eq, packR3, beside_eq, BitVec.extractLsb'_append_eq_of_le,
    BitVec.extractLsb'_append_eq_of_add_le]
  exact BitVec.extractLsb'_eq_self

@[simp] theorem packR3_f26 (op : Op) (flags f14 f20 f26 : BitVec 6) :
    fieldAt (packR3 op flags f14 f20 f26) 26 6 = f26 := by
  simp (disch := decide) only [fieldAt_eq, packR3, beside_eq, BitVec.extractLsb'_append_eq_of_le]
  exact BitVec.extractLsb'_eq_self

@[simp] theorem packI8_opcode (op : Op) (flags : BitVec 4) (imm8 : BitVec 8) (f20 f26 : BitVec 6) :
    fieldAt (packI8 op flags imm8 f20 f26) 0 8 = Config.opc op := by
  simp (disch := decide) only [fieldAt_eq, packI8, beside_eq, BitVec.extractLsb'_append_eq_of_add_le,
    BitVec.extractLsb'_eq_self]

@[simp] theorem packI8_flags (op : Op) (flags : BitVec 4) (imm8 : BitVec 8) (f20 f26 : BitVec 6)
    (lo len : Nat) (h : 8 ≤ lo) (h' : lo + len ≤ 12) :
    fieldAt (packI8 op flags imm8 f20 f26) lo len = flags.extractLsb' (lo - 8) len := by
  simp (disch := omega) only [fieldAt_eq, packI8, beside_eq, BitVec.extractLsb'_append_eq_of_le,
    BitVec.extractLsb'_append_eq_of_add_le]

@[simp] theorem packI8_imm8 (op : Op) (flags : BitVec 4) (imm8 : BitVec 8) (f20 f26 : BitVec 6) :
    fieldAt (packI8 op flags imm8 f20 f26) 12 8 = imm8 := by
  simp (disch := decide) only [fieldAt_eq, packI8, beside_eq, BitVec.extractLsb'_append_eq_of_le,
    BitVec.extractLsb'_append_eq_of_add_le]
  exact BitVec.extractLsb'_eq_self

@[simp] theorem packI8_f20 (op : Op) (flags : BitVec 4) (imm8 : BitVec 8) (f20 f26 : BitVec 6) :
    fieldAt (packI8 op flags imm8 f20 f26) 20 6 = f20 := by
  simp (disch := decide) only [fieldAt_eq, packI8, beside_eq, BitVec.extractLsb'_append_eq_of_le,
    BitVec.extractLsb'_append_eq_of_add_le]
  exact BitVec.extractLsb'_eq_self

@[simp] theorem packI8_f26 (op : Op) (flags : BitVec 4) (imm8 : BitVec 8) (f20 f26 : BitVec 6) :
    fieldAt (packI8 op flags imm8 f20 f26) 26 6 = f26 := by
  simp (disch := decide) only [fieldAt_eq, packI8, beside_eq, BitVec.extractLsb'_append_eq_of_le]
  exact BitVec.extractLsb'_eq_self

@[simp] theorem packR2_opcode (op : Op) (low : BitVec 12) (f20 f26 : BitVec 6) :
    fieldAt (packR2 op low f20 f26) 0 8 = Config.opc op := by
  simp (disch := decide) only [fieldAt_eq, packR2, beside_eq, BitVec.extractLsb'_append_eq_of_add_le,
    BitVec.extractLsb'_eq_self]

@[simp] theorem packR2_low (op : Op) (low : BitVec 12) (f20 f26 : BitVec 6)
    (lo len : Nat) (h : 8 ≤ lo) (h' : lo + len ≤ 20) :
    fieldAt (packR2 op low f20 f26) lo len = low.extractLsb' (lo - 8) len := by
  simp (disch := omega) only [fieldAt_eq, packR2, beside_eq, BitVec.extractLsb'_append_eq_of_le,
    BitVec.extractLsb'_append_eq_of_add_le]

@[simp] theorem packR2_f20 (op : Op) (low : BitVec 12) (f20 f26 : BitVec 6) :
    fieldAt (packR2 op low f20 f26) 20 6 = f20 := by
  simp (disch := decide) only [fieldAt_eq, packR2, beside_eq, BitVec.extractLsb'_append_eq_of_le,
    BitVec.extractLsb'_append_eq_of_add_le]
  exact BitVec.extractLsb'_eq_self

@[simp] theorem packR2_f26 (op : Op) (low : BitVec 12) (f20 f26 : BitVec 6) :
    fieldAt (packR2 op low f20 f26) 26 6 = f26 := by
  simp (disch := decide) only [fieldAt_eq, packR2, beside_eq, BitVec.extractLsb'_append_eq_of_le]
  exact BitVec.extractLsb'_eq_self

@[simp] theorem packI9_opcode (op : Op) (flags : BitVec 3) (imm9 : BitVec 9) (f20 f26 : BitVec 6) :
    fieldAt (packI9 op flags imm9 f20 f26) 0 8 = Config.opc op := by
  simp (disch := decide) only [fieldAt_eq, packI9, beside_eq, BitVec.extractLsb'_append_eq_of_add_le,
    BitVec.extractLsb'_eq_self]

@[simp] theorem packI9_flags (op : Op) (flags : BitVec 3) (imm9 : BitVec 9) (f20 f26 : BitVec 6)
    (lo len : Nat) (h : 8 ≤ lo) (h' : lo + len ≤ 11) :
    fieldAt (packI9 op flags imm9 f20 f26) lo len = flags.extractLsb' (lo - 8) len := by
  simp (disch := omega) only [fieldAt_eq, packI9, beside_eq, BitVec.extractLsb'_append_eq_of_le,
    BitVec.extractLsb'_append_eq_of_add_le]

@[simp] theorem packI9_imm9 (op : Op) (flags : BitVec 3) (imm9 : BitVec 9) (f20 f26 : BitVec 6) :
    fieldAt (packI9 op flags imm9 f20 f26) 11 9 = imm9 := by
  simp (disch := decide) only [fieldAt_eq, packI9, beside_eq, BitVec.extractLsb'_append_eq_of_le,
    BitVec.extractLsb'_append_eq_of_add_le]
  exact BitVec.extractLsb'_eq_self

@[simp] theorem packI9_f20 (op : Op) (flags : BitVec 3) (imm9 : BitVec 9) (f20 f26 : BitVec 6) :
    fieldAt (packI9 op flags imm9 f20 f26) 20 6 = f20 := by
  simp (disch := decide) only [fieldAt_eq, packI9, beside_eq, BitVec.extractLsb'_append_eq_of_le,
    BitVec.extractLsb'_append_eq_of_add_le]
  exact BitVec.extractLsb'_eq_self

@[simp] theorem packI9_f26 (op : Op) (flags : BitVec 3) (imm9 : BitVec 9) (f20 f26 : BitVec 6) :
    fieldAt (packI9 op flags imm9 f20 f26) 26 6 = f26 := by
  simp (disch := decide) only [fieldAt_eq, packI9, beside_eq, BitVec.extractLsb'_append_eq_of_le]
  exact BitVec.extractLsb'_eq_self

@[simp] theorem packI16_opcode (op : Op) (s : BitVec 2) (imm16 : BitVec 16) (f26 : BitVec 6) :
    fieldAt (packI16 op s imm16 f26) 0 8 = Config.opc op := by
  simp (disch := decide) only [fieldAt_eq, packI16, beside_eq, BitVec.extractLsb'_append_eq_of_add_le,
    BitVec.extractLsb'_eq_self]

@[simp] theorem packI16_s (op : Op) (s : BitVec 2) (imm16 : BitVec 16) (f26 : BitVec 6) :
    fieldAt (packI16 op s imm16 f26) 8 2 = s := by
  simp (disch := decide) only [fieldAt_eq, packI16, beside_eq, BitVec.extractLsb'_append_eq_of_le,
    BitVec.extractLsb'_append_eq_of_add_le]
  exact BitVec.extractLsb'_eq_self

@[simp] theorem packI16_imm16 (op : Op) (s : BitVec 2) (imm16 : BitVec 16) (f26 : BitVec 6) :
    fieldAt (packI16 op s imm16 f26) 10 16 = imm16 := by
  simp (disch := decide) only [fieldAt_eq, packI16, beside_eq, BitVec.extractLsb'_append_eq_of_le,
    BitVec.extractLsb'_append_eq_of_add_le]
  exact BitVec.extractLsb'_eq_self

@[simp] theorem packI16_f26 (op : Op) (s : BitVec 2) (imm16 : BitVec 16) (f26 : BitVec 6) :
    fieldAt (packI16 op s imm16 f26) 26 6 = f26 := by
  simp (disch := decide) only [fieldAt_eq, packI16, beside_eq, BitVec.extractLsb'_append_eq_of_le]
  exact BitVec.extractLsb'_eq_self

@[simp] theorem packI18_opcode (op : Op) (low : BitVec 18) (f26 : BitVec 6) :
    fieldAt (packI18 op low f26) 0 8 = Config.opc op := by
  simp (disch := decide) only [fieldAt_eq, packI18, beside_eq, BitVec.extractLsb'_append_eq_of_add_le,
    BitVec.extractLsb'_eq_self]

@[simp] theorem packI18_low (op : Op) (low : BitVec 18) (f26 : BitVec 6)
    (lo len : Nat) (h : 8 ≤ lo) (h' : lo + len ≤ 26) :
    fieldAt (packI18 op low f26) lo len = low.extractLsb' (lo - 8) len := by
  simp (disch := omega) only [fieldAt_eq, packI18, beside_eq, BitVec.extractLsb'_append_eq_of_le,
    BitVec.extractLsb'_append_eq_of_add_le]

@[simp] theorem packI18_f26 (op : Op) (low : BitVec 18) (f26 : BitVec 6) :
    fieldAt (packI18 op low f26) 26 6 = f26 := by
  simp (disch := decide) only [fieldAt_eq, packI18, beside_eq, BitVec.extractLsb'_append_eq_of_le]
  exact BitVec.extractLsb'_eq_self

@[simp] theorem fieldAt_empty (w : Insn) (lo : Nat) : fieldAt w lo 0 = 0#0 :=
  Subsingleton.elim _ _

/-- The fields of a flag area of six bits. -/
theorem flags6_fields (code : BitVec 2) (b10 b11 b12 b13 : Bool) :
    (flags6 code b10 b11 b12 b13).extractLsb' 0 2 = code ∧
    (flags6 code b10 b11 b12 b13).extractLsb' 2 1 = bit b10 ∧
    (flags6 code b10 b11 b12 b13).extractLsb' 3 1 = bit b11 ∧
    (flags6 code b10 b11 b12 b13).extractLsb' 4 1 = bit b12 ∧
    (flags6 code b10 b11 b12 b13).extractLsb' 5 1 = bit b13 := by
  revert code b10 b11 b12 b13; decide

/-- The fields of a flag area of four bits. -/
theorem flags4_fields (code : BitVec 2) (b10 b11 : Bool) :
    (flags4 code b10 b11).extractLsb' 0 2 = code ∧
    (flags4 code b10 b11).extractLsb' 2 1 = bit b10 ∧
    (flags4 code b10 b11).extractLsb' 3 1 = bit b11 := by
  revert code b10 b11; decide

@[simp] theorem flags6_zero2 (code : BitVec 2) (b10 b11 : Bool) :
    (flags6 code b10 b11 false false).extractLsb' 4 2 = 0#2 := by
  revert code b10 b11; decide

@[simp] theorem flags6_zero3 (code : BitVec 2) (b10 : Bool) :
    (flags6 code b10 false false false).extractLsb' 3 3 = 0#3 := by
  revert code b10; decide

@[simp] theorem flags6_zero4 (code : BitVec 2) :
    (flags6 code false false false false).extractLsb' 2 4 = 0#4 := by
  revert code; decide

/-- The fields of the flags of mix. -/
theorem mixFlags_fields (part : Bool) :
    (mixFlags part).extractLsb' 0 1 = bit part ∧ (mixFlags part).extractLsb' 1 5 = 0#5 := by
  revert part; decide

/-- The fields of the two-register floating-point flags (R187). -/
theorem fpLow_fields (fpSize : BitVec 2) (simd nonIeee : Bool) :
    (fpLow fpSize simd nonIeee).extractLsb' 0 2 = fpSize ∧
    (fpLow fpSize simd nonIeee).extractLsb' 2 1 = bit simd ∧
    (fpLow fpSize simd nonIeee).extractLsb' 3 1 = bit nonIeee ∧
    (fpLow fpSize simd nonIeee).extractLsb' 4 8 = 0#8 := by
  revert fpSize simd nonIeee; decide

/-- The fields of the flags of `OP_FCONV` (R186). -/
theorem fconvLow_fields (fpSize : BitVec 2) (direction simd nonIeee : Bool) (rounding : Rounding) :
    (fconvLow fpSize direction simd nonIeee rounding).extractLsb' 0 2 = fpSize ∧
    (fconvLow fpSize direction simd nonIeee rounding).extractLsb' 2 1 = bit direction ∧
    (fconvLow fpSize direction simd nonIeee rounding).extractLsb' 3 1 = bit simd ∧
    (fconvLow fpSize direction simd nonIeee rounding).extractLsb' 4 1 = bit nonIeee ∧
    (fconvLow fpSize direction simd nonIeee rounding).extractLsb' 5 3 = roundingCode rounding ∧
    (fconvLow fpSize direction simd nonIeee rounding).extractLsb' 8 4 = 0#4 := by
  cases rounding <;> (revert fpSize direction simd nonIeee; decide)

/-- The fields of the EMPTY area of byterev. -/
theorem byterevLow_fields (code : BitVec 2) :
    (byterevLow code).extractLsb' 0 2 = code ∧ (byterevLow code).extractLsb' 2 10 = 0#10 := by
  revert code; decide

/-- The fields of the EMPTY area of expand. -/
theorem expandLow_fields (part : Bool) :
    (expandLow part).extractLsb' 0 1 = bit part ∧ (expandLow part).extractLsb' 1 11 = 0#11 := by
  revert part; decide

/-- The fields of the flags of mov. -/
theorem movFlags_fields (mode code : BitVec 2) :
    (movFlags mode code).extractLsb' 0 2 = code ∧
    (movFlags mode code).extractLsb' 2 2 = mode ∧
    (movFlags mode code).extractLsb' 4 2 = 0#2 := by
  revert mode code; decide

/-- The fields of the EMPTY area of cachemm. -/
theorem cachemmLow_fields (level : BitVec 3) (code : BitVec 2) (fp lock : Bool) :
    (cachemmLow level code fp lock).extractLsb' 0 2 = code ∧
    (cachemmLow level code fp lock).extractLsb' 2 1 = bit fp ∧
    (cachemmLow level code fp lock).extractLsb' 3 1 = bit lock ∧
    (cachemmLow level code fp lock).extractLsb' 4 3 = level ∧
    (cachemmLow level code fp lock).extractLsb' 7 5 = 0#5 := by
  revert level code fp lock; decide

/-- The fields of the flags of loadi and storei. -/
theorem loadiFlags_fields (big : Bool) (code : BitVec 2) :
    (loadiFlags big code).extractLsb' 0 2 = code ∧ (loadiFlags big code).extractLsb' 2 1 = bit big := by
  revert big code; decide

/-- The fields of the EMPTY area of jmpa. -/
theorem jmpaLow_fields (negate b9 b10 : Bool) :
    (jmpaLow negate b9 b10).extractLsb' 0 1 = bit negate ∧
    (jmpaLow negate b9 b10).extractLsb' 1 1 = bit b9 ∧
    (jmpaLow negate b9 b10).extractLsb' 2 1 = bit b10 ∧
    (jmpaLow negate b9 b10).extractLsb' 3 9 = 0#9 := by
  revert negate b9 b10; decide

@[simp] theorem bitTestOfFlags_flags (test : BitTest) :
    bitTestOfFlags (bitTestFlags test).1 (bitTestFlags test).2 = some test := by
  cases test <;> rfl

theorem bitTestFlags_ofFlags {b9 b10 : Bool} {test : BitTest} (h : bitTestOfFlags b9 b10 = some test) :
    bitTestFlags test = (b9, b10) := by revert b9 b10 test; decide

@[simp] theorem endian_eq (endian : Endian) :
    (if endianCode endian = true then Endian.big else Endian.little) = endian := by
  cases endian <;> rfl

/-- How a word is decoded, from its opcode, its must-be-zero bits and its fields. -/
theorem decodeWord_eq_ok {op : Op} {w : Insn} {i : Instr} (h0 : fieldAt w 0 8 = Config.opc op)
    (hz : reservedSet op w = false) (hf : decodeFields op w = some i) :
    decodeWord w = .ok i.canonical := by
  simp [decodeWord, h0, opOfNumber_opc, hz, hf]

/-- A word with an unassigned opcode is illegal (`UNASSIGNED_OPCODE`, R98, D11). -/
theorem decodeWord_eq_illegal {w : Insn} (h : opOfNumber (fieldAt w 0 8) = none) :
    decodeWord w = .error .illegalOpcode := by
  simp [decodeWord, h, Config.unassignedOpcode]

/-- A word with a reserved bit set or a reserved field value is rejected as its opcode says (R97, R191). -/
theorem decodeWord_eq_reject {op : Op} {w : Insn} (h0 : fieldAt w 0 8 = Config.opc op)
    (h : reservedSet op w = true ∨ decodeFields op w = none) :
    decodeWord w = .error (rejectOf op) := by
  by_cases hr : reservedSet op w = true
  · simp [decodeWord, h0, opOfNumber_opc, hr]
  · simp [decodeWord, h0, opOfNumber_opc, hr, h.resolve_left hr]

/-- What the opcodes that the level implements are rejected as (`RESERVED_NONZERO`, D11, D26). -/
theorem rejectOf_eq (op : Op) :
    rejectOf op = if implementedAt Config.fpLevel op then .malformed else .illegalOpcode := rfl

/-- All that decoding to an instruction says of a word. -/
theorem decodeWord_ok {w : Insn} {i : Instr} (h : decodeWord w = .ok i) :
    ∃ op j, fieldAt w 0 8 = Config.opc op ∧ reservedSet op w = false ∧
      decodeFields op w = some j ∧ i = j.canonical := by
  unfold decodeWord at h
  split at h
  · simp at h
  · rename_i op hop
    split at h
    · simp at h
    · rename_i hz
      split at h
      · simp at h
      · rename_i j hj
        rw [rejectsR0_eq] at h
        refine ⟨op, j, (opc_of_opOfNumber hop).symm, by simpa using hz, hj, ?_⟩
        simpa using h.symm

/-- The bytes of a word, read in the order of fetch, are that word. -/
theorem decode_bytesOfWord (w : Insn) (rest : List Byte) :
    decode (bytesOfWord w ++ rest) = decodeWord w := by
  have h : w.extractLsb' 24 8 ++ w.extractLsb' 16 8 ++ w.extractLsb' 8 8 ++ w.extractLsb' 0 8 = w := by
    apply BitVec.eq_of_getLsbD_eq
    intro i hi
    simp only [BitVec.getLsbD_append, BitVec.getLsbD_extractLsb']
    by_cases h1 : i < 8
    · simp [h1]
    · by_cases h2 : i - 8 < 8
      · simp [h1, h2, show 8 + (i - 8) = i by omega]
      · by_cases h3 : i - 8 - 8 < 8
        · simp [h1, h2, h3, show 16 + (i - 8 - 8) = i by omega]
        · simp [h1, h2, h3, show 24 + (i - 8 - 8 - 8) = i by omega, show i - 8 - 8 - 8 < 8 by omega]
  show decodeWord (w.extractLsb' 24 8 ++ w.extractLsb' 16 8 ++ w.extractLsb' 8 8 ++ w.extractLsb' 0 8) =
    decodeWord w
  rw [h]

end Sys2Proof
end

