-- ==== Sys2Proof/Laws/Memory.lean ====
section
/-!
SUPPORT. The laws of memory: read after write, the frame of a write, existence of addresses, and the
canonical form that every operation keeps.
-/

namespace Sys2Proof.Machine

/-! ### One byte -/

theorem Memory.byteAt_put (m : Memory) (b : Nat) (v : Byte) (c : Nat) :
    Memory.byteAt (Memory.put m b v) c = if b = c then some v else Memory.byteAt m c := by
  induction m with
  | nil => simp [Memory.put, Memory.byteAt]
  | cons e rest ih =>
    obtain ⟨a, x⟩ := e
    simp only [Memory.put]
    split
    · simp [Memory.byteAt]
    · split
      · subst b; simp only [Memory.byteAt]; split <;> rfl
      · simp only [Memory.byteAt, ih]
        split
        · subst a; rw [if_neg (by assumption)]
        · rfl

theorem Memory.byteAt_isSome (m : Memory) (a : Nat) :
    (Memory.byteAt m a).isSome = true ↔ a ∈ m.map Prod.fst := by
  induction m with
  | nil => simp [Memory.byteAt]
  | cons e rest ih =>
    obtain ⟨b, x⟩ := e
    simp only [Memory.byteAt, List.map_cons, List.mem_cons]
    split
    · simp_all
    · rw [ih]; constructor
      · exact Or.inr
      · rintro (h | h)
        · exact absurd h.symm (by assumption)
        · exact h

/-! ### The canonical form -/

theorem risingFrom_mono {low low' : Nat} {l : List Nat} (hl : low' ≤ low)
    (h : risingFrom low l = true) : risingFrom low' l = true := by
  cases l with
  | nil => rfl
  | cons a rest =>
    simp only [risingFrom, Bool.and_eq_true, decide_eq_true_eq] at h ⊢
    exact ⟨⟨hl.trans h.1.1, h.1.2⟩, h.2⟩

theorem risingFrom_le {low : Nat} {l : List Nat} (h : risingFrom low l = true) {a : Nat}
    (ha : a ∈ l) : low ≤ a ∧ a < 2 ^ 64 := by
  induction l generalizing low with
  | nil => simp at ha
  | cons b rest ih =>
    simp only [risingFrom, Bool.and_eq_true, decide_eq_true_eq] at h
    rcases List.mem_cons.1 ha with rfl | ha
    · exact ⟨h.1.1, h.1.2⟩
    · have := ih h.2 ha; omega

theorem risingFrom_insertAddress {low : Nat} {l : List Nat} {b : Nat}
    (h : risingFrom low l = true) (hb : low ≤ b) (hb' : b < 2 ^ 64) :
    risingFrom low (insertAddress l b) = true := by
  induction l generalizing low with
  | nil =>
    simp only [insertAddress, risingFrom, Bool.and_eq_true, decide_eq_true_eq]
    exact ⟨⟨hb, hb'⟩, trivial⟩
  | cons a rest ih =>
    have h' := h
    simp only [risingFrom, Bool.and_eq_true, decide_eq_true_eq] at h
    simp only [insertAddress]
    split
    · simp only [risingFrom, Bool.and_eq_true, decide_eq_true_eq]
      exact ⟨⟨hb, hb'⟩, ⟨by omega, h.1.2⟩, h.2⟩
    · split
      · exact h'
      · simp only [risingFrom, Bool.and_eq_true, decide_eq_true_eq]
        exact ⟨h.1, ih h.2 (by omega)⟩

theorem mem_insertAddress {l : List Nat} {b c : Nat} :
    c ∈ insertAddress l b ↔ c = b ∨ c ∈ l := by
  induction l with
  | nil => simp [insertAddress]
  | cons a rest ih =>
    simp only [insertAddress]
    split
    · simp
    · split
      · subst b; simp
      · simp only [List.mem_cons, ih]
        tauto

theorem insertAddress_of_mem {low : Nat} {l : List Nat} {b : Nat} (h : risingFrom low l = true)
    (hb : b ∈ l) : insertAddress l b = l := by
  induction l generalizing low with
  | nil => simp at hb
  | cons a rest ih =>
    simp only [risingFrom, Bool.and_eq_true, decide_eq_true_eq] at h
    simp only [insertAddress]
    rcases List.mem_cons.1 hb with rfl | hb
    · simp
    · have := (risingFrom_le h.2 hb).1
      rw [if_neg (by omega), if_neg (by omega), ih h.2 hb]

theorem mem_foldl_insertAddress {as l : List Nat} {c : Nat} :
    c ∈ as.foldl insertAddress l ↔ c ∈ as ∨ c ∈ l := by
  induction as generalizing l with
  | nil => simp
  | cons a rest ih => simp only [List.foldl_cons, ih, mem_insertAddress, List.mem_cons]; tauto

theorem risingFrom_foldl_insertAddress {as l : List Nat} (h : risingFrom 0 l = true)
    (ha : ∀ a ∈ as, a < 2 ^ 64) : risingFrom 0 (as.foldl insertAddress l) = true := by
  induction as generalizing l with
  | nil => exact h
  | cons a rest ih =>
    exact ih (risingFrom_insertAddress h (Nat.zero_le _) (ha a (by simp)))
      fun b hb => ha b (List.mem_cons_of_mem _ hb)

theorem Memory.map_fst_put (m : Memory) (b : Nat) (v : Byte) :
    (Memory.put m b v).map Prod.fst = insertAddress (m.map Prod.fst) b := by
  induction m with
  | nil => rfl
  | cons e rest ih =>
    obtain ⟨a, x⟩ := e
    simp only [Memory.put, List.map_cons, insertAddress]
    split
    · rfl
    · split
      · simp_all
      · simp [ih]

/-- A write of one byte keeps the canonical form. -/
theorem Memory.wf_put {m : Memory} {b : Nat} {v : Byte} (h : Memory.wf m = true) (hb : b < 2 ^ 64) :
    Memory.wf (Memory.put m b v) = true := by
  unfold Memory.wf at *
  rw [Memory.map_fst_put]
  exact risingFrom_insertAddress h (Nat.zero_le _) hb

/-! ### Lists of bytes -/

theorem byteAddress_lt (a : Word) (k : Nat) : byteAddress a k < 2 ^ 64 := BitVec.isLt _

theorem byteAddress_eq (a : Word) (k : Nat) : byteAddress a k = (a.toNat + k) % 2 ^ 64 := by
  simp [byteAddress, BitVec.toNat_add]

@[simp] theorem length_touched (a : Word) (count : Nat) : (touched a count).length = count := by
  simp [touched]

theorem mem_touched {a : Word} {count c : Nat} :
    c ∈ touched a count ↔ ∃ k < count, byteAddress a k = c := by
  simp [touched]

theorem touched_lt {a : Word} {count c : Nat} (h : c ∈ touched a count) : c < 2 ^ 64 := by
  obtain ⟨k, _, rfl⟩ := mem_touched.1 h
  exact byteAddress_lt a k

theorem touched_nodup (a : Word) {count : Nat} (h : count ≤ 2 ^ 64) : (touched a count).Nodup := by
  unfold touched
  rw [List.nodup_map_iff_inj_on List.nodup_range]
  intro i hi j hj hij
  simp only [List.mem_range] at hi hj
  rw [byteAddress_eq, byteAddress_eq] at hij
  have := a.isLt
  omega

theorem Memory.byteAt_putAll_of_not_mem (m : Memory) {as : List Nat} {vs : List Byte} {c : Nat}
    (h : c ∉ as) : Memory.byteAt (Memory.putAll m as vs) c = Memory.byteAt m c := by
  induction as generalizing m vs with
  | nil => simp [Memory.putAll]
  | cons a rest ih =>
    cases vs with
    | nil => simp [Memory.putAll]
    | cons v vs =>
      simp only [List.mem_cons, not_or] at h
      rw [Memory.putAll, ih _ h.2, Memory.byteAt_put, if_neg (Ne.symm h.1)]

theorem Memory.byteAt_putAll_getElem (m : Memory) {as : List Nat} {vs : List Byte} (hn : as.Nodup)
    (hl : as.length = vs.length) (k : Nat) (hk : k < as.length) :
    Memory.byteAt (Memory.putAll m as vs) as[k] = some (vs[k]'(hl ▸ hk)) := by
  induction as generalizing m vs k with
  | nil => simp at hk
  | cons a rest ih =>
    cases vs with
    | nil => simp at hl
    | cons v vs =>
      simp only [List.nodup_cons] at hn
      cases k with
      | zero =>
        simp only [Memory.putAll, List.getElem_cons_zero]
        rw [Memory.byteAt_putAll_of_not_mem _ hn.1, Memory.byteAt_put, if_pos rfl]
      | succ k =>
        simp only [Memory.putAll, List.getElem_cons_succ]
        exact ih _ hn.2 (by simpa using hl) k (by simpa using hk)

theorem Memory.wf_putAll {m : Memory} {as : List Nat} {vs : List Byte} (h : Memory.wf m = true)
    (ha : ∀ a ∈ as, a < 2 ^ 64) : Memory.wf (Memory.putAll m as vs) = true := by
  induction as generalizing m vs with
  | nil => simpa [Memory.putAll] using h
  | cons a rest ih =>
    cases vs with
    | nil => simpa [Memory.putAll] using h
    | cons v vs =>
      exact ih (Memory.wf_put h (ha a (by simp))) fun b hb => ha b (List.mem_cons_of_mem _ hb)

/-- Writing bytes at addresses that exist changes no address. -/
theorem Memory.map_fst_putAll {m : Memory} {as : List Nat} {vs : List Byte} (h : Memory.wf m = true)
    (ha : ∀ a ∈ as, a ∈ m.map Prod.fst) :
    (Memory.putAll m as vs).map Prod.fst = m.map Prod.fst := by
  induction as generalizing m vs with
  | nil => simp [Memory.putAll]
  | cons a rest ih =>
    cases vs with
    | nil => simp [Memory.putAll]
    | cons v vs =>
      have hp : (Memory.put m a v).map Prod.fst = m.map Prod.fst := by
        rw [Memory.map_fst_put]; exact insertAddress_of_mem h (ha a (by simp))
      have hw : Memory.wf (Memory.put m a v) = true := by
        unfold Memory.wf at *; rw [hp]; exact h
      rw [Memory.putAll, ih hw fun b hb => by rw [hp]; exact ha b (List.mem_cons_of_mem _ hb), hp]

theorem Memory.bytesAt_eq_some {m : Memory} {as : List Nat} {vs : List Byte} :
    Memory.bytesAt m as = some vs ↔ as.map (Memory.byteAt m) = vs.map some := by
  induction as generalizing vs with
  | nil => cases vs <;> simp [Memory.bytesAt]
  | cons a rest ih =>
    simp only [Memory.bytesAt, List.map_cons]
    cases ha : Memory.byteAt m a with
    | none => cases vs <;> simp
    | some v =>
      cases hr : Memory.bytesAt m rest with
      | none =>
        cases vs with
        | nil => simp
        | cons w ws =>
          simp only [List.map_cons, List.cons.injEq, reduceCtorEq, false_iff, not_and]
          intro _ h; rw [← ih, hr] at h; simp at h
      | some us =>
        have := (ih (vs := us)).1 hr
        rw [this]
        cases vs with
        | nil => simp
        | cons w ws =>
          simp only [Option.some.injEq, List.cons.injEq, List.map_cons]
          constructor
          · rintro ⟨rfl, rfl⟩; exact ⟨rfl, rfl⟩
          · rintro ⟨h1, h2⟩
            exact ⟨h1, (List.map_injective_iff.2 (Option.some_injective _)) h2⟩

theorem Memory.bytesAt_eq_none {m : Memory} {as : List Nat} :
    Memory.bytesAt m as = none ↔ ∃ a ∈ as, Memory.byteAt m a = none := by
  induction as with
  | nil => simp [Memory.bytesAt]
  | cons a rest ih =>
    simp only [Memory.bytesAt, List.mem_cons, exists_eq_or_imp]
    rw [← ih]
    cases ha : Memory.byteAt m a <;> cases hr : Memory.bytesAt m rest <;> simp

theorem Memory.length_bytesAt {m : Memory} {as : List Nat} {vs : List Byte}
    (h : Memory.bytesAt m as = some vs) : vs.length = as.length := by
  have := congrArg List.length (Memory.bytesAt_eq_some.1 h)
  simpa using this.symm

theorem Memory.bytesAt_getElem {m : Memory} {as : List Nat} {vs : List Byte}
    (h : Memory.bytesAt m as = some vs) (k : Nat) (hk : k < as.length) :
    Memory.byteAt m as[k] = some (vs[k]'(by rw [Memory.length_bytesAt h]; exact hk)) := by
  have := Memory.bytesAt_eq_some.1 h
  have h2 := congrArg (fun l : List (Option Byte) => l[k]?) this
  simp only [List.getElem?_map] at h2
  rw [List.getElem?_eq_getElem hk,
    List.getElem?_eq_getElem (by rw [Memory.length_bytesAt h]; exact hk)] at h2
  simpa using h2

theorem Memory.bytesAt_isSome {m : Memory} {as : List Nat}
    (h : ∀ a ∈ as, (Memory.byteAt m a).isSome = true) : ∃ vs, Memory.bytesAt m as = some vs := by
  cases hb : Memory.bytesAt m as with
  | some vs => exact ⟨vs, rfl⟩
  | none =>
    obtain ⟨a, ha, hn⟩ := Memory.bytesAt_eq_none.1 hb
    have := h a ha
    rw [hn] at this
    simp at this

/-! ### Numbers and bytes -/

@[simp] theorem length_bytesOfNumber (count v : Nat) : (bytesOfNumber count v).length = count := by
  induction count generalizing v with
  | zero => rfl
  | succ n ih => simp [bytesOfNumber, ih]

theorem getElem_bytesOfNumber (count v k : Nat) (hk : k < (bytesOfNumber count v).length) :
    (bytesOfNumber count v)[k] = BitVec.ofNat 8 (v / 256 ^ k) := by
  induction count generalizing v k with
  | zero => simp at hk
  | succ n ih =>
    cases k with
    | zero => simp [bytesOfNumber]
    | succ k =>
      simp only [bytesOfNumber, List.getElem_cons_succ]
      rw [ih, Nat.div_div_eq_div_mul, Nat.pow_succ, Nat.mul_comm]

theorem numberOfBytes_lt (bs : List Byte) : numberOfBytes bs < 256 ^ bs.length := by
  induction bs with
  | nil => simp [numberOfBytes]
  | cons b bs ih =>
    simp only [numberOfBytes, List.length_cons, Nat.pow_succ]
    have := b.isLt
    omega

theorem numberOfBytes_bytesOfNumber (count v : Nat) :
    numberOfBytes (bytesOfNumber count v) = v % 256 ^ count := by
  induction count generalizing v with
  | zero => simp [bytesOfNumber, numberOfBytes, Nat.mod_one]
  | succ n ih =>
    simp only [bytesOfNumber, numberOfBytes, ih, BitVec.toNat_ofNat]
    rw [show 256 ^ (n + 1) = 256 * 256 ^ n by rw [Nat.pow_succ, Nat.mul_comm], Nat.mod_mul]

theorem numberOfBytes_byte (bs : List Byte) (k : Nat) (hk : k < bs.length) :
    numberOfBytes bs / 256 ^ k % 256 = bs[k].toNat := by
  induction bs generalizing k with
  | nil => simp at hk
  | cons b bs ih =>
    have hb := b.isLt
    cases k with
    | zero => simp [numberOfBytes]; omega
    | succ k =>
      simp only [List.getElem_cons_succ, numberOfBytes]
      rw [← ih k (by simpa using hk), Nat.pow_succ, Nat.mul_comm (256 ^ k) 256,
        ← Nat.div_div_eq_div_mul]
      congr 2
      omega

@[simp] theorem length_inOrder (e : Endian) (bs : List Byte) : (inOrder e bs).length = bs.length := by
  cases e <;> simp [inOrder]

@[simp] theorem inOrder_inOrder (e : Endian) (bs : List Byte) : inOrder e (inOrder e bs) = bs := by
  cases e <;> simp [inOrder]

/-! ### Accesses (R52, R53) -/

theorem sizeBytes_pos (size : Size) : 0 < sizeBytes size := by cases size <;> decide

theorem sizeBytes_le (size : Size) : sizeBytes size ≤ 8 := by cases size <;> decide

theorem sizeBits_eq (size : Size) : sizeBits size = 8 * sizeBytes size := by cases size <;> rfl

theorem Memory.read_eq_some {m : Memory} {a : Word} {size : Size} {e : Endian}
    {v : BitVec (sizeBits size)} :
    Memory.read m a size e = some v ↔ ∃ bs, Memory.bytesAt m (touched a (sizeBytes size)) = some bs ∧
      v = BitVec.ofNat (sizeBits size) (numberOfBytes (inOrder e bs)) := by
  simp only [Memory.read, Option.map_eq_some_iff]
  exact exists_congr fun bs => and_congr_right fun _ => eq_comm

/-- All that a write can do. -/
theorem Memory.write_eq_some {m m' : Memory} {a : Word} {size : Size} {e : Endian} {v : Word} :
    Memory.write m a size e v = some m' ↔
      (∃ bs, Memory.bytesAt m (touched a (sizeBytes size)) = some bs) ∧
      m' = Memory.putAll m (touched a (sizeBytes size))
        (inOrder e (bytesOfNumber (sizeBytes size) v.toNat)) := by
  unfold Memory.write
  split <;> rename_i h <;> simp [h, eq_comm]

theorem Memory.write_eq_none {m : Memory} {a : Word} {size : Size} {e : Endian} {v : Word} :
    Memory.write m a size e v = none ↔
      ∃ b ∈ touched a (sizeBytes size), Memory.byteAt m b = none := by
  unfold Memory.write
  rw [← Memory.bytesAt_eq_none]
  split <;> rename_i h <;> simp [h]

theorem Memory.byteAt_write_of_not_mem {m m' : Memory} {a : Word} {size : Size} {e : Endian}
    {v : Word} (h : Memory.write m a size e v = some m') {c : Nat}
    (hc : c ∉ touched a (sizeBytes size)) : Memory.byteAt m' c = Memory.byteAt m c := by
  rw [(Memory.write_eq_some.1 h).2, Memory.byteAt_putAll_of_not_mem _ hc]

theorem Memory.bytesAt_write {m m' : Memory} {a : Word} {size : Size} {e : Endian}
    {v : Word} (h : Memory.write m a size e v = some m') :
    Memory.bytesAt m' (touched a (sizeBytes size)) =
      some (inOrder e (bytesOfNumber (sizeBytes size) v.toNat)) := by
  rw [Memory.bytesAt_eq_some, (Memory.write_eq_some.1 h).2]
  apply List.ext_getElem (by simp)
  intro k h1 h2
  have hn := touched_nodup a (count := sizeBytes size) (by have := sizeBytes_le size; omega)
  simp only [List.getElem_map]
  exact Memory.byteAt_putAll_getElem m hn (by simp) k (by simpa using h1)

theorem Memory.wf_write {m m' : Memory} {a : Word} {size : Size} {e : Endian} {v : Word}
    (hw : Memory.wf m = true) (h : Memory.write m a size e v = some m') : Memory.wf m' = true := by
  rw [(Memory.write_eq_some.1 h).2]
  exact Memory.wf_putAll hw fun _ => touched_lt

theorem Memory.map_fst_write {m m' : Memory} {a : Word} {size : Size} {e : Endian} {v : Word}
    (hw : Memory.wf m = true) (h : Memory.write m a size e v = some m') :
    m'.map Prod.fst = m.map Prod.fst := by
  obtain ⟨⟨bs, hb⟩, rfl⟩ := Memory.write_eq_some.1 h
  refine Memory.map_fst_putAll hw fun b hm => ?_
  rw [← Memory.byteAt_isSome]
  cases hx : Memory.byteAt m b with
  | some _ => rfl
  | none =>
    have := Memory.bytesAt_eq_none.2 ⟨b, hm, hx⟩
    rw [hb] at this
    simp at this

/-- The memory of the reset state has the canonical form. -/
theorem reset_memory_wf : Memory.wf State.reset.mem = true := rfl

end Sys2Proof.Machine
end

