-- ==== Sys2Proof/Laws/Operands.lean ====
section
/-!
SUPPORT. What operand forms and lane results are, bit by bit, lane by lane and as numbers.
-/

namespace Sys2Proof.Machine

/-! ### Sizes and lanes -/

theorem sizeBits_pos (size : Size) : 0 < sizeBits size := by cases size <;> decide

theorem sizeBits_le (size : Size) : sizeBits size ≤ 64 := by cases size <;> decide

theorem sizeBits_mul_lanes (size : Size) : sizeBits size * lanes (sizeBits size) = 64 := by
  cases size <;> decide

theorem lanes_pos (size : Size) : 0 < lanes (sizeBits size) := by cases size <;> decide

theorem getLsbD_lane (n : Nat) (v : Word) (k i : Nat) :
    (lane n v k).getLsbD i = (decide (i < n) && v.getLsbD (n * k + i)) := by
  simp [lane, BitVec.getLsbD_extractLsb']

theorem lane_toNat (n : Nat) (v : Word) (k : Nat) :
    (lane n v k).toNat = v.toNat / 2 ^ (n * k) % 2 ^ n := by
  simp [lane, BitVec.extractLsb'_toNat, Nat.shiftRight_eq_div_pow]

/-! ### `himerge` -/

theorem getLsbD_himerge (n : Nat) (src : Word) (w : BitVec n) (j : Nat) :
    (himerge n src w).getLsbD j =
      if j < n then decide (j < 64) && w.getLsbD j else src.getLsbD j := by
  by_cases hn : 64 ≤ n
  · simp only [himerge, if_pos hn, BitVec.getLsbD_setWidth]
    by_cases h : j < n
    · rw [if_pos h]
    · rw [if_neg h, BitVec.getLsbD_of_ge src j (by omega), BitVec.getLsbD_of_ge w j (by omega),
        Bool.and_false]
  simp only [himerge, if_neg hn, BitVec.getLsbD_or, BitVec.getLsbD_shiftLeft,
    BitVec.getLsbD_ushiftRight, BitVec.getLsbD_setWidth]
  by_cases h : j < n
  · simp [h]
  · have h1 : w.getLsbD j = false := BitVec.getLsbD_of_ge _ _ (by omega)
    rw [if_neg h, h1, show n + (j - n) = j by omega]
    by_cases h64 : j < 64
    · simp [h, h64]
    · simp [h64, BitVec.getLsbD_of_ge src j (by omega)]

theorem lane_himerge (n : Nat) (hn : n ≤ 64) (src : Word) (w : BitVec n) :
    lane n (himerge n src w) 0 = w := by
  apply BitVec.eq_of_getLsbD_eq
  intro i hi
  rw [getLsbD_lane, Nat.mul_zero, Nat.zero_add, getLsbD_himerge, if_pos hi]
  simp [hi, show i < 64 by omega]

theorem himerge_ushiftRight (n : Nat) (src : Word) (w : BitVec n) :
    himerge n src w >>> n = src >>> n := by
  apply BitVec.eq_of_getLsbD_eq
  intro i _
  simp only [BitVec.getLsbD_ushiftRight, getLsbD_himerge]
  rw [if_neg (by omega)]

/-! ### `joinLanes` -/

theorem getLsbD_joinLanes (n : Nat) (hn : 0 < n) (f : Nat → BitVec n) (count j : Nat) :
    (joinLanes n f count).getLsbD j =
      (decide (j < 64) && (decide (j / n < count) && (f (j / n)).getLsbD (j % n))) := by
  induction count with
  | zero => simp [joinLanes]
  | succ c ih =>
    simp only [joinLanes, BitVec.getLsbD_or, BitVec.getLsbD_shiftLeft, BitVec.getLsbD_setWidth, ih]
    by_cases h64 : j < 64
    · simp only [h64, decide_true, Bool.true_and]
      rcases Nat.lt_trichotomy (j / n) c with h | h | h
      · have hj : j < n * c := by
          rw [Nat.mul_comm]; exact (Nat.div_lt_iff_lt_mul hn).1 h
        simp [h, Nat.lt_succ_of_lt h, hj]
      · have hd := Nat.div_add_mod j n
        rw [h] at hd
        have hj : ¬ j < n * c := by omega
        have hm : j - n * c = j % n := by omega
        simp [h, hj, hm, show j % n < 64 by omega]
      · have hj : n * c + n ≤ j := by
          rw [← Nat.mul_succ, Nat.mul_comm]; exact (Nat.le_div_iff_mul_le hn).1 h
        have hge : (f c).getLsbD (j - n * c) = false := BitVec.getLsbD_of_ge _ _ (by omega)
        simp [show ¬ j / n < c by omega, show ¬ j / n < c + 1 by omega, hge]
    · simp [h64]

theorem lane_joinLanes (n : Nat) (hn : 0 < n) (f : Nat → BitVec n) (count k : Nat) (hk : k < count)
    (hc : n * count ≤ 64) : lane n (joinLanes n f count) k = f k := by
  apply BitVec.eq_of_getLsbD_eq
  intro i hi
  have h1 : (n * k + i) / n = k := by
    rw [Nat.mul_add_div hn, Nat.div_eq_of_lt hi, Nat.add_zero]
  have h2 : (n * k + i) % n = i := by rw [Nat.mul_add_mod, Nat.mod_eq_of_lt hi]
  have h3 : n * k + n ≤ n * count := by
    rw [← Nat.mul_succ]; exact Nat.mul_le_mul_left n hk
  rw [getLsbD_lane, getLsbD_joinLanes n hn, h1, h2]
  simp [hi, hk, show n * k + i < 64 by omega]

/-! ### The two results of a sized operation (R121, R122) -/

theorem mergeHigh_eq (n : Nat) (src old : Word) (w : BitVec n) :
    mergeHigh n src old w = himerge n src w := rfl

/-- Every lane that the operation works on holds its result. -/
theorem lane_firstResult (size : Size) (simd : Bool) (src old : Word)
    (f : Nat → BitVec (sizeBits size)) (k : Nat)
    (hk : k = 0 ∨ simd = true ∧ k < lanes (sizeBits size)) :
    lane (sizeBits size) (firstResult (sizeBits size) simd src old f) k = f k := by
  cases simd with
  | true =>
    have hk' : k < lanes (sizeBits size) := by
      rcases hk with rfl | h
      · exact lanes_pos size
      · exact h.2
    exact lane_joinLanes _ (sizeBits_pos size) f _ k hk' (sizeBits_mul_lanes size).le
  | false =>
    obtain rfl : k = 0 := by simpa using hk
    exact lane_himerge _ (sizeBits_le size) src (f 0)

/-- A scalar first result has the first source's bits above the operand size. -/
theorem firstResult_high (n : Nat) (src old : Word) (f : Nat → BitVec n) :
    firstResult n false src old f >>> n = src >>> n :=
  himerge_ushiftRight n src (f 0)

theorem lane_secondResult (size : Size) (simd : Bool) (open64 : Word)
    (f : Nat → BitVec (sizeBits size)) (k : Nat)
    (hk : k = 0 ∨ simd = true ∧ k < lanes (sizeBits size)) :
    lane (sizeBits size) (secondResult (sizeBits size) simd open64 f) k = f k := by
  cases simd with
  | true =>
    have hk' : k < lanes (sizeBits size) := by
      rcases hk with rfl | h
      · exact lanes_pos size
      · exact h.2
    exact lane_joinLanes _ (sizeBits_pos size) f _ k hk' (sizeBits_mul_lanes size).le
  | false =>
    obtain rfl : k = 0 := by simpa using hk
    exact lane_himerge _ (sizeBits_le size) open64 (f 0)

/-- Which lanes `anyLane` tests. -/
theorem anyLane_eq_true (size : Size) (simd : Bool) (v : Word) (p : BitVec (sizeBits size) → Bool) :
    anyLane (sizeBits size) simd v p = true ↔
      ∃ k, (k = 0 ∨ simd = true ∧ k < lanes (sizeBits size)) ∧ p (lane (sizeBits size) v k) = true := by
  have h0 := lanes_pos size
  cases simd with
  | false => simp [anyLane]
  | true =>
    simp only [anyLane, if_true, List.any_eq_true, List.mem_range, true_and]
    constructor
    · rintro ⟨k, hk, h⟩; exact ⟨k, Or.inr hk, h⟩
    · rintro ⟨k, rfl | hk, h⟩
      · exact ⟨0, h0, h⟩
      · exact ⟨k, hk, h⟩

/-! ### Lane results as numbers -/

theorem addLane_fst_toNat (n : Nat) (saturate : Bool) (a b : BitVec n) :
    (addLane n saturate a b).1.toNat =
      if saturate = true ∧ 2 ^ n ≤ a.toNat + b.toNat then 2 ^ n - 1 else (a.toNat + b.toNat) % 2 ^ n := by
  simp only [addLane, Bool.and_eq_true, decide_eq_true_eq]
  split <;> simp [BitVec.toNat_add]

theorem addLane_snd_toNat (n : Nat) (hn : 0 < n) (saturate : Bool) (a b : BitVec n) :
    (addLane n saturate a b).2.toNat = if 2 ^ n ≤ a.toNat + b.toNat then 1 else 0 := by
  simp only [addLane, decide_eq_true_eq]
  split
  · simpa using Nat.mod_eq_of_lt (Nat.one_lt_two_pow hn.ne')
  · simp

theorem subLane_fst_toNat (n : Nat) (floor : Bool) (a b : BitVec n) :
    (subLane n floor a b).1.toNat =
      if a.toNat < b.toNat then (if floor = true then 0 else 2 ^ n + a.toNat - b.toNat)
      else a.toNat - b.toNat := by
  have ha := a.isLt
  have hb := b.isLt
  simp only [subLane, Bool.and_eq_true, decide_eq_true_eq]
  by_cases h : a.toNat < b.toNat
  · by_cases hf : floor = true
    · simp [h, hf]
    · rw [if_neg (by simp [hf]), if_pos h, if_neg hf, BitVec.toNat_sub, Nat.mod_eq_of_lt (by omega)]
      omega
  · simp only [h, and_false, if_false, BitVec.toNat_sub]
    rw [show 2 ^ n - b.toNat + a.toNat = 2 ^ n + (a.toNat - b.toNat) by omega, Nat.add_mod_left,
      Nat.mod_eq_of_lt (by omega)]

theorem subLane_snd (n : Nat) (floor : Bool) (a b : BitVec n) :
    (subLane n floor a b).2 = if a.toNat < b.toNat then BitVec.allOnes n else 0 := by
  simp only [subLane, decide_eq_true_eq]

/-- The operand of a multiplication as an integer (R126). -/
def lanesInt {n : Nat} (signed : Bool) (a : BitVec n) : Int :=
  if signed then a.toInt else (a.toNat : Int)

theorem mulLane_product (n : Nat) (signed : Bool) (a b : BitVec n) :
    (((mulLane n signed a b).1.toNat + 2 ^ n * (mulLane n signed a b).2.toNat : Nat) : Int) =
      lanesInt signed a * lanesInt signed b % 2 ^ (2 * n) := by
  have key : ∀ p : BitVec (2 * n),
      ((p.extractLsb' 0 n).toNat + 2 ^ n * (p.extractLsb' n n).toNat) = p.toNat := by
    intro p
    have hp : p.toNat < 2 ^ n * 2 ^ n := by
      rw [← Nat.pow_add, ← two_mul]; exact p.isLt
    simp only [BitVec.extractLsb'_toNat, Nat.shiftRight_eq_div_pow, Nat.pow_zero, Nat.div_one]
    rw [Nat.mod_eq_of_lt (a := p.toNat / 2 ^ n)
      ((Nat.div_lt_iff_lt_mul (Nat.two_pow_pos n)).2 hp)]
    exact Nat.mod_add_div _ _
  cases signed with
  | false =>
    have e : mulLane n false a b =
        ((a.setWidth (2 * n) * b.setWidth (2 * n)).extractLsb' 0 n,
         (a.setWidth (2 * n) * b.setWidth (2 * n)).extractLsb' n n) := rfl
    rw [e]
    simp only [key, lanesInt, BitVec.toNat_mul, BitVec.toNat_setWidth]
    rw [Nat.mod_eq_of_lt (a := a.toNat), Nat.mod_eq_of_lt (a := b.toNat)]
    · push_cast; simp
    · exact b.isLt.trans_le (Nat.pow_le_pow_right (by decide) (by omega))
    · exact a.isLt.trans_le (Nat.pow_le_pow_right (by decide) (by omega))
  | true =>
    have e : mulLane n true a b =
        ((a.signExtend (2 * n) * b.signExtend (2 * n)).extractLsb' 0 n,
         (a.signExtend (2 * n) * b.signExtend (2 * n)).extractLsb' n n) := rfl
    rw [e]
    simp only [key, lanesInt, if_true, BitVec.signExtend, ← BitVec.ofInt_mul, BitVec.toNat_ofInt]
    push_cast
    rw [Int.toNat_of_nonneg (Int.emod_nonneg _ (by positivity))]

theorem divLane_exact (n : Nat) (signed : Bool) (a b : BitVec n)
    (h : signed = false ∨ a.msb = false ∧ b.msb = false) : divLane n signed a b = (a / b, a % b) := by
  unfold divLane
  rcases h with rfl | ⟨h1, h2⟩
  · simp
  · simp [h1, h2]

theorem divLane_corner (n : Nat) (a b : BitVec n) (h : a.msb = true ∨ b.msb = true) :
    divLane n true a b = Config.divSignedCorner n a b := by
  unfold divLane
  rcases h with h | h <;> simp [h]

/-! ### Shifts and rotations -/

theorem shiftLane_out_of_range (n : Nat) (right signed : Bool) (v : BitVec n) (cnt : Word)
    (h : n ≤ cnt.toNat) : shiftLane n right signed v cnt = Config.shiftOor n v cnt right signed := by
  simp [shiftLane, h]

theorem shiftLane_left (n : Nat) (signed : Bool) (v : BitVec n) (cnt : Word) (h : cnt.toNat < n) :
    (shiftLane n false signed v cnt).toNat = v.toNat * 2 ^ cnt.toNat % 2 ^ n := by
  simp [shiftLane, Nat.not_le.2 h, BitVec.toNat_shiftLeft, Nat.shiftLeft_eq]

theorem shiftLane_right_logical (n : Nat) (v : BitVec n) (cnt : Word) (h : cnt.toNat < n) :
    (shiftLane n true false v cnt).toNat = v.toNat / 2 ^ cnt.toNat := by
  simp [shiftLane, Nat.not_le.2 h, BitVec.toNat_ushiftRight, Nat.shiftRight_eq_div_pow]

theorem shiftLane_right_arithmetic (n : Nat) (v : BitVec n) (cnt : Word) (h : cnt.toNat < n) :
    (shiftLane n true true v cnt).toInt = v.toInt / 2 ^ cnt.toNat := by
  simp [shiftLane, Nat.not_le.2 h, BitVec.toInt_sshiftRight, Int.shiftRight_eq_div_pow]

theorem getLsbD_rotLane_left (n : Nat) (hn : 0 < n) (v : BitVec n) (cnt i : Nat) (hi : i < n) :
    (rotLane n false v cnt).getLsbD i = v.getLsbD ((i + (n - cnt % n)) % n) := by
  have hc := Nat.mod_lt cnt hn
  simp only [rotLane, Bool.not_false, if_true, BitVec.getLsbD_or, BitVec.getLsbD_shiftLeft,
    BitVec.getLsbD_ushiftRight]
  by_cases h : i < cnt % n
  · rw [Nat.mod_eq_of_lt (a := i + (n - cnt % n)) (by omega)]
    simp [h, hi, Nat.add_comm]
  · rw [show i + (n - cnt % n) = n + (i - cnt % n) by omega, Nat.add_mod_left,
      Nat.mod_eq_of_lt (a := i - cnt % n) (by omega),
      BitVec.getLsbD_of_ge v (n - cnt % n + i) (by omega)]
    simp [h, hi]

theorem getLsbD_rotLane_right (n : Nat) (hn : 0 < n) (v : BitVec n) (cnt i : Nat) (hi : i < n) :
    (rotLane n true v cnt).getLsbD i = v.getLsbD ((i + cnt % n) % n) := by
  have hc := Nat.mod_lt cnt hn
  simp only [rotLane, Bool.not_true, Bool.false_eq_true, if_false, BitVec.getLsbD_or,
    BitVec.getLsbD_shiftLeft, BitVec.getLsbD_ushiftRight]
  by_cases h : i + cnt % n < n
  · rw [Nat.mod_eq_of_lt h, Nat.add_comm]
    simp [show i < n - cnt % n by omega]
  · rw [show i + cnt % n = n + (i - (n - cnt % n)) by omega, Nat.add_mod_left,
      Nat.mod_eq_of_lt (a := i - (n - cnt % n)) (by omega),
      BitVec.getLsbD_of_ge v (cnt % n + i) (by omega)]
    simp [show ¬ i < n - cnt % n by omega, hi]

/-! ### Logic and single bits -/

/-- The truth table of R166: f(p, q). -/
def truth (f00 f10 f01 f11 p q : Bool) : Bool :=
  match p, q with
  | false, false => f00
  | true, false => f10
  | false, true => f01
  | true, true => f11

theorem getLsbD_spread (n : Nat) (b : Bool) (i : Nat) (hi : i < n) : (spread n b).getLsbD i = b := by
  cases b <;> simp [spread, hi]

theorem getLsbD_logicLane (n : Nat) (f00 f10 f01 f11 : Bool) (a b : BitVec n) (i : Nat) (hi : i < n) :
    (logicLane n f00 f10 f01 f11 a b).getLsbD i =
      truth f00 f10 f01 f11 (a.getLsbD i) (b.getLsbD i) := by
  simp only [logicLane, BitVec.getLsbD_or, BitVec.getLsbD_and, BitVec.getLsbD_not,
    getLsbD_spread n _ i hi, hi, decide_true, Bool.true_and]
  cases a.getLsbD i <;> cases b.getLsbD i <;> simp [truth]

theorem getLsbD_one_shiftLeft (k j : Nat) (hk : k < 64) :
    ((1 : Word) <<< k).getLsbD j = decide (j = k) := by
  rw [BitVec.getLsbD_shiftLeft]
  by_cases h : j = k
  · subst j; simp [hk]
  · simp only [h, decide_false]
    by_cases h2 : j < k
    · simp [h2]
    · have : (1 : Word).getLsbD (j - k) = false := by
        rw [show (1 : Word) = 1#64 from rfl, BitVec.getLsbD_one]
        simp; omega
      rw [this, Bool.and_false]

theorem getLsbD_bitOperation (op : BitOperation) (imm6 : BitVec 6) (a : Word) (j : Nat) (hj : j < 64) :
    (bitOperation op imm6 a).getLsbD j =
      if j = imm6.toNat then
        (match op with
        | .set => true
        | .clear => false
        | .change => !a.getLsbD j
        | .test => a.getLsbD j)
      else
        (match op with
        | .set | .clear | .change => a.getLsbD j
        | .test => false) := by
  have h := getLsbD_one_shiftLeft imm6.toNat j imm6.isLt
  cases op <;>
    simp only [bitOperation, BitVec.getLsbD_or, BitVec.getLsbD_and, BitVec.getLsbD_xor,
      BitVec.getLsbD_not, h, hj, decide_true, Bool.true_and] <;>
    by_cases e : j = imm6.toNat <;> simp [e]

/-! ### Reversal -/

theorem testBit_reverseBits (count v j : Nat) :
    (reverseBits count v).testBit j = (decide (j < count) && v.testBit (count - 1 - j)) := by
  induction count generalizing v with
  | zero => simp [reverseBits]
  | succ c ih =>
    have hlt : ∀ c v, reverseBits c v < 2 ^ c := by
      intro c
      induction c with
      | zero => intro v; simp [reverseBits]
      | succ c ih =>
        intro v
        simp only [reverseBits]
        have := ih (v / 2)
        have h2 : 2 ^ (c + 1) = 2 * 2 ^ c := by rw [Nat.pow_succ, Nat.mul_comm]
        rcases Nat.mod_two_eq_zero_or_one v with h | h <;> rw [h] <;> omega
    simp only [reverseBits]
    rw [Nat.testBit_two_pow_mul_add _ (hlt c _)]
    by_cases h : j < c
    · rw [if_pos h, ih]
      simp only [h, decide_true, Bool.true_and, show j < c + 1 by omega]
      rw [show c + 1 - 1 - j = (c - 1 - j) + 1 by omega, Nat.testBit_succ]
    · rw [if_neg h]
      by_cases hj : j = c
      · subst j
        simp [Nat.testBit_zero]
      · simp only [show ¬ j < c + 1 by omega, decide_false, Bool.false_and]
        rw [Nat.testBit_lt_two_pow]
        calc v % 2 < 2 := Nat.mod_lt _ (by decide)
          _ = 2 ^ 1 := rfl
          _ ≤ 2 ^ (j - c) := Nat.pow_le_pow_right (by decide) (by omega)

theorem getLsbD_rev64 (v : Word) (j : Nat) (hj : j < 64) :
    (rev64 v).getLsbD j = v.getLsbD (63 - j) := by
  simp only [rev64, BitVec.getLsbD_ofNat, testBit_reverseBits, hj, decide_true, Bool.true_and]
  rfl

theorem rev64_rev64 (v : Word) : rev64 (rev64 v) = v := by
  apply BitVec.eq_of_getLsbD_eq
  intro i hi
  rw [getLsbD_rev64 _ i hi, getLsbD_rev64 _ _ (by omega)]
  congr 1
  omega

end Sys2Proof.Machine
end

