-- ==== Sys2Proof/Laws/State.lean ====
section
/-!
SUPPORT. What each update of the state leaves in each field: one lemma per field per update.
-/

namespace Sys2Proof.Machine

/-! ### `State.writeReg` -/

@[simp] theorem State.writeReg_regs (s : State) (r : Reg) (v : Word) :
    (s.writeReg r v).regs = if r = 0 then s.regs else s.regs.set r v := rfl

@[simp] theorem State.writeReg_written (s : State) (r : Reg) (v : Word) :
    (s.writeReg r v).written = if r = 0 then s.written else s.written.set r true := rfl

@[simp] theorem State.writeReg_pc (s : State) (r : Reg) (v : Word) :
    (s.writeReg r v).pc = s.pc := rfl

@[simp] theorem State.writeReg_msw (s : State) (r : Reg) (v : Word) :
    (s.writeReg r v).msw = s.msw := rfl

@[simp] theorem State.writeReg_sr (s : State) (r : Reg) (v : Word) :
    (s.writeReg r v).sr = s.sr := rfl

@[simp] theorem State.writeReg_procId (s : State) (r : Reg) (v : Word) :
    (s.writeReg r v).procId = s.procId := rfl

@[simp] theorem State.writeReg_counters (s : State) (r : Reg) (v : Word) :
    (s.writeReg r v).counters = s.counters := rfl

@[simp] theorem State.writeReg_mem (s : State) (r : Reg) (v : Word) :
    (s.writeReg r v).mem = s.mem := rfl

@[simp] theorem State.writeReg_storedTo (s : State) (r : Reg) (v : Word) :
    (s.writeReg r v).storedTo = s.storedTo := rfl

@[simp] theorem State.writeReg_run (s : State) (r : Reg) (v : Word) :
    (s.writeReg r v).run = s.run := rfl

@[simp] theorem State.writeReg_draws (s : State) (r : Reg) (v : Word) :
    (s.writeReg r v).draws = s.draws := rfl

/-! ### `State.advance` -/

@[simp] theorem State.advance_regs (s : State) : (s.advance).regs = s.regs := rfl

@[simp] theorem State.advance_written (s : State) : (s.advance).written = s.written := rfl

@[simp] theorem State.advance_pc (s : State) : (s.advance).pc = s.pc + 4 := rfl

@[simp] theorem State.advance_msw (s : State) : (s.advance).msw = s.msw := rfl

@[simp] theorem State.advance_sr (s : State) : (s.advance).sr = s.sr := rfl

@[simp] theorem State.advance_procId (s : State) : (s.advance).procId = s.procId := rfl

@[simp] theorem State.advance_counters (s : State) : (s.advance).counters = s.counters := rfl

@[simp] theorem State.advance_mem (s : State) : (s.advance).mem = s.mem := rfl

@[simp] theorem State.advance_storedTo (s : State) : (s.advance).storedTo = s.storedTo := rfl

@[simp] theorem State.advance_run (s : State) : (s.advance).run = s.run := rfl

@[simp] theorem State.advance_draws (s : State) : (s.advance).draws = s.draws + 1 := rfl

/-! ### `State.goto` -/

@[simp] theorem State.goto_regs (s : State) (t : Word) : (s.goto t).regs = s.regs := rfl

@[simp] theorem State.goto_written (s : State) (t : Word) : (s.goto t).written = s.written := rfl

@[simp] theorem State.goto_pc (s : State) (t : Word) : (s.goto t).pc = t := rfl

@[simp] theorem State.goto_msw (s : State) (t : Word) : (s.goto t).msw = s.msw := rfl

@[simp] theorem State.goto_sr (s : State) (t : Word) : (s.goto t).sr = s.sr := rfl

@[simp] theorem State.goto_procId (s : State) (t : Word) : (s.goto t).procId = s.procId := rfl

@[simp] theorem State.goto_counters (s : State) (t : Word) :
    (s.goto t).counters = s.counters := rfl

@[simp] theorem State.goto_mem (s : State) (t : Word) : (s.goto t).mem = s.mem := rfl

@[simp] theorem State.goto_storedTo (s : State) (t : Word) :
    (s.goto t).storedTo = s.storedTo := rfl

@[simp] theorem State.goto_run (s : State) (t : Word) : (s.goto t).run = s.run := rfl

@[simp] theorem State.goto_draws (s : State) (t : Word) : (s.goto t).draws = s.draws + 1 := rfl

/-! ### `State.stored` -/

@[simp] theorem State.stored_regs (s : State) (m : Memory) (l : List Nat) :
    (s.stored m l).regs = s.regs := rfl

@[simp] theorem State.stored_written (s : State) (m : Memory) (l : List Nat) :
    (s.stored m l).written = s.written := rfl

@[simp] theorem State.stored_pc (s : State) (m : Memory) (l : List Nat) :
    (s.stored m l).pc = s.pc := rfl

@[simp] theorem State.stored_msw (s : State) (m : Memory) (l : List Nat) :
    (s.stored m l).msw = s.msw := rfl

@[simp] theorem State.stored_sr (s : State) (m : Memory) (l : List Nat) :
    (s.stored m l).sr = s.sr := rfl

@[simp] theorem State.stored_procId (s : State) (m : Memory) (l : List Nat) :
    (s.stored m l).procId = s.procId := rfl

@[simp] theorem State.stored_counters (s : State) (m : Memory) (l : List Nat) :
    (s.stored m l).counters = s.counters := rfl

@[simp] theorem State.stored_mem (s : State) (m : Memory) (l : List Nat) :
    (s.stored m l).mem = m := rfl

@[simp] theorem State.stored_storedTo (s : State) (m : Memory) (l : List Nat) :
    (s.stored m l).storedTo = l.foldl insertAddress s.storedTo := rfl

@[simp] theorem State.stored_run (s : State) (m : Memory) (l : List Nat) :
    (s.stored m l).run = s.run := rfl

@[simp] theorem State.stored_draws (s : State) (m : Memory) (l : List Nat) :
    (s.stored m l).draws = s.draws := rfl

/-! ### `State.withSpecial` -/

@[simp] theorem State.withSpecial_regs (s : State) (x : SpecialRegs) :
    (s.withSpecial x).regs = s.regs := rfl

@[simp] theorem State.withSpecial_written (s : State) (x : SpecialRegs) :
    (s.withSpecial x).written = s.written := rfl

@[simp] theorem State.withSpecial_pc (s : State) (x : SpecialRegs) :
    (s.withSpecial x).pc = s.pc := rfl

@[simp] theorem State.withSpecial_msw (s : State) (x : SpecialRegs) :
    (s.withSpecial x).msw = s.msw := rfl

@[simp] theorem State.withSpecial_sr (s : State) (x : SpecialRegs) :
    (s.withSpecial x).sr = x := rfl

@[simp] theorem State.withSpecial_procId (s : State) (x : SpecialRegs) :
    (s.withSpecial x).procId = s.procId := rfl

@[simp] theorem State.withSpecial_counters (s : State) (x : SpecialRegs) :
    (s.withSpecial x).counters = s.counters := rfl

@[simp] theorem State.withSpecial_mem (s : State) (x : SpecialRegs) :
    (s.withSpecial x).mem = s.mem := rfl

@[simp] theorem State.withSpecial_storedTo (s : State) (x : SpecialRegs) :
    (s.withSpecial x).storedTo = s.storedTo := rfl

@[simp] theorem State.withSpecial_run (s : State) (x : SpecialRegs) :
    (s.withSpecial x).run = s.run := rfl

@[simp] theorem State.withSpecial_draws (s : State) (x : SpecialRegs) :
    (s.withSpecial x).draws = s.draws := rfl

/-! ### `State.halted` -/

@[simp] theorem State.halted_regs (s : State) : (s.halted).regs = s.regs := rfl

@[simp] theorem State.halted_written (s : State) : (s.halted).written = s.written := rfl

@[simp] theorem State.halted_pc (s : State) : (s.halted).pc = s.pc := rfl

@[simp] theorem State.halted_msw (s : State) : (s.halted).msw = s.msw := rfl

@[simp] theorem State.halted_sr (s : State) : (s.halted).sr = s.sr := rfl

@[simp] theorem State.halted_procId (s : State) : (s.halted).procId = s.procId := rfl

@[simp] theorem State.halted_counters (s : State) : (s.halted).counters = s.counters := rfl

@[simp] theorem State.halted_mem (s : State) : (s.halted).mem = s.mem := rfl

@[simp] theorem State.halted_storedTo (s : State) : (s.halted).storedTo = s.storedTo := rfl

@[simp] theorem State.halted_run (s : State) : (s.halted).run = .halted := rfl

@[simp] theorem State.halted_draws (s : State) : (s.halted).draws = s.draws := rfl

/-! ### `State.placeWord` -/

@[simp] theorem State.placeWord_regs (s : State) (w : Insn) : (s.placeWord w).regs = s.regs := rfl

@[simp] theorem State.placeWord_written (s : State) (w : Insn) :
    (s.placeWord w).written = s.written := rfl

@[simp] theorem State.placeWord_pc (s : State) (w : Insn) : (s.placeWord w).pc = s.pc := rfl

@[simp] theorem State.placeWord_msw (s : State) (w : Insn) : (s.placeWord w).msw = s.msw := rfl

@[simp] theorem State.placeWord_sr (s : State) (w : Insn) : (s.placeWord w).sr = s.sr := rfl

@[simp] theorem State.placeWord_procId (s : State) (w : Insn) :
    (s.placeWord w).procId = s.procId := rfl

@[simp] theorem State.placeWord_counters (s : State) (w : Insn) :
    (s.placeWord w).counters = s.counters := rfl

@[simp] theorem State.placeWord_mem (s : State) (w : Insn) :
    (s.placeWord w).mem = Memory.putAll s.mem (touched s.pc 4) (bytesOfWord w) := rfl

@[simp] theorem State.placeWord_storedTo (s : State) (w : Insn) :
    (s.placeWord w).storedTo = s.storedTo.filter fun a => !(touched s.pc 4).contains a := rfl

@[simp] theorem State.placeWord_run (s : State) (w : Insn) : (s.placeWord w).run = .running := rfl

@[simp] theorem State.placeWord_draws (s : State) (w : Insn) :
    (s.placeWord w).draws = s.draws := rfl

end Sys2Proof.Machine
end

