-- ==== Sys2Proof/Laws/Ops.lean ====
section
/-!
SUPPORT. One lemma for each shared operation that says all it can do, and the lemmas of register reads and
writes that results and frames are made of.
-/

namespace Sys2Proof.Machine

/-! ### General registers -/

@[simp] theorem readReg_zero (s : State) (site : Config.DrawSite) : s.readReg site 0 = 0 := rfl

@[simp] theorem writeReg_zero (s : State) (v : Word) : s.writeReg 0 v = s := rfl

theorem readReg_writeReg_self (s : State) (site : Config.DrawSite) {r : Reg} (v : Word) (h : r ≠ 0) :
    (s.writeReg r v).readReg site r = v := by
  simp [State.readReg, h]

theorem holds_of_written {t : State} {r : Reg} {v : Word} (hr : t.regs[r] = v)
    (hw : t.written[r] = true) (h : r ≠ 0) : t.holds r v := by
  intro site
  simp only [State.readReg, h, if_false, hw, if_true, hr]

theorem regs_writeReg_self (s : State) {r : Reg} (v : Word) (h : r ≠ 0) :
    (s.writeReg r v).regs[r] = v ∧ (s.writeReg r v).written[r] = true := by
  simp [h]

theorem holds_writeReg (s : State) {r : Reg} (v : Word) (h : r ≠ 0) : (s.writeReg r v).holds r v :=
  fun site => readReg_writeReg_self s site v h

theorem regs_writeReg_of_ne (s : State) {r q : Reg} (v : Word) (h : q ≠ r) :
    (s.writeReg r v).regs[q] = s.regs[q] ∧ (s.writeReg r v).written[q] = s.written[q] := by
  have h' : r.val ≠ q.val := fun e => h (Fin.ext e.symm)
  by_cases hr : r = 0
  · simp [hr]
  · simp only [State.writeReg_regs, State.writeReg_written, hr, if_false, Fin.getElem_fin]
    exact ⟨Vector.getElem_set_ne _ _ h', Vector.getElem_set_ne _ _ h'⟩

theorem regs_writeReg_slot_zero (s : State) (r : Reg) (v : Word) :
    (s.writeReg r v).regs[(0 : Reg)] = s.regs[(0 : Reg)] ∧
      (s.writeReg r v).written[(0 : Reg)] = s.written[(0 : Reg)] := by
  by_cases hr : r = 0
  · subst hr; exact ⟨rfl, rfl⟩
  · exact regs_writeReg_of_ne s v (Ne.symm hr)

theorem sameRegs_refl (s : State) (ds : List Reg) : s.sameRegs s ds := fun _ _ => ⟨rfl, rfl⟩

theorem sameRegs_writeReg (s : State) (r : Reg) (v : Word) : s.sameRegs (s.writeReg r v) [r] := by
  rintro q (rfl | h)
  · exact regs_writeReg_slot_zero s r v
  · exact regs_writeReg_of_ne s v (by simpa using h)

theorem dest2_eq_some {d d2 : Reg} : dest2 d = some d2 ↔ d.val < 63 ∧ d2 = d + 1 := by
  unfold dest2 Config.dest2
  split
  · rename_i h
    have h1 : (d + 1).val = d.val + 1 := by
      rw [Fin.val_add_one_of_lt']; exact h
    constructor
    · rintro ⟨⟩; exact ⟨by omega, Fin.ext h1.symm⟩
    · rintro ⟨_, rfl⟩; congr 1; exact Fin.ext h1.symm
  · simp; omega

theorem dest2_eq_none {d : Reg} : dest2 d = none ↔ d.val = 63 := by
  have := d.isLt
  unfold dest2 Config.dest2
  split <;> simp <;> omega

/-! ### The end of an instruction -/

theorem complete_eq (s : State) : complete s = .next s.advance := rfl

theorem wrote_nothing (s : State) : s.wrote s.advance [] :=
  ⟨by simp, ⟨fun _ _ => ⟨rfl, rfl⟩, ⟨rfl, rfl, rfl, rfl⟩, ⟨fun _ => rfl, rfl⟩, rfl⟩, rfl⟩

theorem wrote_one (s : State) (d : Reg) (v : Word) : s.wrote (s.writeReg d v).advance [(d, v)] := by
  refine ⟨?_, ⟨?_, ⟨rfl, rfl, rfl, rfl⟩, ⟨fun _ => rfl, rfl⟩, rfl⟩, rfl⟩
  · intro w hw h
    obtain rfl : w = (d, v) := by simpa using hw
    exact holds_of_written (regs_writeReg_self s v h).1 (regs_writeReg_self s v h).2 h
  · exact sameRegs_writeReg s d v

/-- Two results in two different registers; the second is not register 0. -/
theorem wrote_two (s : State) {d e : Reg} (v w : Word) (hde : d ≠ e) (he : e ≠ 0) :
    s.wrote ((s.writeReg d v).writeReg e w).advance [(d, v), (e, w)] := by
  refine ⟨?_, ⟨?_, ⟨rfl, rfl, rfl, rfl⟩, ⟨fun _ => rfl, rfl⟩, rfl⟩, rfl⟩
  · intro p hp h
    rcases (by simpa using hp : p = (d, v) ∨ p = (e, w)) with rfl | rfl
    · have h1 := regs_writeReg_of_ne (s.writeReg d v) w hde
      have h2 := regs_writeReg_self s v h
      exact holds_of_written (h1.1.trans h2.1) (h1.2.trans h2.2) h
    · have h2 := regs_writeReg_self (s.writeReg d v) w he
      exact holds_of_written h2.1 h2.2 he
  · intro q hq
    rcases hq with rfl | hq
    · have h1 := regs_writeReg_slot_zero (s.writeReg d v) e w
      have h2 := regs_writeReg_slot_zero s d v
      exact ⟨h1.1.trans h2.1, h1.2.trans h2.2⟩
    · have hq' : q ≠ d ∧ q ≠ e := by simpa using hq
      have h1 := regs_writeReg_of_ne (s.writeReg d v) w hq'.2
      have h2 := regs_writeReg_of_ne s v hq'.1
      exact ⟨h1.1.trans h2.1, h1.2.trans h2.2⟩

/-- All that the end of a sized three-register form can do. -/
theorem writeResults_cases (s : State) (size : Size) (simd second : Bool) (src : Word) (d : Reg)
    (f : Nat → BitVec (sizeBits size) × BitVec (sizeBits size)) :
    writeResults s size simd second src d f =
      if second = true ∧ d.val = 63 then .refused .secondDestinationAboveR63
      else if second = true then
        .next ((s.writeReg d (firstResult (sizeBits size) simd src (s.readReg .dest d) fun k =>
          (f k).1)).writeReg (d + 1)
            (secondResult (sizeBits size) simd (s.drawAt .highBits) fun k => (f k).2)).advance
      else
        .next (s.writeReg d
          (firstResult (sizeBits size) simd src (s.readReg .dest d) fun k => (f k).1)).advance := by
  unfold writeResults
  cases second with
  | false => simp [complete]
  | true =>
    cases h : dest2 d with
    | none => simp [dest2_eq_none.1 h]
    | some d2 =>
      obtain ⟨h1, rfl⟩ := dest2_eq_some.1 h
      simp [complete, show d.val ≠ 63 by omega]

/-- The results and the frame of a sized form that completes. -/
theorem writeResults_wrote (s : State) (size : Size) (simd second : Bool) (src : Word) (d : Reg)
    (f : Nat → BitVec (sizeBits size) × BitVec (sizeBits size)) (h : second = true → d.val < 63) :
    ∃ t v w, writeResults s size simd second src d f = .next t ∧
      s.wrote t ((d, v) :: if second then [(d + 1, w)] else []) ∧
      (∀ k, workedOn (sizeBits size) simd k →
        lane (sizeBits size) v k = (f k).1 ∧ (second = true → lane (sizeBits size) w k = (f k).2)) ∧
      keepsHigh (sizeBits size) simd v src := by
  refine ⟨if second then
      ((s.writeReg d (firstResult (sizeBits size) simd src (s.readReg .dest d) fun k =>
          (f k).1)).writeReg (d + 1)
            (secondResult (sizeBits size) simd (s.drawAt .highBits) fun k => (f k).2)).advance
    else (s.writeReg d
          (firstResult (sizeBits size) simd src (s.readReg .dest d) fun k => (f k).1)).advance,
    firstResult (sizeBits size) simd src (s.readReg .dest d) fun k => (f k).1,
    secondResult (sizeBits size) simd (s.drawAt .highBits) fun k => (f k).2, ?_, ?_, ?_, ?_⟩
  · rw [writeResults_cases]
    cases second with
    | false => simp
    | true => have := h rfl; simp [show d.val ≠ 63 by omega]
  · cases second with
    | false => exact wrote_one s d _
    | true =>
      have h1 : (d + 1).val = d.val + 1 := by
        rw [Fin.val_add_one_of_lt']; have := h rfl; omega
      exact wrote_two s _ _ (fun e => by rw [← e] at h1; omega) fun e => by rw [e] at h1; simp at h1
  · intro k hk
    exact ⟨lane_firstResult size simd src _ _ k hk, fun _ => lane_secondResult size simd _ _ k hk⟩
  · rintro rfl
    exact firstResult_high _ src _ _

theorem writeLow_eq (s : State) (size : Size) (src : Word) (d : Reg) (w : BitVec (sizeBits size)) :
    writeLow s size src d w = .next (s.writeReg d (himerge (sizeBits size) src w)).advance := rfl

/-! ### Exceptions -/

/-- Taking an exception ends the run with it (`TRAP_MODEL` = `fault_stop`, R312). -/
@[simp] theorem raise_eq (e : Fault) : raise e = .fault e := rfl

/-! ### Jumps -/

theorem aligned_iff {a : Word} {n : Nat} : aligned a n = true ↔ a.toNat % n = 0 := by
  simp [aligned]

theorem jumpTo_eq (s : State) (t : Word) :
    jumpTo s t = if aligned t 4 then .next (s.goto t) else .refused .misalignedTarget := rfl

theorem jumpTo_cases (s : State) (t : Word) :
    jumpTo s t = if t.toNat % 4 = 0 then .next (s.goto t) else .refused .misalignedTarget := by
  rw [jumpTo_eq]
  simp only [aligned_iff]

theorem jumpIf_cases (s : State) (cond : Bool) (t : Word) :
    jumpIf s cond t =
      if cond = true then (if t.toNat % 4 = 0 then .next (s.goto t) else .refused .misalignedTarget)
      else .next s.advance := by
  simp only [jumpIf, jumpTo_cases, complete_eq]

/-! ### Memory -/

/-- A misaligned access is refused (`MISALIGNED_DATA`, D14). -/
theorem accessAt_eq (ea : Word) (bytes : Nat) (access : Word → Outcome) :
    accessAt ea bytes access = if aligned ea bytes then access ea else .refused .misalignedData := rfl

/-- The bits above a narrow load are the free value of the load (`LOAD_HIGH`, D30). -/
theorem loadHighBits_eq (s : State) (size : Size) (d : Reg) (v : BitVec (sizeBits size)) :
    loadHighBits s size d v = s.drawAt .highBits := rfl

/-- All that the access of a load can do. -/
theorem loadFrom_cases (s : State) (size : Size) (e : Endian) (ea : Word) (d : Reg) :
    (ea.toNat % sizeBytes size ≠ 0 ∧ loadFrom s size e ea d = .refused .misalignedData) ∨
    (ea.toNat % sizeBytes size = 0 ∧
      (∃ a ∈ touched ea (sizeBytes size), Memory.byteAt s.mem a = none) ∧
      loadFrom s size e ea d = .fault .memoryException) ∨
    (ea.toNat % sizeBytes size = 0 ∧ ∃ v, Memory.read s.mem ea size e = some v ∧
      loadFrom s size e ea d =
        .next (s.writeReg d (himerge (sizeBits size) (s.drawAt .highBits) v)).advance) := by
  rw [loadFrom, accessAt_eq]
  by_cases h : ea.toNat % sizeBytes size = 0
  · simp only [aligned_iff.2 h, if_true]
    cases hr : Memory.read s.mem ea size e with
    | some v => exact Or.inr (Or.inr ⟨h, v, rfl, rfl⟩)
    | none =>
      refine Or.inr (Or.inl ⟨h, ?_, rfl⟩)
      rw [← Memory.bytesAt_eq_none]
      simpa [Memory.read] using hr
  · exact Or.inl ⟨h, by simp [show aligned ea (sizeBytes size) = false by simpa [aligned] using h]⟩

/-- All that the access of a store can do. -/
theorem storeTo_cases (s : State) (size : Size) (e : Endian) (ea v : Word) :
    (ea.toNat % sizeBytes size ≠ 0 ∧ storeTo s size e ea v = .refused .misalignedData) ∨
    (ea.toNat % sizeBytes size = 0 ∧
      (∃ a ∈ touched ea (sizeBytes size), Memory.byteAt s.mem a = none) ∧
      storeTo s size e ea v = .fault .memoryException) ∨
    (ea.toNat % sizeBytes size = 0 ∧ ∃ m, Memory.write s.mem ea size e v = some m ∧
      storeTo s size e ea v = .next (s.stored m (touched ea (sizeBytes size))).advance) := by
  rw [storeTo, accessAt_eq]
  by_cases h : ea.toNat % sizeBytes size = 0
  · simp only [aligned_iff.2 h, if_true]
    cases hr : Memory.write s.mem ea size e v with
    | some m => exact Or.inr (Or.inr ⟨h, m, rfl, rfl⟩)
    | none => exact Or.inr (Or.inl ⟨h, Memory.write_eq_none.1 hr, rfl⟩)
  · exact Or.inl ⟨h, by simp [show aligned ea (sizeBytes size) = false by simpa [aligned] using h]⟩

/-! ### Internal registers -/

theorem irIndex_injective {m n : IReg} (h : Config.irIndex m = Config.irIndex n) : m = n := by
  have all : ∀ m, m ∈ Config.iregs := by intro m; cases m <;> decide
  unfold Config.irIndex at h
  split at h
  · rename_i hi
    unfold Config.irInjective at hi
    have := List.all_eq_true.1 (List.all_eq_true.1 hi m (all m)) n (all n)
    simp only [bne_iff_ne, ne_eq, Bool.or_eq_true, beq_iff_eq] at this
    rcases this with h' | h'
    · exact absurd h h'
    · exact h'
  · revert h; cases m <;> cases n <;> decide

theorem setWidth_64_injective {a b : BitVec 16} (h : a.setWidth 64 = b.setWidth 64) : a = b := by
  have := congrArg BitVec.toNat h
  simp only [BitVec.toNat_setWidth] at this
  have ha := a.isLt
  have hb := b.isLt
  exact BitVec.eq_of_toNat_eq (by omega)

theorem iregAt_irIndex (n : IReg) : iregAt ((Config.irIndex n).setWidth 64) = some n := by
  have all : n ∈ Config.iregs := by cases n <;> decide
  have key : ∀ l : List IReg, n ∈ l →
      l.find? (fun m => (Config.irIndex m).setWidth 64 == (Config.irIndex n).setWidth 64) = some n := by
    intro l hl
    induction l with
    | nil => simp at hl
    | cons m rest ih =>
      simp only [List.find?_cons]
      by_cases h : m = n
      · subst h; simp
      · have hne : ((Config.irIndex m).setWidth 64 == (Config.irIndex n).setWidth 64) = false := by
          simp only [beq_eq_false_iff_ne, ne_eq]
          exact fun e => h (irIndex_injective (setWidth_64_injective e))
        rw [hne]
        refine ih ?_
        rcases List.mem_cons.1 hl with rfl | h'
        · exact absurd rfl h
        · exact h'
  exact key _ all

theorem iregAt_eq_some {i : Word} {n : IReg} :
    iregAt i = some n ↔ i = (Config.irIndex n).setWidth 64 := by
  constructor
  · intro h
    have := List.find?_some h
    exact (by simpa using this : _ = i).symm
  · rintro rfl; exact iregAt_irIndex n

theorem iregAt_eq_none {i : Word} :
    iregAt i = none ↔ ∀ n, i ≠ (Config.irIndex n).setWidth 64 := by
  constructor
  · intro h n e
    rw [iregAt_eq_some.2 e] at h
    simp at h
  · intro h
    cases hi : iregAt i with
    | none => rfl
    | some n => exact absurd (iregAt_eq_some.1 hi) (h n)

/-- All that a read of an internal register can do. -/
theorem getInternal_cases (s : State) (i : Word) (d : Reg) :
    ((∀ n, i ≠ (Config.irIndex n).setWidth 64) ∧ getInternal s i d = .refused .indexNotPopulated) ∨
    ∃ n, i = (Config.irIndex n).setWidth 64 ∧
      getInternal s i d = .next (s.writeReg d (s.iregValue n)).advance := by
  unfold getInternal
  cases h : iregAt i with
  | none => exact Or.inl ⟨iregAt_eq_none.1 h, rfl⟩
  | some n => exact Or.inr ⟨n, iregAt_eq_some.1 h, rfl⟩

/-- All that a write of an internal register can do. -/
theorem putInternal_cases (s : State) (i v : Word) :
    ((∀ n, i ≠ (Config.irIndex n).setWidth 64) ∧ putInternal s i v = .refused .indexNotPopulated) ∨
    ∃ n, i = (Config.irIndex n).setWidth 64 ∧
      ((s.sr.write n v = none ∧ putInternal s i v = .refused .putToReadOnly) ∨
       ∃ x, s.sr.write n v = some x ∧ putInternal s i v = .next (s.withSpecial x).advance) := by
  unfold putInternal
  cases h : iregAt i with
  | none => exact Or.inl ⟨iregAt_eq_none.1 h, rfl⟩
  | some n =>
    refine Or.inr ⟨n, iregAt_eq_some.1 h, ?_⟩
    cases hw : s.sr.write n v with
    | none => exact Or.inl ⟨rfl, by simp [hw]⟩
    | some x => exact Or.inr ⟨x, rfl, by simp [hw, complete_eq]⟩

/-! ### Stops -/

theorem withOperand_cases (s : State) (r1 : Reg) (o : Outcome) :
    withOperand s r1 o = if s.readReg .reg1 r1 = 0 then .refused .optionalOperandZero else o := by
  unfold withOperand nonNil
  by_cases h : s.readReg .reg1 r1 = 0 <;> simp [h]

end Sys2Proof.Machine
end

