-- ==== Sys2Proof/Laws/PerInstr.lean ====
section
/-!
SUPPORT. The per-instruction law: the word of an instruction decodes to that instruction, under the name of
its form (log 26).
-/

namespace Sys2Proof.Laws

/-- Decoding gives back the instruction that was encoded, spelled by its canonical name. -/
def RoundTrip.Statement (i : Instr) : Prop :=
  decodeWord (encode i) = .ok i.canonical

theorem RoundTrip.add (size : Size) (simd saturate carry : Bool) (r1 r2 r3 : Reg) :
    RoundTrip.Statement (.add size simd saturate carry r1 r2 r3) := by
  refine decodeWord_eq_ok (op := .add) ?_ ?_ ?_ <;>
    simp [encode, reservedSet, mustBeZero, decodeFields, regAt, packR3A, Config.addSubFieldOrder,
      addSubRegs, sizeAt, flagAt_eq, flags6_fields]

theorem RoundTrip.sub (size : Size) (simd floor borrow : Bool) (r1 r2 r3 : Reg) :
    RoundTrip.Statement (.sub size simd floor borrow r1 r2 r3) := by
  refine decodeWord_eq_ok (op := .sub) ?_ ?_ ?_ <;>
    simp [encode, reservedSet, mustBeZero, decodeFields, regAt, packR3A, Config.addSubFieldOrder,
      addSubRegs, sizeAt, flagAt_eq, flags6_fields]

theorem RoundTrip.mul (size : Size) (simd signed high : Bool) (r1 r2 r3 : Reg) :
    RoundTrip.Statement (.mul size simd signed high r1 r2 r3) := by
  refine decodeWord_eq_ok (op := .mul) ?_ ?_ ?_ <;>
    simp [encode, reservedSet, mustBeZero, decodeFields, regAt, sizeAt, flagAt_eq, flags6_fields]

theorem RoundTrip.div (size : Size) (simd signed modulo : Bool) (r1 r2 r3 : Reg) :
    RoundTrip.Statement (.div size simd signed modulo r1 r2 r3) := by
  refine decodeWord_eq_ok (op := .div) ?_ ?_ ?_ <;>
    simp [encode, reservedSet, mustBeZero, decodeFields, regAt, sizeAt, flagAt_eq, flags6_fields]

theorem RoundTrip.addi (size : Size) (simd : Bool) (imm8 : BitVec 8) (r1 r2 : Reg) :
    RoundTrip.Statement (.addi size simd imm8 r1 r2) := by
  refine decodeWord_eq_ok (op := .addi) ?_ ?_ ?_ <;>
    simp [encode, reservedSet, mustBeZero, decodeFields, regAt, sizeAt, flagAt_eq, flags4_fields]

theorem RoundTrip.subi (size : Size) (simd : Bool) (imm8 : BitVec 8) (r1 r2 : Reg) :
    RoundTrip.Statement (.subi size simd imm8 r1 r2) := by
  refine decodeWord_eq_ok (op := .subi) ?_ ?_ ?_ <;>
    simp [encode, reservedSet, mustBeZero, decodeFields, regAt, sizeAt, flagAt_eq, flags4_fields]

theorem RoundTrip.muli (size : Size) (simd : Bool) (imm8 : BitVec 8) (r1 r2 : Reg) :
    RoundTrip.Statement (.muli size simd imm8 r1 r2) := by
  refine decodeWord_eq_ok (op := .muli) ?_ ?_ ?_ <;>
    simp [encode, reservedSet, mustBeZero, decodeFields, regAt, sizeAt, flagAt_eq, flags4_fields]

theorem RoundTrip.divi (size : Size) (simd : Bool) (imm8 : BitVec 8) (r1 r2 : Reg) :
    RoundTrip.Statement (.divi size simd imm8 r1 r2) := by
  refine decodeWord_eq_ok (op := .divi) ?_ ?_ ?_ <;>
    simp [encode, reservedSet, mustBeZero, decodeFields, regAt, sizeAt, flagAt_eq, flags4_fields]

theorem RoundTrip.mod (size : Size) (simd : Bool) (r1 r2 r3 : Reg) :
    RoundTrip.Statement (.mod size simd r1 r2 r3) := by
  refine decodeWord_eq_ok (op := .mod) ?_ ?_ ?_ <;>
    simp [encode, reservedSet, mustBeZero, decodeFields, regAt, sizeAt, flagAt_eq, flags6_fields]

theorem RoundTrip.modi (size : Size) (simd : Bool) (imm8 : BitVec 8) (r1 r2 : Reg) :
    RoundTrip.Statement (.modi size simd imm8 r1 r2) := by
  refine decodeWord_eq_ok (op := .modi) ?_ ?_ ?_ <;>
    simp [encode, reservedSet, mustBeZero, decodeFields, regAt, sizeAt, flagAt_eq, flags4_fields]

theorem RoundTrip.shift (size : Size) (right signed : Bool) (r1 r2 r3 : Reg) :
    RoundTrip.Statement (.shift size right signed r1 r2 r3) := by
  refine decodeWord_eq_ok (op := .shift) ?_ ?_ ?_ <;>
    simp [encode, reservedSet, mustBeZero, decodeFields, regAt, sizeAt, flagAt_eq, flags6_fields]

theorem RoundTrip.rot (size : Size) (right : Bool) (r1 r2 r3 : Reg) :
    RoundTrip.Statement (.rot size right r1 r2 r3) := by
  refine decodeWord_eq_ok (op := .rot) ?_ ?_ ?_ <;>
    simp [encode, reservedSet, mustBeZero, decodeFields, regAt, sizeAt, flagAt_eq, flags6_fields]

theorem RoundTrip.shifti (size : Size) (right signed : Bool) (imm6 : BitVec 6) (r1 r2 : Reg) :
    RoundTrip.Statement (.shifti size right signed imm6 r1 r2) := by
  refine decodeWord_eq_ok (op := .shifti) ?_ ?_ ?_ <;>
    simp [encode, reservedSet, mustBeZero, decodeFields, regAt, sizeAt, flagAt_eq, flags6_fields]

theorem RoundTrip.roti (size : Size) (right : Bool) (imm6 : BitVec 6) (r1 r2 : Reg) :
    RoundTrip.Statement (.roti size right imm6 r1 r2) := by
  refine decodeWord_eq_ok (op := .roti) ?_ ?_ ?_ <;>
    simp [encode, reservedSet, mustBeZero, decodeFields, regAt, sizeAt, flagAt_eq, flags6_fields]

theorem RoundTrip.bitop (op : BitOperation) (imm6 : BitVec 6) (r1 r2 : Reg) :
    RoundTrip.Statement (.bitop op imm6 r1 r2) := by
  refine decodeWord_eq_ok (op := .bitop) ?_ ?_ ?_ <;>
    simp [encode, reservedSet, mustBeZero, decodeFields, regAt, flags6_fields]

theorem RoundTrip.bitset (imm6 : BitVec 6) (r1 r2 : Reg) :
    RoundTrip.Statement (.bitset imm6 r1 r2) :=
  RoundTrip.bitop .set imm6 r1 r2

theorem RoundTrip.bclear (imm6 : BitVec 6) (r1 r2 : Reg) :
    RoundTrip.Statement (.bclear imm6 r1 r2) :=
  RoundTrip.bitop .clear imm6 r1 r2

theorem RoundTrip.bchange (imm6 : BitVec 6) (r1 r2 : Reg) :
    RoundTrip.Statement (.bchange imm6 r1 r2) :=
  RoundTrip.bitop .change imm6 r1 r2

theorem RoundTrip.btest (imm6 : BitVec 6) (r1 r2 : Reg) :
    RoundTrip.Statement (.btest imm6 r1 r2) :=
  RoundTrip.bitop .test imm6 r1 r2

theorem RoundTrip.logic (size : Size) (f00 f10 f01 f11 : Bool) (r1 r2 r3 : Reg) :
    RoundTrip.Statement (.logic size f00 f10 f01 f11 r1 r2 r3) := by
  refine decodeWord_eq_ok (op := .logic) ?_ ?_ ?_ <;>
    simp [encode, reservedSet, mustBeZero, decodeFields, regAt, sizeAt, flagAt_eq, flags6_fields]

theorem RoundTrip.and (size : Size) (r1 r2 r3 : Reg) :
    RoundTrip.Statement (.and size r1 r2 r3) :=
  RoundTrip.logic size false false false true r1 r2 r3

theorem RoundTrip.xor (size : Size) (r1 r2 r3 : Reg) :
    RoundTrip.Statement (.xor size r1 r2 r3) :=
  RoundTrip.logic size false true true false r1 r2 r3

theorem RoundTrip.not (size : Size) (r1 r2 r3 : Reg) :
    RoundTrip.Statement (.not size r1 r2 r3) :=
  RoundTrip.logic size true false true false r1 r2 r3

theorem RoundTrip.nor (size : Size) (r1 r2 r3 : Reg) :
    RoundTrip.Statement (.nor size r1 r2 r3) :=
  RoundTrip.logic size true false false false r1 r2 r3

theorem RoundTrip.nand (size : Size) (r1 r2 r3 : Reg) :
    RoundTrip.Statement (.nand size r1 r2 r3) :=
  RoundTrip.logic size true true true false r1 r2 r3

theorem RoundTrip.mix (part : Bool) (r1 r2 r3 : Reg) :
    RoundTrip.Statement (.mix part r1 r2 r3) := by
  refine decodeWord_eq_ok (op := .mix) ?_ ?_ ?_ <;>
    simp [encode, reservedSet, mustBeZero, decodeFields, regAt, flagAt_eq, mixFlags_fields]

theorem RoundTrip.expand (part : Bool) (r1 r2 : Reg) :
    RoundTrip.Statement (.expand part r1 r2) := by
  refine decodeWord_eq_ok (op := .expand) ?_ ?_ ?_ <;>
    simp [encode, reservedSet, mustBeZero, decodeFields, regAt, flagAt_eq, expandLow_fields]

theorem RoundTrip.fadd (fpSize : BitVec 2) (simd nonIeee : Bool) (r1 r2 r3 : Reg) :
    RoundTrip.Statement (.fadd fpSize simd nonIeee r1 r2 r3) := by
  refine decodeWord_eq_ok (op := .fadd) ?_ ?_ ?_ <;>
    simp [encode, reservedSet, mustBeZero, decodeFields, regAt, flagAt_eq, flags6_fields]

theorem RoundTrip.fsub (fpSize : BitVec 2) (simd nonIeee : Bool) (r1 r2 r3 : Reg) :
    RoundTrip.Statement (.fsub fpSize simd nonIeee r1 r2 r3) := by
  refine decodeWord_eq_ok (op := .fsub) ?_ ?_ ?_ <;>
    simp [encode, reservedSet, mustBeZero, decodeFields, regAt, flagAt_eq, flags6_fields]

theorem RoundTrip.fmul (fpSize : BitVec 2) (simd nonIeee : Bool) (r1 r2 r3 : Reg) :
    RoundTrip.Statement (.fmul fpSize simd nonIeee r1 r2 r3) := by
  refine decodeWord_eq_ok (op := .fmul) ?_ ?_ ?_ <;>
    simp [encode, reservedSet, mustBeZero, decodeFields, regAt, flagAt_eq, flags6_fields]

theorem RoundTrip.fdiv (fpSize : BitVec 2) (simd nonIeee : Bool) (r1 r2 r3 : Reg) :
    RoundTrip.Statement (.fdiv fpSize simd nonIeee r1 r2 r3) := by
  refine decodeWord_eq_ok (op := .fdiv) ?_ ?_ ?_ <;>
    simp [encode, reservedSet, mustBeZero, decodeFields, regAt, flagAt_eq, flags6_fields]

theorem RoundTrip.int2f (fpSize : BitVec 2) (simd nonIeee : Bool) (rounding : Rounding) (r1 r2 : Reg) :
    RoundTrip.Statement (.int2f fpSize simd nonIeee rounding r1 r2) := by
  refine decodeWord_eq_ok (op := .fconv) ?_ ?_ ?_ <;>
    simp [encode, reservedSet, mustBeZero, decodeFields, regAt, flagAt_eq, fconvLow_fields]

theorem RoundTrip.f2int (fpSize : BitVec 2) (simd nonIeee : Bool) (rounding : Rounding) (r1 r2 : Reg) :
    RoundTrip.Statement (.f2int fpSize simd nonIeee rounding r1 r2) := by
  refine decodeWord_eq_ok (op := .fconv) ?_ ?_ ?_ <;>
    simp [encode, reservedSet, mustBeZero, decodeFields, regAt, flagAt_eq, fconvLow_fields]

theorem RoundTrip.finv (fpSize : BitVec 2) (simd nonIeee : Bool) (r1 r2 : Reg) :
    RoundTrip.Statement (.finv fpSize simd nonIeee r1 r2) := by
  refine decodeWord_eq_ok (op := .finv) ?_ ?_ ?_ <;>
    simp [encode, reservedSet, mustBeZero, decodeFields, regAt, flagAt_eq, fpLow_fields]

theorem RoundTrip.fsqrt (fpSize : BitVec 2) (simd nonIeee : Bool) (r1 r2 : Reg) :
    RoundTrip.Statement (.fsqrt fpSize simd nonIeee r1 r2) := by
  refine decodeWord_eq_ok (op := .fsqrt) ?_ ?_ ?_ <;>
    simp [encode, reservedSet, mustBeZero, decodeFields, regAt, flagAt_eq, fpLow_fields]

theorem RoundTrip.finvsqrt (fpSize : BitVec 2) (simd nonIeee : Bool) (r1 r2 : Reg) :
    RoundTrip.Statement (.finvsqrt fpSize simd nonIeee r1 r2) := by
  refine decodeWord_eq_ok (op := .finvsqrt) ?_ ?_ ?_ <;>
    simp [encode, reservedSet, mustBeZero, decodeFields, regAt, flagAt_eq, fpLow_fields]

theorem RoundTrip.bitrev (r1 r2 r3 : Reg) :
    RoundTrip.Statement (.bitrev r1 r2 r3) := by
  refine decodeWord_eq_ok (op := .bitrev) ?_ ?_ ?_ <;>
    simp [encode, reservedSet, mustBeZero, decodeFields, regAt]

theorem RoundTrip.bitrevi (imm6 : BitVec 6) (r1 r2 : Reg) :
    RoundTrip.Statement (.bitrevi imm6 r1 r2) := by
  refine decodeWord_eq_ok (op := .bitrevi) ?_ ?_ ?_ <;>
    simp [encode, reservedSet, mustBeZero, decodeFields, regAt]

theorem RoundTrip.byterev (size : Size) (r1 r2 : Reg) :
    RoundTrip.Statement (.byterev size r1 r2) := by
  refine decodeWord_eq_ok (op := .byterev) ?_ ?_ ?_ <;>
    simp [encode, reservedSet, mustBeZero, decodeFields, regAt, sizeAt, byterevLow_fields]

theorem RoundTrip.load (size : Size) (endian : Endian) (r1 r2 r3 : Reg) :
    RoundTrip.Statement (.load size endian r1 r2 r3) := by
  refine decodeWord_eq_ok (op := .load) ?_ ?_ ?_ <;>
    simp [encode, reservedSet, mustBeZero, decodeFields, regAt, sizeAt, endianAt, flagAt_eq,
      flags6_fields]

theorem RoundTrip.store (size : Size) (endian : Endian) (r1 r2 r3 : Reg) :
    RoundTrip.Statement (.store size endian r1 r2 r3) := by
  refine decodeWord_eq_ok (op := .store) ?_ ?_ ?_ <;>
    simp [encode, reservedSet, mustBeZero, decodeFields, regAt, sizeAt, endianAt, flagAt_eq,
      flags6_fields]

theorem RoundTrip.mov (size : Size) (mode : HighMode) (r1 r2 r3 : Reg) :
    RoundTrip.Statement (.mov size mode r1 r2 r3) := by
  refine decodeWord_eq_ok (op := .mov) ?_ ?_ ?_ <;>
    simp [encode, reservedSet, mustBeZero, decodeFields, regAt, sizeAt, movFlags_fields]

theorem RoundTrip.loadcons (shift : Fin 4) (imm16 : BitVec 16) (r1 : Reg) :
    RoundTrip.Statement (.loadcons shift imm16 r1) := by
  refine decodeWord_eq_ok (op := .loadcons) ?_ ?_ ?_ <;>
    simp [encode, reservedSet, mustBeZero, decodeFields, regAt]

theorem RoundTrip.loadconsx (shift : Fin 4) (imm16 : BitVec 16) (r1 : Reg) :
    RoundTrip.Statement (.loadconsx shift imm16 r1) := by
  refine decodeWord_eq_ok (op := .loadconsx) ?_ ?_ ?_ <;>
    simp [encode, reservedSet, mustBeZero, decodeFields, regAt]

theorem RoundTrip.cachemm (size : Size) (fp lock : Bool) (level : MemLevel) (r1 r2 : Reg) :
    RoundTrip.Statement (.cachemm size fp lock level r1 r2) := by
  refine decodeWord_eq_ok (op := .cachemm) ?_ ?_ ?_ <;>
    simp [encode, reservedSet, mustBeZero, decodeFields, regAt, sizeAt, flagAt_eq, cachemmLow_fields]

theorem RoundTrip.loadi (size : Size) (endian : Endian) (imm9 : BitVec 9) (r1 r2 : Reg) :
    RoundTrip.Statement (.loadi size endian imm9 r1 r2) := by
  refine decodeWord_eq_ok (op := .loadi) ?_ ?_ ?_ <;>
    simp [encode, reservedSet, mustBeZero, decodeFields, regAt, sizeAt, endianAt, flagAt_eq,
      loadiFlags_fields]

theorem RoundTrip.storei (size : Size) (endian : Endian) (imm9 : BitVec 9) (r1 r2 : Reg) :
    RoundTrip.Statement (.storei size endian imm9 r1 r2) := by
  refine decodeWord_eq_ok (op := .storei) ?_ ?_ ?_ <;>
    simp [encode, reservedSet, mustBeZero, decodeFields, regAt, sizeAt, endianAt, flagAt_eq,
      loadiFlags_fields]

theorem RoundTrip.get (r1 r2 : Reg) :
    RoundTrip.Statement (.get r1 r2) := by
  refine decodeWord_eq_ok (op := .get) ?_ ?_ ?_ <;>
    simp [encode, reservedSet, mustBeZero, decodeFields, regAt]

theorem RoundTrip.put (r1 r2 : Reg) :
    RoundTrip.Statement (.put r1 r2) := by
  refine decodeWord_eq_ok (op := .put) ?_ ?_ ?_ <;>
    simp [encode, reservedSet, mustBeZero, decodeFields, regAt]

theorem RoundTrip.geti (imm16 : BitVec 16) (r1 : Reg) :
    RoundTrip.Statement (.geti imm16 r1) := by
  refine decodeWord_eq_ok (op := .geti) ?_ ?_ ?_ <;>
    simp [encode, reservedSet, mustBeZero, decodeFields, regAt]

theorem RoundTrip.puti (imm16 : BitVec 16) (r1 : Reg) :
    RoundTrip.Statement (.puti imm16 r1) := by
  refine decodeWord_eq_ok (op := .puti) ?_ ?_ ?_ <;>
    simp [encode, reservedSet, mustBeZero, decodeFields, regAt]

theorem RoundTrip.jmpa (negate : Bool) (test : BitTest) (r1 r2 : Reg) :
    RoundTrip.Statement (.jmpa negate test r1 r2) := by
  refine decodeWord_eq_ok (op := .jmpa) ?_ ?_ ?_ <;>
    simp [encode, reservedSet, mustBeZero, decodeFields, regAt, flagAt_eq, jmpaLow_fields]

theorem RoundTrip.loadaddr (imm18 : BitVec 18) (r1 : Reg) :
    RoundTrip.Statement (.loadaddr imm18 r1) := by
  refine decodeWord_eq_ok (op := .loadaddr) ?_ ?_ ?_ <;>
    simp [encode, reservedSet, mustBeZero, decodeFields, regAt]

theorem RoundTrip.loopentry (r1 : Reg) :
    RoundTrip.Statement (.loopentry r1) := by
  refine decodeWord_eq_ok (op := .loopentry) ?_ ?_ ?_ <;>
    simp [encode, reservedSet, mustBeZero, decodeFields, regAt]

theorem RoundTrip.loop (r1 r2 : Reg) :
    RoundTrip.Statement (.loop r1 r2) := by
  refine decodeWord_eq_ok (op := .loop) ?_ ?_ ?_ <;>
    simp [encode, reservedSet, mustBeZero, decodeFields, regAt]

theorem RoundTrip.jmpi (imm12 : BitVec 12) (r1 r2 : Reg) :
    RoundTrip.Statement (.jmpi imm12 r1 r2) := by
  refine decodeWord_eq_ok (op := .jmpi) ?_ ?_ ?_ <;>
    simp [encode, reservedSet, mustBeZero, decodeFields, regAt]

theorem RoundTrip.jmpr (imm18 : BitVec 18) (r1 : Reg) :
    RoundTrip.Statement (.jmpr imm18 r1) := by
  refine decodeWord_eq_ok (op := .jmpr) ?_ ?_ ?_ <;>
    simp [encode, reservedSet, mustBeZero, decodeFields, regAt]

theorem RoundTrip.syscall (imm18 : BitVec 18) (r1 : Reg) :
    RoundTrip.Statement (.syscall imm18 r1) := by
  refine decodeWord_eq_ok (op := .systrap) ?_ ?_ ?_ <;>
    simp [encode, reservedSet, mustBeZero, decodeFields, regAt]

theorem RoundTrip.trap (imm18 : BitVec 18) (r1 : Reg) :
    RoundTrip.Statement (.trap imm18 r1) :=
  RoundTrip.syscall imm18 r1

theorem RoundTrip.halt (imm18 : BitVec 18) (r1 : Reg) :
    RoundTrip.Statement (.halt imm18 r1) := by
  refine decodeWord_eq_ok (op := .halt) ?_ ?_ ?_ <;>
    simp [encode, reservedSet, mustBeZero, decodeFields, regAt]

theorem RoundTrip.rfe (imm18 : BitVec 18) (r1 : Reg) :
    RoundTrip.Statement (.rfe imm18 r1) := by
  refine decodeWord_eq_ok (op := .rfe) ?_ ?_ ?_ <;>
    simp [encode, reservedSet, mustBeZero, decodeFields, regAt]

end Sys2Proof.Laws
end

