-- ==== Sys2Proof/Laws/Step.lean ====
section
/-!
SUPPORT. What a completed instruction, a fetch and a step can do, said once, so that invariants and frames
are case analyses over it and no proof unfolds `exec`.
-/

namespace Sys2Proof

/-- The instructions that can write `pc` (R260). -/
def Instr.isJump : Instr → Bool
  | .jmpa _ _ _ _ | .jmpi _ _ _ | .jmpr _ _ => true
  | _ => false

/-- The instructions that can write an internal register (R246). -/
def Instr.isPut : Instr → Bool
  | .put _ _ | .puti _ _ => true
  | _ => false

/-- The instruction that ends a run normally (R283). -/
def Instr.isHalt : Instr → Bool
  | .halt _ _ => true
  | _ => false

namespace Machine

/-- The state after a completed instruction is one of seven: it only advanced, it jumped, it wrote one or two
destination registers, it stored, it put, or it halted. A jump from an aligned `pc` lands on an aligned one. -/
def Completed (i : Instr) (s t : State) : Prop :=
  t = s.advance ∨
  (i.isJump = true ∧ ∃ x : Word, t = s.goto x ∧ (s.pc.toNat % 4 = 0 → x.toNat % 4 = 0)) ∨
  (∃ d v, d ∈ i.destinations ∧ t = (s.writeReg d v).advance) ∨
  (∃ d v e w, d ∈ i.destinations ∧ e ∈ i.destinations ∧
    t = ((s.writeReg d v).writeReg e w).advance) ∨
  (i.isStore = true ∧ ∃ size e ea v m, Memory.write s.mem ea size e v = some m ∧
    t = (s.stored m (touched ea (sizeBytes size))).advance) ∨
  (i.isPut = true ∧ ∃ n v sr, s.sr.write n v = some sr ∧ t = (s.withSpecial sr).advance) ∨
  (i.isHalt = true ∧ t = s.halted)

theorem completed_one {i : Instr} {s t : State} {d : Reg} {v : Word} (hd : d ∈ i.destinations)
    (h : (.next (s.writeReg d v).advance : Outcome) = .next t) : Completed i s t := by
  injection h with h
  exact Or.inr (Or.inr (Or.inl ⟨d, v, hd, h.symm⟩))

theorem completed_writeResults {i : Instr} {s t : State} {size : Size} {simd second : Bool}
    {src : Word} {d : Reg} {f : Nat → BitVec (sizeBits size) × BitVec (sizeBits size)}
    (hd : i.destinations = if second then [d, d + 1] else [d])
    (h : writeResults s size simd second src d f = .next t) : Completed i s t := by
  rw [writeResults_cases] at h
  split at h
  · simp at h
  · split at h
    · rename_i h2
      injection h with h
      exact Or.inr (Or.inr (Or.inr (Or.inl ⟨_, _, _, _, by simp [hd, h2], by simp [hd, h2], h.symm⟩)))
    · rename_i h2
      exact completed_one (by simp [hd, h2]) h

theorem completed_loadFrom {i : Instr} {s t : State} {size : Size} {e : Endian} {ea : Word} {d : Reg}
    (hd : d ∈ i.destinations) (h : loadFrom s size e ea d = .next t) : Completed i s t := by
  rcases loadFrom_cases s size e ea d with ⟨_, h1⟩ | ⟨_, _, h1⟩ | ⟨_, v, _, h1⟩ <;> rw [h1] at h
  · simp at h
  · simp at h
  · exact completed_one hd h

theorem completed_storeTo {i : Instr} {s t : State} {size : Size} {e : Endian} {ea v : Word}
    (hi : i.isStore = true) (h : storeTo s size e ea v = .next t) : Completed i s t := by
  rcases storeTo_cases s size e ea v with ⟨_, h1⟩ | ⟨_, _, h1⟩ | ⟨_, m, hm, h1⟩ <;> rw [h1] at h
  · simp at h
  · simp at h
  · injection h with h
    exact Or.inr (Or.inr (Or.inr (Or.inr (Or.inl ⟨hi, _, _, _, _, _, hm, h.symm⟩))))

theorem completed_getInternal {i : Instr} {s t : State} {x : Word} {d : Reg}
    (hd : d ∈ i.destinations) (h : getInternal s x d = .next t) : Completed i s t := by
  rcases getInternal_cases s x d with ⟨_, h1⟩ | ⟨_, _, h1⟩ <;> rw [h1] at h
  · simp at h
  · exact completed_one hd h

theorem completed_putInternal {i : Instr} {s t : State} {x v : Word} (hi : i.isPut = true)
    (h : putInternal s x v = .next t) : Completed i s t := by
  rcases putInternal_cases s x v with ⟨_, h1⟩ | ⟨n, _, ⟨_, h1⟩ | ⟨sr, hs, h1⟩⟩ <;> rw [h1] at h
  · simp at h
  · simp at h
  · injection h with h
    exact Or.inr (Or.inr (Or.inr (Or.inr (Or.inr (Or.inl ⟨hi, _, _, _, hs, h.symm⟩)))))

theorem completed_jumpIf {i : Instr} {s t : State} {cond : Bool} {x : Word} (hi : i.isJump = true)
    (h : jumpIf s cond x = .next t) : Completed i s t := by
  rw [jumpIf_cases] at h
  split at h
  · split at h
    · rename_i h4
      injection h with h
      exact Or.inr (Or.inl ⟨hi, _, h.symm, fun _ => h4⟩)
    · simp at h
  · injection h with h
    exact Or.inl h.symm

theorem completed_execJmpr {imm18 : BitVec 18} {r1 : Reg} {s t : State}
    (h : execJmpr imm18 r1 s = .next t) : Completed (.jmpr imm18 r1) s t := by
  unfold execJmpr at h
  split at h
  · injection h with h
    refine Or.inr (Or.inl ⟨rfl, _, h.symm, fun h4 => ?_⟩)
    have h2 : ((imm18.signExtend 64 <<< 2 : Word)).toNat % 4 = 0 := by
      rw [BitVec.toNat_shiftLeft, Nat.shiftLeft_eq]; omega
    show (s.pc + (imm18.signExtend 64 <<< 2)).toNat % 4 = 0
    rw [BitVec.toNat_add]
    omega
  · injection h with h
    exact Or.inl h.symm

theorem completed_withOperand {i : Instr} {s t : State} {r1 : Reg} {o : Outcome}
    (ho : o = .next t → Completed i s t) (h : withOperand s r1 o = .next t) : Completed i s t := by
  rw [withOperand_cases] at h
  split at h
  · simp at h
  · exact ho h

/-- All that an instruction that completes can have done. -/
theorem exec_completed (i : Instr) (s t : State) (h : exec i s = .next t) : Completed i s t := by
  cases i
  case add | sub =>
    simp only [exec, execAdd, execSub] at h
    split at h
    · simp at h
    · exact completed_writeResults rfl h
  case mul => exact completed_writeResults rfl h
  case div =>
    simp only [exec, execDiv] at h
    split at h
    · simp at h
    · split at h
      · simp at h
      · exact completed_writeResults rfl h
  case addi | subi | muli => exact completed_writeResults (second := false) rfl h
  case divi | modi | mod =>
    simp only [exec, execDivi, execModi, execMod] at h
    split at h
    · simp at h
    · exact completed_writeResults (second := false) rfl h
  case load => exact completed_loadFrom (by simp [Instr.destinations]) h
  case loadi =>
    simp only [exec, execLoadi] at h
    split at h
    · simp at h
    · exact completed_loadFrom (by simp [Instr.destinations]) h
  case store => exact completed_storeTo rfl h
  case storei =>
    simp only [exec, execStorei] at h
    split at h
    · simp at h
    · exact completed_storeTo rfl h
  case get | geti => exact completed_getInternal (by simp [Instr.destinations]) h
  case put | puti => exact completed_putInternal rfl h
  case jmpa => exact completed_jumpIf rfl h
  case jmpi =>
    simp only [exec, execJmpi] at h
    split at h
    · simp at h
    · exact completed_jumpIf rfl h
  case jmpr => exact completed_execJmpr h
  case mov =>
    simp only [exec, execMov] at h
    split at h
    · exact completed_one (by simp [Instr.destinations]) h
    · injection h with h
      exact Or.inl h.symm
  case cachemm =>
    injection h with h
    exact Or.inl h.symm
  case halt =>
    refine completed_withOperand (fun h => ?_) h
    injection h with h
    exact Or.inr (Or.inr (Or.inr (Or.inr (Or.inr (Or.inr ⟨rfl, h.symm⟩)))))
  case syscall | trap | rfe =>
    refine completed_withOperand (fun h => ?_) h
    simp [returnFromException] at h
  case mix | expand | loop => cases h
  case fadd | fsub | fmul | fdiv | int2f | f2int | finv | fsqrt | finvsqrt => cases h
  all_goals exact completed_one (by simp [Instr.destinations]) h

/-! ### Fetch and step -/

theorem fetchStored_eq_true {s : State} :
    s.fetchStored = true ↔ ∃ a ∈ touched s.pc 4, a ∈ s.storedTo := by
  simp [State.fetchStored]

theorem fetchStored_eq_false {s : State} :
    s.fetchStored = false ↔ ∀ a ∈ touched s.pc 4, a ∉ s.storedTo := by
  simp [State.fetchStored]

/-- All that a fetch can give. -/
theorem fetch_cases (s : State) :
    ((∃ a ∈ touched s.pc 4, a ∈ s.storedTo) ∧ s.fetch = .storedByte) ∨
    ((∀ a ∈ touched s.pc 4, a ∉ s.storedTo) ∧
      ((∃ a ∈ touched s.pc 4, Memory.byteAt s.mem a = none) ∧ s.fetch = .noMemory ∨
       ∃ bytes, Memory.bytesAt s.mem (touched s.pc 4) = some bytes ∧
        ((∃ r, decode bytes = .error r ∧ s.fetch = .rejected r) ∨
         ∃ i, decode bytes = .ok i ∧ s.fetch = .instruction i))) := by
  unfold State.fetch
  cases hs : s.fetchStored with
  | true => exact Or.inl ⟨fetchStored_eq_true.1 hs, rfl⟩
  | false =>
    refine Or.inr ⟨fetchStored_eq_false.1 hs, ?_⟩
    cases hb : Memory.bytesAt s.mem (touched s.pc 4) with
    | none => exact Or.inl ⟨Memory.bytesAt_eq_none.1 hb, rfl⟩
    | some bytes =>
      refine Or.inr ⟨bytes, rfl, ?_⟩
      cases hd : decode bytes with
      | error r => exact Or.inl ⟨r, rfl, by simp [hd]⟩
      | ok i => exact Or.inr ⟨i, rfl, by simp [hd]⟩

/-- All that a step that answers a next state can have done. -/
theorem step_next {s t : State} (h : step s = .next t) :
    (s.run = .halted ∧ t = s) ∨ s.run = .running ∧ ∃ i, s.fetch = .instruction i ∧ exec i s = .next t := by
  unfold step at h
  split at h
  · rename_i hr
    injection h with h
    exact Or.inl ⟨hr, h.symm⟩
  · rename_i hr
    split at h
    · simp at h
    · simp at h
    · rename_i r _
      cases r <;> simp [raiseReject] at h
    · exact Or.inr ⟨hr, _, ‹_›, h⟩

/-- A word placed for the next step is what that step fetches. -/
theorem fetch_withFetchWord (s : State) (nbits w : Nat) :
    (s.withFetchWord nbits w).fetch =
      match decodeWord (tableWord nbits w) with
      | .error r => .rejected r
      | .ok i => .instruction i := by
  have hs : (s.withFetchWord nbits w).fetchStored = false := by
    rw [fetchStored_eq_false]
    intro a ha h
    have := (List.mem_filter.1 h).2
    rw [show (touched s.pc 4).contains a = true from List.contains_iff_mem.2 ha] at this
    simp at this
  have hb : Memory.bytesAt (s.withFetchWord nbits w).mem (touched (s.withFetchWord nbits w).pc 4) =
      some (bytesOfWord (tableWord nbits w)) := by
    rw [Memory.bytesAt_eq_some]
    show (touched s.pc 4).map
      (Memory.byteAt (Memory.putAll s.mem (touched s.pc 4) (bytesOfWord (tableWord nbits w)))) = _
    have hl : (touched s.pc 4).length = (bytesOfWord (tableWord nbits w)).length := by
      rw [length_touched]; rfl
    refine List.ext_getElem (by simp [hl]) fun k h1 h2 => ?_
    rw [List.getElem_map, List.getElem_map]
    exact Memory.byteAt_putAll_getElem s.mem (touched_nodup s.pc (by decide)) hl k
      (by simpa using h1)
  have hd := decode_bytesOfWord (tableWord nbits w) []
  rw [List.append_nil] at hd
  unfold State.fetch
  rw [hs, hb]
  cases hw : decodeWord (tableWord nbits w) <;>
    simp only [Bool.false_eq_true, if_false, hd, hw]

end Machine

end Sys2Proof
end

