-- ==== Sys2Proof/Laws/Values.lean ====
section
/-!
SUPPORT. The values that byte reversal, mov, loadcons, loadconsx, loads and stores make, byte by byte or bit
by bit.
-/

namespace Sys2Proof.Machine

/-- A byte of a bit vector as a number. -/
theorem extractLsb'_byte_toNat {n : Nat} (v : BitVec n) (k : Nat) :
    (v.extractLsb' (8 * k) 8).toNat = v.toNat / 256 ^ k % 256 := by
  simp [BitVec.extractLsb'_toNat, Nat.shiftRight_eq_div_pow, Nat.pow_mul]

theorem extractLsb'_byte_eq_ofNat {n : Nat} (v : BitVec n) (k : Nat) :
    v.extractLsb' (8 * k) 8 = BitVec.ofNat 8 (v.toNat / 256 ^ k) :=
  BitVec.eq_of_toNat_eq (by rw [extractLsb'_byte_toNat, BitVec.toNat_ofNat])

/-- Byte k of the number that a byte list denotes. -/
theorem byte_of_numberOfBytes (n : Nat) (bs : List Byte) (hn : n = 8 * bs.length) (k : Nat)
    (hk : k < bs.length) :
    (BitVec.ofNat n (numberOfBytes bs)).extractLsb' (8 * k) 8 = bs[k] := by
  have hlt : numberOfBytes bs < 2 ^ n := by
    have := numberOfBytes_lt bs
    rw [hn, Nat.pow_mul]; exact this
  apply BitVec.eq_of_toNat_eq
  rw [extractLsb'_byte_toNat, BitVec.toNat_ofNat, Nat.mod_eq_of_lt hlt, numberOfBytes_byte bs k hk]

theorem getElem_inOrder (e : Endian) (bs : List Byte) (k : Nat) (hk : k < (inOrder e bs).length) :
    (inOrder e bs)[k] =
      bs[if e = .little then k else bs.length - 1 - k]'(by
        have := hk; rw [length_inOrder] at this; split <;> omega) := by
  cases e
  · simp [inOrder]
  · simp [inOrder, List.getElem_reverse]

/-- Byte j of a byte reversal is byte n/8 - 1 - j of the value. -/
theorem extractLsb'_brev (size : Size) (v : BitVec (sizeBits size)) (j : Nat)
    (hj : j < sizeBytes size) :
    (brev (sizeBits size) v).extractLsb' (8 * j) 8 =
      v.extractLsb' (8 * (sizeBytes size - 1 - j)) 8 := by
  have hl : ((bytesOfNumber (sizeBits size / 8) v.toNat).reverse).length = sizeBytes size := by
    simp [sizeBytes]
  unfold brev
  rw [byte_of_numberOfBytes _ _ (by rw [hl, sizeBits_eq]) j (by rw [hl]; exact hj)]
  rw [List.getElem_reverse, getElem_bytesOfNumber, extractLsb'_byte_eq_ofNat]
  simp [sizeBytes]

/-- The bytes of a value that has been read. -/
theorem Memory.read_bytes {m : Memory} {a : Word} {size : Size} {e : Endian}
    {v : BitVec (sizeBits size)} (h : Memory.read m a size e = some v) (k : Nat)
    (hk : k < sizeBytes size) :
    Memory.byteAt m (byteAddress a k) =
      some (v.extractLsb' (8 * (if e = .little then k else sizeBytes size - 1 - k)) 8) := by
  obtain ⟨bs, hb, rfl⟩ := Memory.read_eq_some.1 h
  have hlen : bs.length = sizeBytes size := by
    rw [Memory.length_bytesAt hb, length_touched]
  have hk' : k < (touched a (sizeBytes size)).length := by simpa using hk
  have h1 := Memory.bytesAt_getElem hb k hk'
  have h2 : (touched a (sizeBytes size))[k] = byteAddress a k := by simp [touched]
  rw [h2] at h1
  rw [h1]
  congr 1
  have hp : (if e = .little then k else sizeBytes size - 1 - k) < (inOrder e bs).length := by
    rw [length_inOrder, hlen]; split <;> omega
  rw [byte_of_numberOfBytes _ _ (by rw [length_inOrder, hlen, sizeBits_eq]) _ hp, getElem_inOrder]
  congr 1
  cases e
  · simp
  · simp [hlen]; omega

/-- The bytes in memory after a write. -/
theorem Memory.write_bytes {m m' : Memory} {a v : Word} {size : Size} {e : Endian}
    (h : Memory.write m a size e v = some m') (k : Nat) (hk : k < sizeBytes size) :
    Memory.byteAt m' (byteAddress a k) =
      some (v.extractLsb' (8 * (if e = .little then k else sizeBytes size - 1 - k)) 8) := by
  have hb := Memory.bytesAt_write h
  have h1 := Memory.bytesAt_getElem hb k (by simpa using hk)
  have h2 : (touched a (sizeBytes size))[k]'(by simpa using hk) = byteAddress a k := by simp [touched]
  rw [h2] at h1
  rw [h1, getElem_inOrder, getElem_bytesOfNumber, extractLsb'_byte_eq_ofNat]
  simp

/-- Lane 0 of a 64-bit value: its low bits. -/
theorem extractLsb'_himerge_byte (size : Size) (src : Word) (v : BitVec (sizeBits size)) (k : Nat)
    (hk : k < sizeBytes size) :
    (himerge (sizeBits size) src v).extractLsb' (8 * k) 8 = v.extractLsb' (8 * k) 8 := by
  have hb := sizeBits_eq size
  have hle := sizeBits_le size
  apply BitVec.eq_of_getLsbD_eq
  intro i hi
  simp only [BitVec.getLsbD_extractLsb', hi, decide_true, Bool.true_and]
  rw [getLsbD_himerge, if_pos (by omega)]
  simp [show 8 * k + i < 64 by omega]

/-! ### mov and the constants -/

theorem getLsbD_loadconsValue (shift : Fin 4) (imm16 : BitVec 16) (old : Word) (j : Nat) (hj : j < 64) :
    (loadconsValue shift imm16 old).getLsbD j =
      if 16 * shift.val ≤ j ∧ j < 16 * shift.val + 16 then imm16.getLsbD (j - 16 * shift.val)
      else old.getLsbD j := by
  have hm : ∀ i, (0xFFFF : Word).getLsbD i = decide (i < 16) := by
    intro i
    by_cases h : i < 64
    · have : ∀ i : Fin 64, (0xFFFF : Word).getLsbD i.val = decide (i.val < 16) := by decide
      exact this ⟨i, h⟩
    · rw [BitVec.getLsbD_of_ge _ _ (by omega)]; simp; omega
  simp only [loadconsValue, BitVec.getLsbD_or, BitVec.getLsbD_and, BitVec.getLsbD_not,
    BitVec.getLsbD_shiftLeft, BitVec.getLsbD_setWidth, hm, hj, decide_true, Bool.true_and]
  by_cases h1 : 16 * shift.val ≤ j
  · by_cases h2 : j < 16 * shift.val + 16
    · rw [if_pos ⟨h1, h2⟩]
      simp [show ¬ j < 16 * shift.val by omega, show j - 16 * shift.val < 16 by omega,
        show j - 16 * shift.val < 64 by omega]
    · rw [if_neg (by omega)]
      simp [show ¬ j - 16 * shift.val < 16 by omega,
        BitVec.getLsbD_of_ge imm16 (j - 16 * shift.val) (by omega)]
  · rw [if_neg (by omega)]
    simp [show j < 16 * shift.val by omega]

theorem getLsbD_loadconsxValue (shift : Fin 4) (imm16 : BitVec 16) (old : Word) (j : Nat)
    (hj : j < 64) :
    (loadconsxValue shift imm16 old).getLsbD j =
      if j < 16 * shift.val then old.getLsbD j
      else if j < 16 * shift.val + 16 then imm16.getLsbD (j - 16 * shift.val)
      else imm16.getLsbD 15 := by
  simp only [loadconsxValue, BitVec.getLsbD_or, BitVec.getLsbD_and, BitVec.getLsbD_not,
    BitVec.getLsbD_shiftLeft, BitVec.getLsbD_signExtend, BitVec.getLsbD_allOnes, hj, decide_true,
    Bool.true_and]
  by_cases h1 : j < 16 * shift.val
  · simp [h1]
  · have h3 : j - 16 * shift.val < 64 := by omega
    rw [if_neg h1]
    by_cases h2 : j < 16 * shift.val + 16
    · rw [if_pos h2]
      simp [h1, h3, show j - 16 * shift.val < 16 by omega]
    · rw [if_neg h2]
      simp [h1, h3, show ¬ j - 16 * shift.val < 16 by omega, BitVec.msb_eq_getLsbD_last]

theorem movValue_low (size : Size) (mode : HighMode) (old src : Word) :
    lane (sizeBits size) (movValue size mode old src) 0 = lane (sizeBits size) src 0 := by
  have hle := sizeBits_le size
  cases mode with
  | keep => exact lane_himerge _ hle old _
  | zeroExtend =>
    apply BitVec.eq_of_getLsbD_eq
    intro i hi
    rw [getLsbD_lane, Nat.mul_zero, Nat.zero_add]
    simp only [movValue, BitVec.getLsbD_setWidth, hi, show i < 64 by omega, decide_true, Bool.true_and]
  | signExtend =>
    apply BitVec.eq_of_getLsbD_eq
    intro i hi
    rw [getLsbD_lane, Nat.mul_zero, Nat.zero_add]
    simp only [movValue, BitVec.getLsbD_signExtend, hi, show i < 64 by omega, decide_true,
      Bool.true_and, if_true]

theorem movValue_keep (size : Size) (old src : Word) :
    movValue size .keep old src >>> sizeBits size = old >>> sizeBits size :=
  himerge_ushiftRight _ old _

theorem movValue_zeroExtend (size : Size) (old src : Word) :
    (movValue size .zeroExtend old src).toNat = (lane (sizeBits size) src 0).toNat := by
  simp only [movValue, BitVec.toNat_setWidth]
  exact Nat.mod_eq_of_lt ((BitVec.isLt _).trans_le (Nat.pow_le_pow_right (by decide) (sizeBits_le size)))

theorem movValue_signExtend (size : Size) (old src : Word) :
    (movValue size .signExtend old src).toInt = (lane (sizeBits size) src 0).toInt := by
  simp only [movValue]
  exact BitVec.toInt_signExtend_of_le (sizeBits_le size)

end Sys2Proof.Machine
end

