-- ==== Sys2Proof/Tests/Slice0.lean ====
section
/-!
SUPPORT. The model's own tests: what the well-formedness check refuses, one word of every constructor put
together from the figures of the spec, one or two steps of every instruction with the values that
spec/95_test_vectors.md derives, and for every statement with hypotheses a state and operands that meet them.
-/

set_option Elab.async false

namespace Sys2Proof.Tests

open Sys2Proof.Machine

/-! ### Widths (R6) -/

/-- The types have the widths of the configuration (`XLEN`, `NREGS`, `ILEN`). -/
theorem test_widths :
    Word = BitVec Config.xlen ∧ Reg = Fin Config.nregs ∧ Insn = BitVec Config.ilen := ⟨rfl, rfl, rfl⟩

/-! ### Ill-formed instructions (log 26): the names that no word decodes to -/

theorem test_wellFormed_refuses_bitop_clear : (Instr.bitop .clear 4 1 2).wellFormed = false := by decide
theorem test_wellFormed_refuses_bitop_change : (Instr.bitop .change 4 1 2).wellFormed = false := by decide
theorem test_wellFormed_refuses_bitop_test : (Instr.bitop .test 4 1 2).wellFormed = false := by decide
theorem test_wellFormed_refuses_bitset : (Instr.bitset 4 1 2).wellFormed = false := by decide
theorem test_wellFormed_refuses_trap : (Instr.trap 0 1).wellFormed = false := by decide
theorem test_wellFormed_refuses_logic_tables :
    (Instr.logic .b false false false true 1 2 3).wellFormed = false ∧
    (Instr.logic .b false true true false 1 2 3).wellFormed = false ∧
    (Instr.logic .b true false true false 1 2 3).wellFormed = false ∧
    (Instr.logic .b true false false false 1 2 3).wellFormed = false ∧
    (Instr.logic .b true true true false 1 2 3).wellFormed = false := by decide
theorem test_wellFormed_admits :
    (Instr.bitop .set 4 1 2).wellFormed = true ∧ (Instr.bclear 4 1 2).wellFormed = true ∧
    (Instr.logic .b false true true true 1 2 3).wellFormed = true ∧
    (Instr.syscall 0 1).wellFormed = true := by decide

/-! ### Decoding: the words of 95_test_vectors.md section 2 -/

theorem test_decode_add : decodeWord 0x0420E000 = .ok (.add .b false false true 1 2 3) := by decide +kernel
theorem test_decode_sub : decodeWord 0x0420D501 = .ok (.sub .d true true false 1 2 3) := by decide +kernel
theorem test_decode_mul : decodeWord 0x0C207002 = .ok (.mul .b false true true 1 2 3) := by decide +kernel
theorem test_decode_div : decodeWord 0x0C206503 = .ok (.div .d true false true 1 2 3) := by decide +kernel
theorem test_decode_addi : decodeWord 0x0C187504 = .ok (.addi .d true 0x87 1 3) := by decide +kernel
theorem test_decode_subi : decodeWord 0x08180305 = .ok (.subi .full false 0x80 1 2) := by decide +kernel
theorem test_decode_muli : decodeWord 0x08102506 = .ok (.muli .d true 2 1 2) := by decide +kernel
theorem test_decode_divi : decodeWord 0x0817F007 = .ok (.divi .b false 0x7F 1 2) := by decide +kernel
theorem test_decode_mod : decodeWord 0x0C204408 = .ok (.mod .b true 1 2 3) := by decide +kernel
theorem test_decode_modi : decodeWord 0x0810A309 = .ok (.modi .full false 10 1 2) := by decide +kernel
theorem test_decode_shift : decodeWord 0x0C204C0A = .ok (.shift .b true true 1 2 3) := by decide +kernel
theorem test_decode_rot : decodeWord 0x0C20470B = .ok (.rot .full true 1 2 3) := by decide +kernel
theorem test_decode_shifti : decodeWord 0x0817CE0C = .ok (.shifti .q true true 31 1 2) := by decide +kernel
theorem test_decode_roti : decodeWord 0x0812020D = .ok (.roti .q false 8 1 2) := by decide +kernel
theorem test_decode_bitop : decodeWord 0x140A000E = .ok (.bitop .set 40 0 5) := by decide +kernel
theorem test_decode_bclear : decodeWord 0x0811010E = .ok (.bclear 4 1 2) := by decide +kernel
theorem test_decode_bchange : decodeWord 0x0811020E = .ok (.bchange 4 1 2) := by decide +kernel
theorem test_decode_btest : decodeWord 0x0811C30E = .ok (.btest 7 1 2) := by decide +kernel
theorem test_decode_logic : decodeWord 0x0C204B0F = .ok (.logic .full false true false false 1 2 3) := by decide +kernel
theorem test_decode_and : decodeWord 0x0C20630F = .ok (.and .full 1 2 3) := by decide +kernel
theorem test_decode_xor : decodeWord 0x0C20580F = .ok (.xor .b 1 2 3) := by decide +kernel
theorem test_decode_not : decodeWord 0x0C20570F = .ok (.not .full 1 2 3) := by decide +kernel
theorem test_decode_nor : decodeWord 0x0C20470F = .ok (.nor .full 1 2 3) := by decide +kernel
theorem test_decode_nand : decodeWord 0x0C205F0F = .ok (.nand .full 1 2 3) := by decide +kernel
theorem test_decode_mix : decodeWord 0x0C204110 = .ok (.mix true 1 2 3) := by decide +kernel
theorem test_decode_expand : decodeWord 0x08100011 = .ok (.expand false 1 2) := by decide +kernel
theorem test_decode_fadd : decodeWord 0x0C204012 = .ok (.fadd 0 false false 1 2 3) := by decide +kernel
theorem test_decode_fsub : decodeWord 0x0C204013 = .ok (.fsub 0 false false 1 2 3) := by decide +kernel
theorem test_decode_fmul : decodeWord 0x0C204014 = .ok (.fmul 0 false false 1 2 3) := by decide +kernel
theorem test_decode_fdiv : decodeWord 0x0C204015 = .ok (.fdiv 0 false false 1 2 3) := by decide +kernel
theorem test_decode_int2f : decodeWord 0x08100016 = .ok (.int2f 0 false false .nearest 1 2) := by decide +kernel
theorem test_decode_f2int : decodeWord 0x08102416 = .ok (.f2int 0 false false .towardZero 1 2) := by decide +kernel
theorem test_decode_finv : decodeWord 0x08100017 = .ok (.finv 0 false false 1 2) := by decide +kernel
theorem test_decode_fsqrt : decodeWord 0x08100018 = .ok (.fsqrt 0 false false 1 2) := by decide +kernel
theorem test_decode_finvsqrt : decodeWord 0x08100019 = .ok (.finvsqrt 0 false false 1 2) := by decide +kernel
theorem test_decode_bitrev : decodeWord 0x0C20401A = .ok (.bitrev 1 2 3) := by decide +kernel
theorem test_decode_bitrevi : decodeWord 0x081F001B = .ok (.bitrevi 60 1 2) := by decide +kernel
theorem test_decode_byterev : decodeWord 0x0810021C = .ok (.byterev .q 1 2) := by decide +kernel
theorem test_decode_load : decodeWord 0x0C20461D = .ok (.load .q .big 1 2 3) := by decide +kernel
theorem test_decode_store : decodeWord 0x0C20451E = .ok (.store .d .big 1 2 3) := by decide +kernel
theorem test_decode_mov : decodeWord 0x0C20481F = .ok (.mov .b .signExtend 1 2 3) := by decide +kernel
theorem test_decode_loadcons : decodeWord 0x06AF3720 = .ok (.loadcons 3 0xABCD 1) := by decide +kernel
theorem test_decode_loadconsx : decodeWord 0x06000221 = .ok (.loadconsx 2 0x8000 1) := by decide +kernel
theorem test_decode_cachemm : decodeWord 0x08106022 = .ok (.cachemm .b false false .globalMem 1 2) := by decide +kernel
theorem test_decode_loadi : decodeWord 0x0817F923 = .ok (.loadi .d .little 255 1 2) := by decide +kernel
theorem test_decode_storei : decodeWord 0x08101D24 = .ok (.storei .d .big 3 1 2) := by decide +kernel
theorem test_decode_get : decodeWord 0x08100025 = .ok (.get 1 2) := by decide +kernel
theorem test_decode_put : decodeWord 0x08100026 = .ok (.put 1 2) := by decide +kernel
theorem test_decode_geti : decodeWord 0x04018C27 = .ok (.geti 99 1) := by decide +kernel
theorem test_decode_puti : decodeWord 0x04004028 = .ok (.puti 16 1) := by decide +kernel
theorem test_decode_jmpa : decodeWord 0x08100529 = .ok (.jmpa true .msb 1 2) := by decide +kernel
theorem test_decode_loadaddr : decodeWord 0x07FFFC2A = .ok (.loadaddr 0x3FFFC 1) := by decide +kernel
theorem test_decode_loopentry : decodeWord 0x1400002B = .ok (.loopentry 5) := by decide +kernel
theorem test_decode_loop : decodeWord 0x0810002C = .ok (.loop 1 2) := by decide +kernel
theorem test_decode_jmpi : decodeWord 0x0017FF2D = .ok (.jmpi 2047 1 0) := by decide +kernel
theorem test_decode_jmpr : decodeWord 0x07FFFE2E = .ok (.jmpr 0x3FFFE 1) := by decide +kernel
theorem test_decode_syscall : decodeWord 0x0401232F = .ok (.syscall 0x123 1) := by decide +kernel
theorem test_decode_halt : decodeWord 0x07FFFF30 = .ok (.halt 0x3FFFF 1) := by decide +kernel
theorem test_decode_rfe : decodeWord 0x04000031 = .ok (.rfe 0 1) := by decide +kernel
theorem test_encode_bitset : encode (.bitset 40 0 5) = 0x140A000E := by decide +kernel
theorem test_encode_trap : encode (.trap 0x123 1) = 0x0401232F := by decide +kernel
theorem test_decode_malformed :
    decodeWord 0x0420C800 = .error .malformed ∧ decodeWord 0x0C204C1F = .error .malformed ∧
    decodeWord 0x08103022 = .error .malformed ∧ decodeWord 0x08100629 = .error .malformed ∧
    decodeWord 0x1400012B = .error .malformed := by decide +kernel
theorem test_decode_illegal :
    decodeWord 0x00000032 = .error .illegalOpcode ∧ decodeWord 0xFFFFFFFF = .error .illegalOpcode ∧
    decodeWord 0x0C205012 = .error .illegalOpcode := by decide +kernel
theorem test_decode_truncated : decode [0x00, 0xC0, 0x20] = .error .truncated := by decide
theorem test_decode_least_significant_byte_first :
    decode [0x21, 0xE0, 0x59, 0x05] = .ok (.loadconsx 0 0x5678 1) := by decide +kernel

/-! ### One step of each instruction, with the values of 95_test_vectors.md section 2 -/

/-- A machine after reset in which some registers have been written. -/
def withRegs (rs : List (Reg × Word)) : State :=
  rs.foldl (fun s r => s.writeReg r.1 r.2) State.reset

/-- The 16 data bytes of section 2.8. -/
def dataBytes : List Byte :=
  [0x00, 0x11, 0x22, 0x33, 0x44, 0x55, 0x66, 0x77, 0x88, 0x99, 0xAA, 0xBB, 0x78, 0x56, 0x34, 0x12]

/-- That machine with the data bytes at 0x2000 and an instruction word at `pc`. -/
def machine (w : Nat) (rs : List (Reg × Word)) : State :=
  { (withRegs rs).withFetchWord 32 w with
    mem := Memory.putAll ((withRegs rs).withFetchWord 32 w).mem (touched 0x2000 16) dataBytes }

/-- The value of a written register after a step that goes on. -/
def regAfter (w : Nat) (rs : List (Reg × Word)) (r : Reg) : Option Word :=
  match step (machine w rs) with
  | .next t => if t.written[r] then some t.regs[r] else none
  | .fault _ => none
  | .refused _ => none

/-- The value of `pc` after a step that goes on. -/
def pcAfter (w : Nat) (rs : List (Reg × Word)) : Option Word :=
  match step (machine w rs) with
  | .next t => some t.pc
  | .fault _ => none
  | .refused _ => none

/-- A byte of memory after a step that goes on. -/
def byteAfter (w : Nat) (rs : List (Reg × Word)) (a : Nat) : Option Byte :=
  match step (machine w rs) with
  | .next t => Memory.byteAt t.mem a
  | .fault _ => none
  | .refused _ => none

/-- The exception or refusal that a step ends with. -/
def stopOf (w : Nat) (rs : List (Reg × Word)) : Option (Fault ⊕ Refusal) :=
  match step (machine w rs) with
  | .next _ => none
  | .fault f => some (.inl f)
  | .refused r => some (.inr r)

theorem test_add_wraps : regAfter 0x0420C300 [(1, 0xFFFFFFFFFFFFFFFF), (2, 1)] 3 = some 0 := by decide +kernel
theorem test_add_carry_lanes :
    regAfter 0x0420E400 [(1, 0x000000F800000001), (2, 0x0000000F00000002)] 4 = some 0x0000000100000000 := by
  decide +kernel
theorem test_sub_borrow :
    regAfter 0x0420E301 [(1, 0), (2, 1)] 4 = some 0xFFFFFFFFFFFFFFFF := by
  decide +kernel
theorem test_sub_floor_lanes :
    regAfter 0x0420D501 [(1, 0x0001000200030004), (2, 0x0002000200020005)] 3 = some 0x0000000000010000 := by
  decide +kernel
theorem test_mul_high_lanes :
    regAfter 0x0C206502 [(1, 0x0002FFFF01000003), (2, 0x0003FFFF01000005)] 4 = some 0x0000FFFE00010000 := by
  decide +kernel
theorem test_mul_signed_high :
    regAfter 0x0C207302 [(1, 0xFFFFFFFFFFFFFFFF), (2, 0xFFFFFFFFFFFFFFFF)] 4 = some 0 := by
  decide +kernel
theorem test_div_modulo_lanes :
    regAfter 0x0C206503 [(1, 0x0064006400640064), (2, 0x0001000700640065)] 4 = some 0x0000000200000064 := by
  decide +kernel
theorem test_div_one_zero_lane :
    stopOf 0x0C204403 [(1, 0x0808080808080808), (2, 0x0202020202020002)] =
      some (.inl .integerDivideByZero) := by decide +kernel
theorem test_addi_lanes :
    regAfter 0x0C187404 [(1, 0x00F80F00F045FF82)] 3 = some 0x877F968777CC8609 := by
  decide +kernel
theorem test_addi_keeps_high :
    regAfter 0x0817F204 [(1, 0x12345678FFFFFFFF)] 2 = some 0x123456780000007E := by
  decide +kernel
theorem test_subi_sign_extends : regAfter 0x08180305 [(1, 0)] 2 = some 0x80 := by decide +kernel
theorem test_muli_sign_extends : regAfter 0x081FF306 [(1, 5)] 2 = some 0xFFFFFFFFFFFFFFFB := by decide +kernel
theorem test_divi_quotient : regAfter 0x0810A307 [(1, 1234)] 2 = some 123 := by decide +kernel
theorem test_mod_lanes :
    regAfter 0x0C204408 [(1, 0x0A141E28323C4650), (2, 0x0303030303030303)] 3 = some 0x0102000102000102 := by
  decide +kernel
theorem test_modi_remainder : regAfter 0x0810A309 [(1, 1234)] 2 = some 4 := by decide +kernel
theorem test_modi_zero : stopOf 0x08100309 [(1, 1234)] = some (.inl .integerDivideByZero) := by decide +kernel
theorem test_shift_arithmetic : regAfter 0x0C204C0A [(1, 0xF0), (2, 2)] 3 = some 0xFC := by decide +kernel
theorem test_shift_left_by_63 :
    regAfter 0x0C20430A [(1, 3), (2, 63)] 3 = some 0x8000000000000000 := by
  decide +kernel
theorem test_rot_left_by_20_of_16 :
    regAfter 0x0C20410B [(1, 0x8001), (2, 20)] 3 = some 0x0018 := by
  decide +kernel
theorem test_shifti_arithmetic :
    regAfter 0x0817CE0C [(1, 0x1234567880000000)] 2 = some 0x12345678FFFFFFFF := by
  decide +kernel
theorem test_roti_right : regAfter 0x0810C40D [(1, 0x81)] 2 = some 0x30 := by decide +kernel
theorem test_bitop_set : regAfter 0x140FC00E [] 5 = some 0x8000000000000000 := by decide +kernel
theorem test_bclear : regAfter 0x0811010E [(1, 0xFF)] 2 = some 0xEF := by decide +kernel
theorem test_bchange : regAfter 0x0812020E [(1, 0xFF)] 2 = some 0x1FF := by decide +kernel
theorem test_btest_clear_bit : regAfter 0x0810030E [(1, 0xF0)] 2 = some 0 := by decide +kernel
theorem test_logic_r1_and_not_r2 :
    regAfter 0x0C204B0F [(1, 0x00FF00FF0F0F3355), (2, 0x0F0F0F0F00FF5533)] 3 = some 0x00F000F00F002244 := by
  decide +kernel
theorem test_and :
    regAfter 0x0C20630F [(1, 0x00FF00FF0F0F3355), (2, 0x0F0F0F0F00FF5533)] 3 = some 0x000F000F000F1111 := by
  decide +kernel
theorem test_xor_byte_keeps_r1 :
    regAfter 0x0C20580F [(1, 0x00FF00FF0F0F3355), (2, 0x0F0F0F0F00FF5533)] 3 = some 0x00FF00FF0F0F3366 := by
  decide +kernel
theorem test_not :
    regAfter 0x0C20570F [(1, 0x00FF00FF0F0F3355), (2, 0x0F0F0F0F00FF5533)] 3 = some 0xFF00FF00F0F0CCAA := by
  decide +kernel
theorem test_nor :
    regAfter 0x0C20470F [(1, 0x00FF00FF0F0F3355), (2, 0x0F0F0F0F00FF5533)] 3 = some 0xF000F000F0008888 := by
  decide +kernel
theorem test_nand :
    regAfter 0x0C205F0F [(1, 0x00FF00FF0F0F3355), (2, 0x0F0F0F0F00FF5533)] 3 = some 0xFFF0FFF0FFF0EEEE := by
  decide +kernel
theorem test_mix : stopOf 0x0C204110 [(1, 1), (2, 2)] = some (.inr .mixSemanticsLost) := by decide +kernel
theorem test_expand : stopOf 0x08100011 [(1, 1)] = some (.inr .expandSemanticsLost) := by decide +kernel
theorem test_fadd : stopOf 0x0C204012 [] = some (.inl .illegalOpcode) := by decide +kernel
theorem test_fadd_reserved_bit : stopOf 0x0C205012 [] = some (.inl .illegalOpcode) := by decide +kernel
theorem test_fsub : stopOf 0x0C204013 [] = some (.inl .illegalOpcode) := by decide +kernel
theorem test_fmul : stopOf 0x0C204014 [] = some (.inl .illegalOpcode) := by decide +kernel
theorem test_fdiv : stopOf 0x0C204015 [] = some (.inl .illegalOpcode) := by decide +kernel
theorem test_int2f : stopOf 0x08100016 [] = some (.inl .illegalOpcode) := by decide +kernel
theorem test_f2int : stopOf 0x08102416 [] = some (.inl .illegalOpcode) := by decide +kernel
theorem test_finv : stopOf 0x08100017 [] = some (.inl .illegalOpcode) := by decide +kernel
theorem test_fsqrt : stopOf 0x08100018 [] = some (.inl .illegalOpcode) := by decide +kernel
theorem test_finvsqrt : stopOf 0x08100019 [] = some (.inl .illegalOpcode) := by decide +kernel
theorem test_bitrev : regAfter 0x0C20401A [(1, 0x13), (2, 60)] 3 = some 0xC := by decide +kernel
theorem test_bitrevi : regAfter 0x081E001B [(1, 0xFFFFFFFFFFFFFF01)] 2 = some 0x80 := by decide +kernel
theorem test_byterev :
    regAfter 0x0810021C [(1, 0xAABBCCDD11223344)] 2 = some 0xAABBCCDD44332211 := by
  decide +kernel
theorem test_load_big : regAfter 0x0C00471D [(1, 0x2000)] 3 = some 0x0011223344556677 := by decide +kernel
theorem test_load_misaligned :
    stopOf 0x0C00421D [(1, 0x2002)] = some (.inr .misalignedData) := by
  decide +kernel
theorem test_store_big :
    byteAfter 0x0C20451E [(1, 0xABCD1234), (2, 0x2000), (3, 1)] 0x2002 = some 0x12 := by
  decide +kernel
theorem test_store_absent :
    stopOf 0x0020421E [(1, 1), (2, 0x3000)] = some (.inl .memoryException) := by
  decide +kernel
theorem test_loadi : regAfter 0x08100B23 [(1, 0x2000)] 2 = some 0x12345678BBAA9988 := by decide +kernel
theorem test_loadi_imm9_256 : stopOf 0x08180323 [(1, 0x2000)] = some (.inr .imm9Above255) := by decide +kernel
theorem test_storei :
    byteAfter 0x08100B24 [(1, 0x1122334455667788), (2, 0x2000)] 0x200F = some 0x11 := by
  decide +kernel
theorem test_mov_keeps_old_high :
    regAfter 0x0C20401F [(1, 1), (2, 0x1280), (3, 0x1111111111111111)] 3 = some 0x1111111111111180 := by
  decide +kernel
theorem test_mov_condition_is_64_bits :
    regAfter 0x0C204A1F [(1, 0x0000000100000000), (2, 0x80000000), (3, 0)] 3 = some 0xFFFFFFFF80000000 := by
  decide +kernel
theorem test_loadcons : regAfter 0x06AF3720 [(1, 0x12340000)] 1 = some 0xABCD000012340000 := by decide +kernel
theorem test_loadconsx :
    regAfter 0x06000221 [(1, 0x1111222233334444)] 1 = some 0xFFFF800033334444 := by
  decide +kernel
theorem test_cachemm : pcAfter 0x08106022 [(1, 0x2000), (2, 64)] = some 0x1004 := by decide +kernel
theorem test_jmpa_taken_on_msb :
    pcAfter 0x08100429 [(1, 0x8000000000000000), (2, 0x2000)] = some 0x2000 := by
  decide +kernel
theorem test_jmpa_not_taken_unchecked :
    pcAfter 0x08100029 [(1, 0), (2, 0x2002)] = some 0x1004 := by
  decide +kernel
theorem test_loadaddr_negative : regAfter 0x0600002A [] 1 = some 0xFFFFFFFFFFFE1000 := by decide +kernel
theorem test_loopentry : regAfter 0x1400002B [] 5 = some 0x1004 := by decide +kernel
theorem test_loop : stopOf 0x0810002C [(1, 1), (2, 2)] = some (.inr .loopSemanticsLost) := by decide +kernel
theorem test_jmpi_counts_instructions :
    pcAfter 0x0810032D [(1, 1), (2, 0x2000)] = some 0x200C := by
  decide +kernel
theorem test_jmpi_misaligned :
    stopOf 0x0810012D [(1, 1), (2, 0x2001)] = some (.inr .misalignedTarget) := by
  decide +kernel
theorem test_jmpr_backwards : pcAfter 0x07FFFE2E [(1, 1)] = some 0xFF8 := by decide +kernel
theorem test_syscall : stopOf 0x0401232F [(1, 1)] = some (.inl .syscall) := by decide +kernel
theorem test_syscall_r0 : stopOf 0x0001232F [] = some (.inr .optionalOperandZero) := by decide +kernel
theorem test_halt_keeps_pc : pcAfter 0x07FFFF30 [(1, 7)] = some 0x1000 := by decide +kernel
theorem test_rfe : stopOf 0x04000031 [(1, 1)] = some (.inr .returnSequenceLost) := by decide +kernel
theorem test_trap : exec (.trap 0x123 1) (withRegs [(1, 1)]) = .fault .syscall := rfl
theorem test_bitset_is_bitop_set (s : State) : exec (.bitset 40 0 5) s = exec (.bitop .set 40 0 5) s := rfl
/-- A machine in which `SR_TMP` has been put. -/
def withTmp : State :=
  State.reset.withSpecial { SpecialRegs.reset with tmp := 0xDEADBEEF, tmpWritten := true }

theorem test_puti_tmp : exec (.puti (Config.irIndex .srTmp) 1) (withRegs [(1, 0xDEADBEEF)]) =
    .next ((withRegs [(1, 0xDEADBEEF)]).withSpecial withTmp.sr).advance := by
  simp only [exec, execPuti, putInternal, iregAt_irIndex]; rfl
theorem test_geti_tmp :
    exec (.geti (Config.irIndex .srTmp) 2) withTmp = .next (withTmp.writeReg 2 0xDEADBEEF).advance := by
  simp only [exec, execGeti, getInternal, iregAt_irIndex]; rfl
theorem test_put_to_read_only :
    exec (.puti (Config.irIndex .srEr) 1) (withRegs [(1, 5)]) = .refused .putToReadOnly := by
  simp only [exec, execPuti, putInternal, iregAt_irIndex]; rfl

/-! ### Witnesses: for every statement with hypotheses, a state and operands that meet all of them -/

/-- A machine whose first instruction has this word, its bytes in memory and nothing stored to. -/
def fetching (w : Nat) : State :=
  State.reset.withFetchWord 32 w

/-- A machine in which the word at `pc` has been stored to. -/
def storedOver : State :=
  { fetching 0 with storedTo := [0x1003] }

theorem witness_EncodedInstructionDecodesToItself :
    (Instr.logic .full true true true true 63 0 63).wellFormed = true := by decide
theorem witness_DecodedWordIsTheEncodingOfItsInstruction :
    decodeWord 0xFFFFFF31 = .ok (.rfe 0x3FFFF 63) := by decide +kernel
theorem witness_ReservedBitsAreMalformed :
    (fieldAt 0x0420C800 0 8 = Config.opc .add ∧ isFloatingPoint .add = false ∧
      (0x0420C800 : Insn) &&& reservedMask .add ≠ 0) ∧
    (fieldAt 0x0C204C1F 0 8 = Config.opc .mov ∧ fieldAt 0x0C204C1F 10 2 = 3) ∧
    (fieldAt 0x08103022 0 8 = Config.opc .cachemm ∧ fieldAt 0x08103022 12 3 = 3) ∧
    (fieldAt 0x08100629 0 8 = Config.opc .jmpa ∧ fieldAt 0x08100629 9 2 = 3) ∧
    (fieldAt 0xFFFFFF31 0 8 = Config.opc .rfe ∧ isFloatingPoint .rfe = false) := by decide +kernel
theorem witness_UnassignedOpcodeIsIllegal :
    decodeWord 0x0C205012 = .error .illegalOpcode ∧ decodeWord 0x0C205019 = .error .illegalOpcode ∧
    0x32 ≤ (fieldAt 0x00000032 0 8).toNat ∧ 0x32 ≤ (fieldAt 0xFFFFFFFF 0 8).toNat ∧
    (fetching 0x32).fetches (bytesOfWord 0x32) := by
  unfold State.fetches; decide +kernel
theorem witness_FloatingPointOpcodeIsIllegalWhateverItsBits :
    0x12 ≤ (fieldAt 0xFFFFFF12 0 8).toNat ∧ (fieldAt 0xFFFFFF19 0 8).toNat ≤ 0x19 ∧
    (fetching 0xFFFFFF12).fetches (bytesOfWord 0xFFFFFF12) ∧
    (fetching 0xFFFFFF19).fetches (bytesOfWord 0xFFFFFF19) := by
  unfold State.fetches; decide +kernel

/-- A machine that executes the store of section 2.8. -/
def storing : State :=
  machine 0x0C20451E [(1, 0xABCD1234), (2, 0x2000), (3, 1)]

theorem witness_StepKeepsTheInvariant : storing.inv = true ∧ Outcome.goesOn (step storing) = true := by
  decide +kernel
theorem witness_ExistingAddressesNeverChange :
    Memory.wf storing.mem = true ∧ Outcome.goesOn (step storing) = true := by decide +kernel
theorem witness_PcStaysAligned_step :
    (machine 0x07FFFE2E [(1, 1)]).pc.toNat % 4 = 0 ∧
    Outcome.goesOn (step (machine 0x07FFFE2E [(1, 1)])) = true := by decide +kernel
theorem witness_PcStaysAligned_jmpa :
    jumpCondition false .nonNil ((withRegs [(1, 1), (2, 0x2003)]).readReg .reg1 1) ∧
    ((withRegs [(1, 1), (2, 0x2003)]).readReg .reg2 2).toNat % 4 ≠ 0 :=
  ⟨⟨fun _ => rfl, fun _ => by decide +kernel⟩, by decide +kernel⟩
theorem witness_PcStaysAligned_jmpi :
    (2047 : BitVec 12).toNat ≤ 2047 ∧ (withRegs [(1, 1), (2, 0x2001)]).readReg .reg1 1 ≠ 0 ∧
    ((withRegs [(1, 1), (2, 0x2001)]).readReg .reg2 2).toNat % 4 ≠ 0 := by decide +kernel
theorem witness_RegisterZeroIsZero : (63 : Reg) ≠ 0 := by decide
theorem witness_StepRunsTheDecodedInstruction :
    (fetching 0x0420E000).fetches (bytesOfWord 0x0420E000) ∧
    decode (bytesOfWord 0x0420E000) = .ok (.add .b false false true 1 2 3) := by
  unfold State.fetches; decide +kernel
theorem witness_StepStopsAtTheFetch_halted : { State.reset with run := .halted }.run = .halted := rfl
theorem witness_StepStopsAtTheFetch_stored :
    storedOver.run = .running ∧ ∃ a ∈ touched storedOver.pc 4, a ∈ storedOver.storedTo := by
  decide +kernel
theorem witness_StepStopsAtTheFetch_absent :
    State.reset.run = .running ∧ (∀ a ∈ touched State.reset.pc 4, a ∉ State.reset.storedTo) ∧
    ∃ a ∈ touched State.reset.pc 4, Memory.byteAt State.reset.mem a = none := by decide +kernel
theorem witness_StepStopsAtTheFetch_rejected :
    ((fetching 0x32).fetches (bytesOfWord 0x32) ∧
      decode (bytesOfWord 0x32) = .error .illegalOpcode) ∧
    (fetching 0x0420C800).fetches (bytesOfWord 0x0420C800) ∧
      decode (bytesOfWord 0x0420C800) = .error .malformed := by
  unfold State.fetches; decide +kernel

theorem witness_WriteThenReadReturnsTheLowBytes :
    storing.accessExists 0x2008 (sizeBytes .full) ∧ storing.accessExists 0x200F (sizeBytes .b) := by
  unfold State.accessExists; decide +kernel
theorem witness_WriteChangesOnlyItsBytes :
    (Memory.write storing.mem 0x2008 .full .big 1).isSome = true ∧ 7 < sizeBytes .full ∧
    0x2010 ∉ touched 0x2008 (sizeBytes .full) ∧ Memory.wf storing.mem = true := by decide +kernel
theorem witness_ReadAssemblesBytesInTheChosenOrder :
    Memory.read storing.mem 0x2008 .full .little = some 0x12345678BBAA9988 ∧
    7 < sizeBytes .full := by decide +kernel

/-- `addi` and `jmpr`, neither a store. -/
def twoInstructions : List Instr :=
  [.addi .full false 0xFF 0 2, .jmpr 2 2]

theorem witness_ReadsAgreeBetweenStores :
    (∀ i ∈ twoInstructions, i.isStore = false) ∧ Outcome.goesOn (execAll twoInstructions State.reset) = true ∧
    (Instr.loadi .full .little 1 1 2).isStore = false ∧
    Outcome.goesOn (exec (.loadi .full .little 1 1 2) (machine 0 [(1, 0x2000)])) = true := by decide +kernel
theorem witness_OnlyPutsChangeInternalRegisters :
    Outcome.goesOn (exec (.puti (Config.irIndex .srTmp) 1) (withRegs [(1, 0xDEADBEEF)])) = true ∧
    Outcome.goesOn (exec (.loopentry 5) State.reset) = true := by
  rw [test_puti_tmp]; decide +kernel
theorem witness_PcAdvancesByFourUnlessJumped :
    Outcome.goesOn (exec (.halt 0 1) (withRegs [(1, 1)])) = true ∧
    Outcome.goesOn (exec (.jmpa false .nonNil 1 2) (withRegs [(1, 1), (2, 0x2000)])) = true ∧
    Outcome.goesOn (exec (.jmpi 2047 1 2) (withRegs [(1, 1), (2, 0x2000)])) = true ∧
    Outcome.goesOn (exec (.jmpr 0x20000 1) (withRegs [(1, 1)])) = true ∧
    Outcome.goesOn (exec (.loopentry 5) State.reset) = true := by decide +kernel
theorem witness_OnlyDestinationsChange :
    Outcome.goesOn (exec (.div .full false false true 1 2 62) (withRegs [(1, 100), (2, 7)])) = true ∧
    (0 : Reg) = 0 ∧ (61 : Reg) ∉ (Instr.div .full false false true 1 2 62).destinations ∧
    (Instr.div .full false false true 1 2 62).isStore = false := by decide +kernel
theorem witness_CausesOfExceptions_divide :
    exec (.div .full false false false 1 0 3) (withRegs [(1, 5)]) = .fault .integerDivideByZero := rfl
theorem witness_CausesOfExceptions_memory :
    exec (.loadi .b .little 255 0 3) State.reset = .fault .memoryException := rfl
theorem witness_CausesOfExceptions_syscall :
    exec (.syscall 0 1) (withRegs [(1, 1)]) = .fault .syscall := rfl
theorem witness_CausesOfExceptions_floatingPoint :
    exec (.finvsqrt 0 false false 1 2) State.reset = .fault .illegalOpcode := rfl
theorem witness_TypesAndReasonsOfExceptions :
    Fault.reason .externalInterrupt = some 1 ∧ Fault.reason .memoryException = some 12 := ⟨rfl, rfl⟩
theorem witness_UnwrittenValuesInfluenceNothing :
    State.reset.sameVisible { State.reset with regs := State.reset.regs.set 5 7, msw := 1 } ∧
    State.reset ≠ { State.reset with regs := State.reset.regs.set 5 7, msw := 1 } := by
  unfold State.sameVisible; decide +kernel

theorem witness_AddResults :
    (¬(false = true ∧ true = true) ∧ (true = true → (62 : Reg).val < 63)) ∧
    (¬(true = true ∧ false = true) ∧ (false = true → (63 : Reg).val < 63)) := by decide
theorem witness_SubResults :
    (¬(false = true ∧ true = true) ∧ (true = true → (62 : Reg).val < 63)) ∧
    (¬(true = true ∧ false = true) ∧ (false = true → (63 : Reg).val < 63)) := by decide
theorem witness_MulResults :
    (true = true → (62 : Reg).val < 63) ∧ (false = true → (63 : Reg).val < 63) := by decide

/-- Operands of a SIMD division: 0x7F and 0x80, the boundary of the exact quotients, in lanes 0 and 1. -/
def dividing : State :=
  withRegs [(1, 0x807F), (2, 0x0101010101010101)]

theorem witness_DivResults :
    (true = true → (62 : Reg).val < 63) ∧
    (∀ k, workedOn (sizeBits .b) true k → lane (sizeBits .b) (dividing.readReg .reg2 2) k ≠ 0) ∧
    (lane (sizeBits .b) (dividing.readReg .reg1 1) 0).toNat < 2 ^ 7 ∧
    2 ^ 7 ≤ (lane (sizeBits .b) (dividing.readReg .reg1 1) 1).toNat := by
  refine ⟨by decide, ?_, by decide +kernel, by decide +kernel⟩
  have all : ∀ k < 8, lane (sizeBits .b) (dividing.readReg .reg2 2) k ≠ 0 := by decide +kernel
  rintro k (rfl | ⟨_, h⟩)
  · exact all 0 (by decide)
  · exact all k h
theorem witness_ModResults :
    (∀ k, workedOn (sizeBits .b) true k → lane (sizeBits .b) (dividing.readReg .reg2 2) k ≠ 0) ∧
    (lane (sizeBits .b) (dividing.readReg .reg1 1) 0).toNat < 2 ^ 7 ∧
    2 ^ 7 ≤ (lane (sizeBits .b) (dividing.readReg .reg1 1) 1).toNat :=
  witness_DivResults.2
theorem witness_ImmediateDivisionResults :
    (0x7F : BitVec 8) ≠ 0 ∧ (0x7F : BitVec 8).toNat < 0x80 ∧ (0x80 : BitVec 8) ≠ 0 := by decide
theorem witness_DivisionByZeroIsRaised :
    ¬(true = true ∧ (62 : Reg) = 63) ∧ workedOn (sizeBits .b) true 7 ∧
    lane (sizeBits .b) ((withRegs [(2, 0x0002020202020202)]).readReg .reg2 2) 7 = 0 := by
  refine ⟨by decide, Or.inr ⟨rfl, by decide⟩, by decide +kernel⟩

theorem witness_LoadResults :
    (effectiveAddress .full 0x2000 1).toNat % sizeBytes .full = 0 ∧
    storing.accessExists (effectiveAddress .full 0x2000 1) (sizeBytes .full) ∧
    (255 : BitVec 9).toNat ≤ 255 ∧
    (effectiveAddress .b 0x1F10 ((255 : BitVec 9).setWidth 64)).toNat % sizeBytes .b = 0 ∧
    storing.accessExists (effectiveAddress .b 0x1F10 ((255 : BitVec 9).setWidth 64)) (sizeBytes .b) := by
  unfold State.accessExists; decide +kernel

/-- The machine of the store with a base and an index in registers. -/
def addressing (base index : Word) : State :=
  machine 0 [(1, base), (2, base), (3, index)]

theorem witness_StoreResults :
    (effectiveAddress .full ((addressing 0x2000 1).readReg .reg2 2)
      ((addressing 0x2000 1).readReg .reg3 3)).toNat % sizeBytes .full = 0 ∧
    (addressing 0x2000 1).accessExists (effectiveAddress .full
      ((addressing 0x2000 1).readReg .reg2 2) ((addressing 0x2000 1).readReg .reg3 3))
      (sizeBytes .full) ∧
    (255 : BitVec 9).toNat ≤ 255 ∧
    (addressing 0x1F10 1).accessExists (effectiveAddress .b
      ((addressing 0x1F10 1).readReg .reg2 2) ((255 : BitVec 9).setWidth 64)) (sizeBytes .b) := by
  unfold State.accessExists; decide +kernel
theorem witness_AccessStops_misaligned :
    (effectiveAddress .q ((addressing 0x2002 1).readReg .reg2 2)
      ((addressing 0x2002 1).readReg .reg3 3)).toNat % sizeBytes .q ≠ 0 ∧
    (255 : BitVec 9).toNat ≤ 255 ∧
    (effectiveAddress .q ((addressing 0x2002 1).readReg .reg2 2)
      ((255 : BitVec 9).setWidth 64)).toNat % sizeBytes .q ≠ 0 := by decide +kernel
theorem witness_AccessStops_absent :
    (effectiveAddress .q ((addressing 0x200C 1).readReg .reg2 2)
      ((addressing 0x200C 1).readReg .reg3 3)).toNat % sizeBytes .q = 0 ∧
    ¬ (addressing 0x200C 1).accessExists (effectiveAddress .q
      ((addressing 0x200C 1).readReg .reg2 2) ((addressing 0x200C 1).readReg .reg3 3)) (sizeBytes .q) ∧
    ¬ (addressing 0x2010 1).accessExists (effectiveAddress .b
      ((addressing 0x2010 1).readReg .reg2 2) ((0 : BitVec 9).setWidth 64)) (sizeBytes .b) := by
  unfold State.accessExists; decide +kernel
theorem witness_AccessStops_imm9 : 255 < (256 : BitVec 9).toNat := by decide
theorem witness_MovResults :
    (withRegs [(1, 0)]).readReg .reg1 1 = 0 ∧
    (withRegs [(1, 0x8000000000000000)]).readReg .reg1 1 ≠ 0 := by decide +kernel
theorem witness_MovHighPartModes :
    (fieldAt 0x0C20401F 0 8 = Config.opc .mov ∧ fieldAt 0x0C20401F 12 2 = 0 ∧
      flagAt 0x0C20401F 11 = false ∧ flagAt 0x0C20401F 10 = false) ∧
    (fieldAt 0x0C20441F 12 2 = 0 ∧ flagAt 0x0C20441F 11 = false ∧ flagAt 0x0C20441F 10 = true) ∧
    (fieldAt 0x0C20481F 12 2 = 0 ∧ flagAt 0x0C20481F 11 = true ∧ flagAt 0x0C20481F 10 = false) ∧
    (fieldAt 0x0C204C1F 12 2 = 0 ∧ flagAt 0x0C204C1F 11 = true ∧ flagAt 0x0C204C1F 10 = true) ∧
    (withRegs [(1, 0x8000000000000000)]).readReg .reg1 1 ≠ 0 := by decide +kernel
theorem witness_LoadconsxResults : fieldAt 0xFFFFFF21 0 8 = Config.opc .loadconsx := by decide +kernel
theorem witness_CachemmLevels :
    (fieldAt 0x08100022 0 8 = Config.opc .cachemm ∧ fieldAt 0x08100022 15 5 = 0 ∧
      fieldAt 0x08100022 12 3 = 0) ∧
    fieldAt 0x08101022 12 3 = 1 ∧ fieldAt 0x08102022 12 3 = 2 ∧ fieldAt 0x08104022 12 3 = 4 ∧
    fieldAt 0x08105022 12 3 = 5 ∧ fieldAt 0x08106022 12 3 = 6 ∧
    (fieldAt 0x08107022 15 5 = 0 ∧ fieldAt 0x08107022 12 3 = 7) ∧
    (fieldAt 0x08103022 15 5 = 0 ∧ fieldAt 0x08103022 12 3 = 3) := by decide +kernel

/-- A machine whose registers 1 and 2 hold the index of an internal register. -/
def indexing (n : IReg) : State :=
  withRegs [(1, (Config.irIndex n).setWidth 64), (2, (Config.irIndex n).setWidth 64)]

theorem witness_GetResults :
    (indexing .procId).readReg .reg1 1 = (Config.irIndex .procId).setWidth 64 := rfl
theorem witness_PutResults :
    .srTmp ∈ readWrite ∧
    (indexing .srTmp).readReg .reg2 2 = (Config.irIndex .srTmp).setWidth 64 := ⟨by decide, rfl⟩
theorem witness_InternalRegisterStops_range :
    2 ^ 16 ≤ ((withRegs [(1, 0x10000)]).readReg .reg1 1).toNat ∧
    2 ^ 16 ≤ ((withRegs [(2, 0x10000)]).readReg .reg2 2).toNat ∧
    (∀ n, (withRegs [(1, 0x10000)]).readReg .reg1 1 ≠ (Config.irIndex n).setWidth 64) ∧
    (∀ n, (withRegs [(2, 0x10000)]).readReg .reg2 2 ≠ (Config.irIndex n).setWidth 64) := by
  have big : ∀ n, (0x10000 : Word) ≠ (Config.irIndex n).setWidth 64 := by
    intro n h
    have h2 := congrArg BitVec.toNat h
    have := (Config.irIndex n).isLt
    rw [BitVec.toNat_setWidth, show (0x10000 : Word).toNat = 0x10000 from rfl] at h2
    omega
  exact ⟨by decide +kernel, by decide +kernel, big, big⟩
theorem witness_InternalRegisterStops_unpopulated :
    ∃ imm16 : BitVec 16, ∀ n, imm16 ≠ Config.irIndex n := by
  by_contra h
  push Not at h
  have all : ∀ n : IReg, n ∈ Config.iregs := by intro n; cases n <;> decide
  have sub : ((List.range 18).map (BitVec.ofNat 16)) ⊆ Config.iregs.map Config.irIndex := by
    intro x _
    obtain ⟨n, rfl⟩ := h x
    exact List.mem_map_of_mem (all n)
  have nodup : ((List.range 18).map (BitVec.ofNat 16)).Nodup := by decide
  have := (nodup.subperm sub).length_le
  simp [Config.iregs] at this
theorem witness_InternalRegisterStops_readOnly :
    .srEr ∉ readWrite ∧
    (indexing .srEr).readReg .reg2 2 = (Config.irIndex .srEr).setWidth 64 := ⟨by decide, rfl⟩

theorem witness_JmpaResults_taken :
    jumpCondition true .msb ((withRegs [(1, 0x7FFFFFFFFFFFFFFF), (2, 0xFFFFFFFFFFFFFFFC)]).readReg .reg1 1) ∧
    ((withRegs [(1, 0x7FFFFFFFFFFFFFFF), (2, 0xFFFFFFFFFFFFFFFC)]).readReg .reg2 2).toNat % 4 = 0 :=
  ⟨⟨fun h => absurd h (by decide +kernel), fun h => by cases h⟩, by decide +kernel⟩
theorem witness_JmpaResults_notTaken :
    ¬ jumpCondition false .msb ((withRegs [(1, 0x7FFFFFFFFFFFFFFF)]).readReg .reg1 1) :=
  fun h => absurd (h.2 rfl) (by decide +kernel)
theorem witness_JmpiAndJmprResults :
    (2047 : BitVec 12).toNat ≤ 2047 ∧ (withRegs [(1, 0)]).readReg .reg1 1 = 0 ∧
    (withRegs [(1, 1), (2, 0xFFFFFFFFFFFFFFFC)]).readReg .reg1 1 ≠ 0 ∧
    ((withRegs [(1, 1), (2, 0xFFFFFFFFFFFFFFFC)]).readReg .reg2 2).toNat % 4 = 0 := by decide +kernel
theorem witness_LoopentryResults :
    (fieldAt 0x1400002B 0 8 = Config.opc .loopentry ∧ fieldAt 0x1400002B 8 18 = 0) ∧
    (fieldAt 0x1400012B 0 8 = Config.opc .loopentry ∧ fieldAt 0x1400012B 8 18 ≠ 0) ∧
    fieldAt 0x1600002B 8 18 ≠ 0 := by decide +kernel
theorem witness_HaltResults :
    (withRegs [(1, 0x8000000000000000)]).readReg .reg1 1 ≠ 0 ∧ State.reset.readReg .reg1 0 = 0 := by
  decide +kernel
theorem witness_SystemAndLostInstructionStops :
    (withRegs [(1, 0x8000000000000000)]).readReg .reg1 1 ≠ 0 ∧ State.reset.readReg .reg1 0 = 0 := by
  decide +kernel
theorem witness_FormsWithoutMeaningAreRefused : 2047 < (2048 : BitVec 12).toNat := by decide

end Sys2Proof.Tests
end

section
/-!
PROOFS. The statements on memory that rest on what a completed instruction can have done: `pc` stays a multiple
of 4 (R58), and between stores memory reads as it did (R61).
-/

namespace Sys2Proof.Machine

/-! ### Multiples of 4 modulo 2^64 -/

/-- 4 divides 2^64, so the wrap of an addition does not change the residue (D34). -/
theorem toNat_add_mod_four {a b : Word} (hb : b.toNat % 4 = 0) :
    (a + b).toNat % 4 = a.toNat % 4 := by
  rw [BitVec.toNat_add]
  omega

theorem toNat_four_mul_mod_four (x : Word) : (4 * x).toNat % 4 = 0 := by
  rw [BitVec.toNat_mul, show (4 : Word).toNat = 4 from rfl]
  omega

/-! ### `pc` -/

theorem State.advance_pc_mod_four (s : State) : s.advance.pc.toNat % 4 = s.pc.toNat % 4 :=
  toNat_add_mod_four rfl

theorem Completed.pc_mod_four {i : Instr} {s t : State} (h : Completed i s t)
    (hs : s.pc.toNat % 4 = 0) : t.pc.toNat % 4 = 0 := by
  have advanced (u : State) (hu : u.pc = s.pc) : u.advance.pc.toNat % 4 = 0 := by
    rw [State.advance_pc_mod_four, hu, hs]
  rcases h with rfl | ⟨_, x, rfl, hx⟩ | ⟨d, v, _, rfl⟩ | ⟨d, v, e, w, _, _, rfl⟩ |
    ⟨_, size, e, ea, v, m, _, rfl⟩ | ⟨_, n, v, sr, _, rfl⟩ | ⟨_, rfl⟩
  · exact advanced s rfl
  · exact hx hs
  · exact advanced (s.writeReg d v) rfl
  · exact advanced ((s.writeReg d v).writeReg e w) rfl
  · exact advanced (s.stored m (touched ea (sizeBytes size))) rfl
  · exact advanced (s.withSpecial sr) rfl
  · exact hs

theorem step_pc_mod_four {s t : State} (hs : s.pc.toNat % 4 = 0) (h : step s = .next t) :
    t.pc.toNat % 4 = 0 := by
  rcases step_next h with ⟨_, rfl⟩ | ⟨_, i, _, hi⟩
  · exact hs
  · exact (exec_completed i s t hi).pc_mod_four hs

/-! ### Jumps -/

theorem nonNil_eq_true {c : Word} : nonNil c = true ↔ c ≠ 0 := by
  simp [nonNil]

/-- `jmpr` always completes: it has no check of its target (R268). -/
theorem exec_jmpr_completes (imm18 : BitVec 18) (r1 : Reg) (s : State) :
    ∃ t, exec (.jmpr imm18 r1) s = .next t := by
  show ∃ t, execJmpr imm18 r1 s = .next t
  unfold execJmpr
  split
  · exact ⟨_, rfl⟩
  · exact ⟨_, complete_eq s⟩

theorem jumpIf_misaligned (s : State) {cond : Bool} {t : Word} (hc : cond = true)
    (ht : t.toNat % 4 ≠ 0) : jumpIf s cond t = .refused .misalignedTarget := by
  rw [jumpIf_cases, if_pos hc, if_neg ht]

theorem getLsbD_zero_iff_odd {c : Word} : c.getLsbD 0 = true ↔ c.toNat % 2 = 1 := by
  rw [BitVec.getLsbD, Nat.testBit_zero, decide_eq_true_iff]

theorem getLsbD_63_iff_le_toNat {c : Word} : c.getLsbD 63 = true ↔ 2 ^ 63 ≤ c.toNat := by
  rw [← BitVec.msb_eq_getLsbD_last c, BitVec.msb_eq_decide, decide_eq_true_iff]

/-- What `jmpa` computes is the condition of R262. -/
theorem jmpaCondition_eq_true {negate : Bool} {test : BitTest} {c : Word} :
    jmpaCondition negate test c = true ↔ jumpCondition negate test c := by
  unfold jmpaCondition jumpCondition
  cases test with
  | nonNil => rw [← nonNil_eq_true]; cases negate <;> simp
  | lsb => rw [← getLsbD_zero_iff_odd]; cases negate <;> simp
  | msb => rw [← getLsbD_63_iff_le_toNat]; cases negate <;> simp

theorem exec_jmpa_misaligned {negate : Bool} {test : BitTest} {r1 r2 : Reg} {s : State}
    (hc : jumpCondition negate test (s.readReg .reg1 r1))
    (ht : (s.readReg .reg2 r2).toNat % 4 ≠ 0) :
    exec (.jmpa negate test r1 r2) s = .refused .misalignedTarget :=
  jumpIf_misaligned s (jmpaCondition_eq_true.2 hc) ht

/-- The offset of `jmpi` is a multiple of 4, so its target is misaligned exactly if its base is. -/
theorem exec_jmpi_misaligned {imm12 : BitVec 12} {r1 r2 : Reg} {s : State}
    (himm : imm12.toNat ≤ 2047) (hc : s.readReg .reg1 r1 ≠ 0)
    (ht : (s.readReg .reg2 r2).toNat % 4 ≠ 0) :
    exec (.jmpi imm12 r1 r2) s = .refused .misalignedTarget := by
  show execJmpi imm12 r1 r2 s = _
  rw [execJmpi, if_neg (Nat.not_lt.2 himm)]
  refine jumpIf_misaligned s (nonNil_eq_true.2 hc) ?_
  rwa [toNat_add_mod_four (toNat_four_mul_mod_four _)]

/-- Settles O12: the step through `Completed`, and the three jumps each by its own case. -/
theorem pcStaysAligned : Obligations.PcStaysAligned := by
  refine ⟨fun s t hs h => step_pc_mod_four hs h, fun imm18 r1 s hs => ?_,
    fun _ _ _ _ _ => exec_jmpa_misaligned, fun _ _ _ _ => exec_jmpi_misaligned⟩
  obtain ⟨t, ht⟩ := exec_jmpr_completes imm18 r1 s
  exact ⟨t, ht, (exec_completed _ s t ht).pc_mod_four hs⟩

/-! ### Memory between stores -/

theorem Completed.mem_eq_of_not_store {i : Instr} {s t : State} (h : Completed i s t)
    (hi : i.isStore = false) : t.mem = s.mem := by
  rcases h with rfl | ⟨_, x, rfl, _⟩ | ⟨d, v, _, rfl⟩ | ⟨d, v, e, w, _, _, rfl⟩ |
    ⟨hstore, _⟩ | ⟨_, n, v, sr, _, rfl⟩ | ⟨_, rfl⟩
  · exact s.advance_mem
  · exact s.goto_mem x
  · exact s.writeReg_mem d v
  · exact ((s.writeReg d v).writeReg_mem e w).trans (s.writeReg_mem d v)
  · simp [hi] at hstore
  · exact s.withSpecial_mem sr
  · exact s.halted_mem

theorem exec_mem_of_not_store {i : Instr} {s t : State} (hi : i.isStore = false)
    (h : exec i s = .next t) : t.mem = s.mem :=
  (exec_completed i s t h).mem_eq_of_not_store hi

/-- A sequence completes exactly if its first instruction does and the rest does from there. -/
theorem execAll_cons_eq_next {i : Instr} {rest : List Instr} {s t : State} :
    execAll (i :: rest) s = .next t ↔ ∃ u, exec i s = .next u ∧ execAll rest u = .next t := by
  rw [execAll]
  cases exec i s <;> simp

theorem execAll_mem_of_no_store {is : List Instr} {s t : State}
    (his : ∀ i ∈ is, i.isStore = false) (h : execAll is s = .next t) : t.mem = s.mem := by
  induction is generalizing s with
  | nil =>
    injection h with h
    rw [h]
  | cons i rest ih =>
    obtain ⟨u, hu, hrest⟩ := execAll_cons_eq_next.1 h
    obtain ⟨hi, hall⟩ := List.forall_mem_cons.1 his
    exact (ih hall hrest).trans (exec_mem_of_not_store hi hu)

/-- Settles O19: no instruction but a store changes memory, and a read is a function of memory. -/
theorem readsAgreeBetweenStores : Obligations.ReadsAgreeBetweenStores := by
  refine ⟨fun i s t hi h => exec_mem_of_not_store hi h, fun is s t his h a size e => ?_⟩
  rw [execAll_mem_of_no_store his h]

end Sys2Proof.Machine
end

section
/-!
PROOFS. The aliases of `bitop`: the spelling of a single-bit operation changes neither its word nor its meaning
(R165).
-/

namespace Sys2Proof.Machine

/-! ### Words: the alias packs the code of its operation into the word of `bitop` -/

theorem encode_namedBitop (op : BitOperation) (imm6 : BitVec 6) (r1 r2 : Reg) :
    encode (namedBitop op imm6 r1 r2) = encode (.bitop op imm6 r1 r2) := by
  cases op with
  | set | clear | change | test => rfl

theorem encode_bitset (imm6 : BitVec 6) (r1 r2 : Reg) :
    encode (.bitset imm6 r1 r2) = encode (.bitop .set imm6 r1 r2) := rfl

/-! ### Meanings: every spelling runs the one single-bit operation `bitOp` -/

theorem exec_bitop (op : BitOperation) (imm6 : BitVec 6) (r1 r2 : Reg) (s : State) :
    exec (.bitop op imm6 r1 r2) s = bitOp op imm6 r1 r2 s := rfl

theorem exec_bitset (imm6 : BitVec 6) (r1 r2 : Reg) (s : State) :
    exec (.bitset imm6 r1 r2) s = bitOp .set imm6 r1 r2 s := rfl

theorem exec_namedBitop (op : BitOperation) (imm6 : BitVec 6) (r1 r2 : Reg) (s : State) :
    exec (namedBitop op imm6 r1 r2) s = bitOp op imm6 r1 r2 s := by
  cases op with
  | set | clear | change | test => rfl

/-- The alias that the section prints for an operation is the `bitop` form of that operation, as a word and as
a state transformer. -/
theorem namedBitop_same_instruction (op : BitOperation) (imm6 : BitVec 6) (r1 r2 : Reg) (s : State) :
    encode (namedBitop op imm6 r1 r2) = encode (.bitop op imm6 r1 r2) ∧
      exec (namedBitop op imm6 r1 r2) s = exec (.bitop op imm6 r1 r2) s :=
  ⟨encode_namedBitop op imm6 r1 r2,
    (exec_namedBitop op imm6 r1 r2 s).trans (exec_bitop op imm6 r1 r2 s).symm⟩

/-- Settles O3: `bclear`, `bchange` and `btest` are the printed names of their operations, and `bitset`, which
no word decodes to, is compared with `bitop.s` directly. -/
theorem bitopAliasIsTheSameInstruction : Obligations.BitopAliasIsTheSameInstruction := by
  intro imm6 r1 r2 s
  refine ⟨namedBitop_same_instruction .clear imm6 r1 r2 s,
    namedBitop_same_instruction .change imm6 r1 r2 s,
    namedBitop_same_instruction .test imm6 r1 r2 s, encode_bitset imm6 r1 r2, ?_⟩
  rw [exec_bitset, exec_bitop]

end Sys2Proof.Machine
end

section
/-!
PROOFS. mov, loadconsx and cachemm from the word on: the words of each opcode decode by their fields (R216,
R219, R226), and the decoded mov and loadconsx write one register and nothing else.
-/

namespace Sys2Proof.Machine

/-! ### Words: the fields of the flag area -/

/-- No reserved bit of a word is set exactly if the must-be-zero field of its opcode is zero (R97). -/
theorem reservedSet_eq_false_iff {op : Op} {w : Insn} :
    reservedSet op w = false ↔ fieldAt w (mustBeZero op).1 (mustBeZero op).2 = 0 := by
  rw [reservedSet, bne_eq_false_iff_eq]

/-- A field of two bits is its two flags, the one at the higher position as the high digit. -/
theorem fieldAt_two_eq_flags (w : Insn) (lo : Nat) :
    fieldAt w lo 2 = beside (bit (flagAt w (lo + 1))) (bit (flagAt w lo)) := by
  rw [bit_flagAt, bit_flagAt]
  exact (beside_fieldAt w lo 1 1).symm

/-- An opcode that the level implements rejects a reserved field value as malformed (R97, R191, D11). -/
theorem decodeWord_eq_malformed {op : Op} {w : Insn} (h0 : fieldAt w 0 8 = Config.opc op)
    (hop : implementedAt Config.fpLevel op = true) (hf : decodeFields op w = none) :
    decodeWord w = .error .malformed := by
  rw [decodeWord_eq_reject h0 (.inr hf), rejectOf_eq, if_pos hop]

/-! ### Words of mov -/

theorem decodeFields_mov (w : Insn) : decodeFields .mov w =
    (highModeOfCode (fieldAt w 10 2)).map fun mode =>
      .mov (sizeAt w) mode (regAt w 14) (regAt w 20) (regAt w 26) := rfl

/-- The high-part mode by its two digits, insn[11] the high one (R216). -/
theorem highModeOfCode_flags (w : Insn) : highModeOfCode (fieldAt w 10 2) =
    if flagAt w 11 then (if flagAt w 10 then none else some .signExtend)
    else if flagAt w 10 then some .zeroExtend else some .keep := by
  rw [fieldAt_two_eq_flags]
  cases flagAt w 11 <;> cases flagAt w 10 <;> rfl

theorem decodeWord_mov {w : Insn} {mode : HighMode} (h0 : fieldAt w 0 8 = Config.opc .mov)
    (hz : fieldAt w 12 2 = 0) (hmode : highModeOfCode (fieldAt w 10 2) = some mode) :
    decodeWord w = .ok (.mov (sizeAt w) mode (regAt w 14) (regAt w 20) (regAt w 26)) := by
  have hf : decodeFields .mov w =
      some (.mov (sizeAt w) mode (regAt w 14) (regAt w 20) (regAt w 26)) := by
    rw [decodeFields_mov, hmode, Option.map_some]
  exact decodeWord_eq_ok h0 (reservedSet_eq_false_iff.2 hz) hf

/-! ### Execution of mov -/

/-- Under a condition that is not zero, `mov` writes the moved value and goes on (R215). -/
theorem exec_mov_of_ne_zero (size : Size) (mode : HighMode) {r1 : Reg} (r2 r3 : Reg) {s : State}
    (hc : s.readReg .reg1 r1 ≠ 0) :
    exec (.mov size mode r1 r2 r3) s =
      .next (s.writeReg r3 (movValue size mode (s.readReg .dest r3) (s.readReg .reg2 r2))).advance := by
  show execMov size mode r1 r2 r3 s = _
  rw [execMov, if_pos (nonNil_eq_true.2 hc), complete_eq]

/-- The zero-extended value as a number: the source modulo 2^n. -/
theorem movValue_zeroExtend_mod (size : Size) (old src : Word) :
    (movValue size .zeroExtend old src).toNat = src.toNat % 2 ^ sizeBits size := by
  rw [movValue_zeroExtend, lane_toNat, Nat.mul_zero, Nat.pow_zero, Nat.div_one]

/-- Settles O45: each value of the two mode bits selects its mode or none, and `movValue` is described mode by
mode. -/
theorem movHighPartModes : Obligations.MovHighPartModes := by
  intro w s h0 hz
  have hmode := highModeOfCode_flags w
  refine ⟨fun h11 h10 => ?keep, fun h11 h10 => ?zeroExtend, fun h11 h10 => ?signExtend,
    fun h11 h10 => ?reserved⟩ <;> simp only [h11, h10, if_true, Bool.false_eq_true, if_false] at hmode
  case keep =>
    exact ⟨_, _, _, _, decodeWord_mov h0 hz hmode, fun hc =>
      ⟨_, _, exec_mov_of_ne_zero _ _ _ _ hc, wrote_one s _ _, movValue_keep _ _ _⟩⟩
  case zeroExtend =>
    exact ⟨_, _, _, _, decodeWord_mov h0 hz hmode, fun hc =>
      ⟨_, _, exec_mov_of_ne_zero _ _ _ _ hc, wrote_one s _ _, movValue_zeroExtend_mod _ _ _⟩⟩
  case signExtend =>
    exact ⟨_, _, _, _, decodeWord_mov h0 hz hmode, fun hc =>
      ⟨_, _, exec_mov_of_ne_zero _ _ _ _ hc, wrote_one s _ _, movValue_signExtend _ _ _⟩⟩
  case reserved =>
    exact decodeWord_eq_malformed h0 rfl (by rw [decodeFields_mov, hmode, Option.map_none])

/-! ### loadconsx -/

/-- No word with the opcode of loadconsx is rejected: it has no reserved bit and no reserved value (R97). -/
theorem decodeWord_loadconsx {w : Insn} (h0 : fieldAt w 0 8 = Config.opc .loadconsx) :
    decodeWord w = .ok (.loadconsx (fieldAt w 8 2).toFin (fieldAt w 10 16) (regAt w 26)) :=
  decodeWord_eq_ok h0 (reservedSet_eq_false_iff.2 (fieldAt_empty w 8)) rfl

theorem exec_loadconsx (shift : Fin 4) (imm16 : BitVec 16) (r1 : Reg) (s : State) :
    exec (.loadconsx shift imm16 r1) s =
      .next (s.writeReg r1 (loadconsxValue shift imm16 (s.readReg .reg1 r1))).advance := rfl

/-- Settles O47: the word decodes by its three fields, and the value written is described bit by bit. -/
theorem loadconsxResults : Obligations.LoadconsxResults :=
  ⟨fun _ h0 => ⟨_, _, _, decodeWord_loadconsx h0, rfl, rfl, rfl⟩, fun shift imm16 r1 s =>
    ⟨_, _, exec_loadconsx shift imm16 r1 s, wrote_one s r1 _,
      getLsbD_loadconsxValue shift imm16 (s.readReg .reg1 r1)⟩⟩

/-! ### cachemm -/

theorem decodeFields_cachemm (w : Insn) : decodeFields .cachemm w =
    (memLevelOfCode (fieldAt w 12 3)).map fun level =>
      .cachemm (sizeAt w) (flagAt w 10) (flagAt w 11) level (regAt w 20) (regAt w 26) := rfl

theorem decodeWord_cachemm {w : Insn} {level : MemLevel} (h0 : fieldAt w 0 8 = Config.opc .cachemm)
    (hz : fieldAt w 15 5 = 0) (hlevel : memLevelOfCode (fieldAt w 12 3) = some level) :
    decodeWord w =
      .ok (.cachemm (sizeAt w) (flagAt w 10) (flagAt w 11) level (regAt w 20) (regAt w 26)) := by
  have hf : decodeFields .cachemm w = some (.cachemm (sizeAt w) (flagAt w 10) (flagAt w 11) level
      (regAt w 20) (regAt w 26)) := by
    rw [decodeFields_cachemm, hlevel, Option.map_some]
  exact decodeWord_eq_ok h0 (reservedSet_eq_false_iff.2 hz) hf

/-- The reserved level 3 makes a word of cachemm malformed, whatever its must-be-zero bits (R97, R226). -/
theorem decodeWord_cachemm_level_three {w : Insn} (h0 : fieldAt w 0 8 = Config.opc .cachemm)
    (h3 : fieldAt w 12 3 = 3) : decodeWord w = .error .malformed := by
  refine decodeWord_eq_malformed h0 rfl ?_
  rw [decodeFields_cachemm, h3, show memLevelOfCode 3 = none from rfl, Option.map_none]

/-- The table of R226: the value of the level field and the level that it names. -/
theorem memLevelOfCode_table :
    ∀ c ∈ [((0 : BitVec 3), MemLevel.dataL1), (1, .insnL1), (2, .onchip), (4, .offchip),
        (5, .localMem), (6, .globalMem), (7, .virtualMem)],
      memLevelOfCode c.1 = some c.2 := by decide

/-- Settles O49: a level that is in the table decodes by it, and the value 3 is malformed. -/
theorem cachemmLevels : Obligations.CachemmLevels := by
  refine fun w h0 hz => ⟨fun c hc hcode => ?_, fun h3 i hi => ?_⟩
  · have hlevel : memLevelOfCode (fieldAt w 12 3) = some c.2 := by
      rw [hcode, memLevelOfCode_table c hc]
    exact ⟨_, _, _, _, _, decodeWord_cachemm h0 hz hlevel⟩
  · rw [decodeWord_cachemm_level_three h0 h3] at hi
    cases hi

end Sys2Proof.Machine
end

section
/-!
PROOFS. loopentry: the words of its opcode, the value and frame of its execution, and the same answer from
loadaddr with the offset 4 (R264).
-/

namespace Sys2Proof.Machine

/-! ### Words of loopentry -/

/-- An opcode that the level implements rejects a word with a must-be-zero bit set as malformed
(R97, R191, D11). -/
theorem decodeWord_eq_malformed_of_mustBeZero {op : Op} {w : Insn}
    (h0 : fieldAt w 0 8 = Config.opc op) (hop : implementedAt Config.fpLevel op = true)
    (hz : fieldAt w (mustBeZero op).1 (mustBeZero op).2 ≠ 0) : decodeWord w = .error .malformed := by
  have hreserved : reservedSet op w = true := by rw [reservedSet, bne_iff_ne]; exact hz
  rw [decodeWord_eq_reject h0 (.inl hreserved), rejectOf_eq, if_pos hop]

theorem decodeWord_loopentry {w : Insn} (h0 : fieldAt w 0 8 = Config.opc .loopentry)
    (hz : fieldAt w 8 18 = 0) : decodeWord w = .ok (.loopentry (regAt w 26)) :=
  decodeWord_eq_ok h0 (reservedSet_eq_false_iff.2 hz) rfl

theorem regAt_val (w : Insn) (lo : Nat) : (regAt w lo).val = (fieldAt w lo 6).toNat := rfl

/-! ### Execution -/

/-- "PC" is the address of the instruction itself (D22). -/
@[simp] theorem pcBase_eq (own : Word) : pcBase own = own := rfl

theorem exec_loopentry (r1 : Reg) (s : State) :
    exec (.loopentry r1) s = .next (s.writeReg r1 (s.pc + 4)).advance := by
  show execLoopentry r1 s = _
  rw [execLoopentry, complete_eq, pcBase_eq]

theorem exec_loadaddr (imm18 : BitVec 18) (r1 : Reg) (s : State) :
    exec (.loadaddr imm18 r1) s = .next (s.writeReg r1 (s.pc + imm18.signExtend 64)).advance := by
  show execLoadaddr imm18 r1 s = _
  rw [execLoadaddr, complete_eq, pcBase_eq]

/-- The step to the next instruction is an offset of loadaddr. -/
theorem exec_loadaddr_four (r1 : Reg) (s : State) :
    exec (.loadaddr 4 r1) s = exec (.loopentry r1) s := by
  have hfour : (4 : BitVec 18).signExtend 64 = (4 : Word) := by decide
  rw [exec_loadaddr, exec_loopentry, hfour]

/-- Settles O56: the word by its must-be-zero field, and the written value as the `pc` of the state that
loopentry answers. -/
theorem loopentryResults : Obligations.LoopentryResults := by
  refine ⟨fun w h0 => ⟨fun hz => ?decodes, fun hz => ?malformed⟩, fun r1 s => ?executes⟩
  case decodes => exact ⟨regAt w 26, decodeWord_loopentry h0 hz, regAt_val w 26⟩
  case malformed => exact decodeWord_eq_malformed_of_mustBeZero h0 rfl hz
  case executes =>
    have hpc : (s.writeReg r1 (s.pc + 4)).advance.pc = s.pc + 4 := by
      rw [State.advance_pc, State.writeReg_pc]
    exact ⟨_, _, exec_loopentry r1 s, wrote_one s r1 _, BitVec.toNat_add s.pc 4, hpc.symm,
      (exec_loadaddr_four r1 s).trans (exec_loopentry r1 s)⟩

end Sys2Proof.Machine
end

section
/-!
PROOFS. The encoder and the decoder as inverses: every instruction is decoded from its word under its canonical
name, and every word that decodes is put together again from its fields (R80 to R97).
-/

namespace Sys2Proof

/-! ### From an instruction to its word and back -/

namespace Laws

/-- The per-instruction round trips as one statement about all instructions. -/
theorem roundTrip : ∀ i : Instr, RoundTrip.Statement i
  | .add .. => RoundTrip.add ..
  | .sub .. => RoundTrip.sub ..
  | .mul .. => RoundTrip.mul ..
  | .div .. => RoundTrip.div ..
  | .addi .. => RoundTrip.addi ..
  | .subi .. => RoundTrip.subi ..
  | .muli .. => RoundTrip.muli ..
  | .divi .. => RoundTrip.divi ..
  | .mod .. => RoundTrip.mod ..
  | .modi .. => RoundTrip.modi ..
  | .shift .. => RoundTrip.shift ..
  | .rot .. => RoundTrip.rot ..
  | .shifti .. => RoundTrip.shifti ..
  | .roti .. => RoundTrip.roti ..
  | .bitop .. => RoundTrip.bitop ..
  | .bitset .. => RoundTrip.bitset ..
  | .bclear .. => RoundTrip.bclear ..
  | .bchange .. => RoundTrip.bchange ..
  | .btest .. => RoundTrip.btest ..
  | .logic .. => RoundTrip.logic ..
  | .and .. => RoundTrip.and ..
  | .xor .. => RoundTrip.xor ..
  | .not .. => RoundTrip.not ..
  | .nor .. => RoundTrip.nor ..
  | .nand .. => RoundTrip.nand ..
  | .mix .. => RoundTrip.mix ..
  | .expand .. => RoundTrip.expand ..
  | .fadd .. => RoundTrip.fadd ..
  | .fsub .. => RoundTrip.fsub ..
  | .fmul .. => RoundTrip.fmul ..
  | .fdiv .. => RoundTrip.fdiv ..
  | .int2f .. => RoundTrip.int2f ..
  | .f2int .. => RoundTrip.f2int ..
  | .finv .. => RoundTrip.finv ..
  | .fsqrt .. => RoundTrip.fsqrt ..
  | .finvsqrt .. => RoundTrip.finvsqrt ..
  | .bitrev .. => RoundTrip.bitrev ..
  | .bitrevi .. => RoundTrip.bitrevi ..
  | .byterev .. => RoundTrip.byterev ..
  | .load .. => RoundTrip.load ..
  | .store .. => RoundTrip.store ..
  | .mov .. => RoundTrip.mov ..
  | .loadcons .. => RoundTrip.loadcons ..
  | .loadconsx .. => RoundTrip.loadconsx ..
  | .cachemm .. => RoundTrip.cachemm ..
  | .loadi .. => RoundTrip.loadi ..
  | .storei .. => RoundTrip.storei ..
  | .get .. => RoundTrip.get ..
  | .put .. => RoundTrip.put ..
  | .geti .. => RoundTrip.geti ..
  | .puti .. => RoundTrip.puti ..
  | .jmpa .. => RoundTrip.jmpa ..
  | .loadaddr .. => RoundTrip.loadaddr ..
  | .loopentry .. => RoundTrip.loopentry ..
  | .loop .. => RoundTrip.loop ..
  | .jmpi .. => RoundTrip.jmpi ..
  | .jmpr .. => RoundTrip.jmpr ..
  | .syscall .. => RoundTrip.syscall ..
  | .trap .. => RoundTrip.trap ..
  | .halt .. => RoundTrip.halt ..
  | .rfe .. => RoundTrip.rfe ..

end Laws

theorem decodeWord_encode (i : Instr) : decodeWord (encode i) = .ok i.canonical :=
  Laws.roundTrip i

theorem Instr.wellFormed_iff {i : Instr} : i.wellFormed = true ↔ i.canonical = i :=
  beq_iff_eq

/-- Settles O1: the bytes are those of the word, and the word decodes to the canonical name, which is the name a
well-formed instruction has. -/
theorem encodedInstructionDecodesToItself : Obligations.EncodedInstructionDecodesToItself := by
  intro i rest hi
  rw [encodeBytes, decode_bytesOfWord, decodeWord_encode, Instr.wellFormed_iff.1 hi]

/-! ### Canonical names (log 26) -/

theorem encode_namedLogic (size : Size) (f00 f10 f01 f11 : Bool) (r1 r2 r3 : Reg) :
    encode (namedLogic size f00 f10 f01 f11 r1 r2 r3) =
      encode (.logic size f00 f10 f01 f11 r1 r2 r3) := by
  unfold namedLogic
  split <;> rfl

theorem exec_namedLogic (size : Size) (f00 f10 f01 f11 : Bool) (r1 r2 r3 : Reg) (s : Machine.State) :
    Machine.exec (namedLogic size f00 f10 f01 f11 r1 r2 r3) s =
      Machine.exec (.logic size f00 f10 f01 f11 r1 r2 r3) s := by
  unfold namedLogic
  split <;> rfl

theorem encode_canonical (i : Instr) : encode i.canonical = encode i := by
  cases i
  case bitop => exact Machine.encode_namedBitop ..
  case logic => exact encode_namedLogic ..
  all_goals rfl

theorem exec_canonical (i : Instr) (s : Machine.State) :
    Machine.exec i.canonical s = Machine.exec i s := by
  cases i
  case bitop op imm6 r1 r2 => exact (Machine.namedBitop_same_instruction op imm6 r1 r2 s).2
  case logic => exact exec_namedLogic ..
  all_goals rfl

/-- A name that the decoder answers with is its own canonical name: the word decodes to the canonical name of
the canonical name, and to the canonical name itself. -/
theorem Instr.canonical_canonical (i : Instr) : i.canonical.canonical = i.canonical := by
  have h := decodeWord_encode i.canonical
  rw [encode_canonical, decodeWord_encode] at h
  injection h with h
  exact h.symm

/-- Settles O4: an instruction and its canonical form share the word and the meaning. -/
theorem canonicalNameIsTheSameInstruction : Obligations.CanonicalNameIsTheSameInstruction :=
  fun i s => ⟨encode_canonical i, exec_canonical i s, Instr.wellFormed_iff.2 i.canonical_canonical⟩

/-! ### A word put together again from its fields -/

theorem sizeCode_sizeAt (w : Insn) : sizeCode (sizeAt w) = fieldAt w 8 2 :=
  sizeCode_sizeOfCode _

theorem endianCode_endianAt (w : Insn) : endianCode (endianAt w) = flagAt w 10 := by
  unfold endianAt
  cases flagAt w 10 <;> rfl

/-- Every flag within a field that is zero is clear. -/
theorem flagAt_eq_false_of_field {w : Insn} {lo len : Nat} (h : fieldAt w lo len = 0) (k : Nat)
    (hlo : lo ≤ k) (hk : k < lo + len) : flagAt w k = false := by
  have hbit := congrArg (fun f => f.getLsbD (k - lo)) h
  simpa [fieldAt_eq, flagAt_eq_getLsbD, BitVec.getLsbD_extractLsb', show k - lo < len by omega,
    Nat.add_sub_cancel' hlo] using hbit

section
variable {op : Op} {w : Insn} (h0 : fieldAt w 0 8 = Config.opc op)
include h0

theorem packR3_fieldAt {flags : BitVec 6} (hflags : flags = fieldAt w 8 6) :
    packR3 op flags (fieldAt w 14 6) (fieldAt w 20 6) (fieldAt w 26 6) = w := by
  rw [packR3, hflags, ← h0, beside_fieldAt w 0 6 8, beside_fieldAt w 0 6 14, beside_fieldAt w 0 6 20,
    beside_fieldAt w 0 6 26, fieldAt_whole]

theorem packI8_fieldAt {flags : BitVec 4} (hflags : flags = fieldAt w 8 4) :
    packI8 op flags (fieldAt w 12 8) (fieldAt w 20 6) (fieldAt w 26 6) = w := by
  rw [packI8, hflags, ← h0, beside_fieldAt w 0 4 8, beside_fieldAt w 0 8 12, beside_fieldAt w 0 6 20,
    beside_fieldAt w 0 6 26, fieldAt_whole]

theorem packR2_fieldAt {low : BitVec 12} (hlow : low = fieldAt w 8 12) :
    packR2 op low (fieldAt w 20 6) (fieldAt w 26 6) = w := by
  rw [packR2, hlow, ← h0, beside_fieldAt w 0 12 8, beside_fieldAt w 0 6 20, beside_fieldAt w 0 6 26,
    fieldAt_whole]

theorem packI9_fieldAt {flags : BitVec 3} (hflags : flags = fieldAt w 8 3) :
    packI9 op flags (fieldAt w 11 9) (fieldAt w 20 6) (fieldAt w 26 6) = w := by
  rw [packI9, hflags, ← h0, beside_fieldAt w 0 3 8, beside_fieldAt w 0 9 11, beside_fieldAt w 0 6 20,
    beside_fieldAt w 0 6 26, fieldAt_whole]

theorem packI16_fieldAt {code : BitVec 2} (hcode : code = fieldAt w 8 2) :
    packI16 op code (fieldAt w 10 16) (fieldAt w 26 6) = w := by
  rw [packI16, hcode, ← h0, beside_fieldAt w 0 2 8, beside_fieldAt w 0 16 10, beside_fieldAt w 0 6 26,
    fieldAt_whole]

theorem packI18_fieldAt {low : BitVec 18} (hlow : low = fieldAt w 8 18) :
    packI18 op low (fieldAt w 26 6) = w := by
  rw [packI18, hlow, ← h0, beside_fieldAt w 0 18 8, beside_fieldAt w 0 6 26, fieldAt_whole]

end

/-! ### The flag areas of a word -/

theorem flags6_fieldAt (w : Insn) :
    flags6 (fieldAt w 8 2) (flagAt w 10) (flagAt w 11) (flagAt w 12) (flagAt w 13) =
      fieldAt w 8 6 := by
  simp only [flags6, bit_flagAt]
  rw [beside_fieldAt w 8 1 2, beside_fieldAt w 8 1 3, beside_fieldAt w 8 1 4, beside_fieldAt w 8 1 5]

theorem flags4_fieldAt (w : Insn) :
    flags4 (fieldAt w 8 2) (flagAt w 10) (flagAt w 11) = fieldAt w 8 4 := by
  simp only [flags4, bit_flagAt]
  rw [beside_fieldAt w 8 1 2, beside_fieldAt w 8 1 3]

section
variable {w : Insn} {code : BitVec 2} (hcode : code = fieldAt w 8 2)
include hcode

theorem flags6_fieldAt_of_bit11 (hz : fieldAt w 11 1 = 0) :
    flags6 code (flagAt w 10) false (flagAt w 12) (flagAt w 13) = fieldAt w 8 6 := by
  rw [← flags6_fieldAt, hcode, flagAt_eq_false_of_field hz 11 (by decide) (by decide)]

theorem flags6_fieldAt_of_bits11 (hz : fieldAt w 11 3 = 0) :
    flags6 code (flagAt w 10) false false false = fieldAt w 8 6 := by
  rw [← flags6_fieldAt, hcode, flagAt_eq_false_of_field hz 11 (by decide) (by decide),
    flagAt_eq_false_of_field hz 12 (by decide) (by decide),
    flagAt_eq_false_of_field hz 13 (by decide) (by decide)]

theorem flags6_fieldAt_of_bits12 (hz : fieldAt w 12 2 = 0) :
    flags6 code (flagAt w 10) (flagAt w 11) false false = fieldAt w 8 6 := by
  rw [← flags6_fieldAt, hcode, flagAt_eq_false_of_field hz 12 (by decide) (by decide),
    flagAt_eq_false_of_field hz 13 (by decide) (by decide)]

theorem flags6_fieldAt_of_bits10 (hz : fieldAt w 10 4 = 0) :
    flags6 code false false false false = fieldAt w 8 6 := by
  rw [← flags6_fieldAt, hcode, flagAt_eq_false_of_field hz 10 (by decide) (by decide),
    flagAt_eq_false_of_field hz 11 (by decide) (by decide),
    flagAt_eq_false_of_field hz 12 (by decide) (by decide),
    flagAt_eq_false_of_field hz 13 (by decide) (by decide)]

theorem flags4_fieldAt_of_bit11 (hz : fieldAt w 11 1 = 0) :
    flags4 code (flagAt w 10) false = fieldAt w 8 4 := by
  rw [← flags4_fieldAt, hcode, flagAt_eq_false_of_field hz 11 (by decide) (by decide)]

theorem byterevLow_fieldAt (hz : fieldAt w 10 10 = 0) : byterevLow code = fieldAt w 8 12 := by
  rw [byterevLow, hcode, ← beside_fieldAt w 8 10 2]
  exact congrArg (beside · _) hz.symm

theorem movFlags_fieldAt {mode : BitVec 2} (hmode : mode = fieldAt w 10 2) (hz : fieldAt w 12 2 = 0) :
    movFlags mode code = fieldAt w 8 6 := by
  rw [movFlags, hcode, hmode, beside_fieldAt w 8 2 2, ← beside_fieldAt w 8 2 4]
  exact congrArg (beside · _) hz.symm

theorem cachemmLow_fieldAt {level : BitVec 3} (hlevel : level = fieldAt w 12 3)
    (hz : fieldAt w 15 5 = 0) :
    cachemmLow level code (flagAt w 10) (flagAt w 11) = fieldAt w 8 12 := by
  rw [cachemmLow, hcode, hlevel, flags4_fieldAt, beside_fieldAt w 8 3 4, ← beside_fieldAt w 8 5 7]
  exact congrArg (beside · _) hz.symm

theorem loadiFlags_fieldAt : loadiFlags (flagAt w 10) code = fieldAt w 8 3 := by
  rw [loadiFlags, hcode, bit_flagAt, beside_fieldAt w 8 1 2]

end

theorem mixFlags_fieldAt {w : Insn} (hz : fieldAt w 9 5 = 0) : mixFlags (flagAt w 8) = fieldAt w 8 6 := by
  rw [mixFlags, bit_flagAt, ← beside_fieldAt w 8 5 1]
  exact congrArg (beside · _) hz.symm

theorem expandLow_fieldAt {w : Insn} (hz : fieldAt w 9 11 = 0) :
    expandLow (flagAt w 8) = fieldAt w 8 12 := by
  rw [expandLow, bit_flagAt, ← beside_fieldAt w 8 11 1]
  exact congrArg (beside · _) hz.symm

theorem fpLow_fieldAt {w : Insn} (hz : fieldAt w 12 8 = 0) :
    fpLow (fieldAt w 8 2) (flagAt w 10) (flagAt w 11) = fieldAt w 8 12 := by
  rw [fpLow, flags4_fieldAt, ← beside_fieldAt w 8 8 4]
  exact congrArg (beside · _) hz.symm

theorem fconvLow_fieldAt {w : Insn} {rounding : Rounding}
    (hr : roundingCode rounding = fieldAt w 13 3) (hz : fieldAt w 16 4 = 0) :
    fconvLow (fieldAt w 8 2) (flagAt w 10) (flagAt w 11) (flagAt w 12) rounding = fieldAt w 8 12 := by
  rw [fconvLow, hr, bit_flagAt, bit_flagAt, bit_flagAt, beside_fieldAt w 8 1 2, beside_fieldAt w 8 1 3,
    beside_fieldAt w 8 1 4, beside_fieldAt w 8 3 5, ← beside_fieldAt w 8 4 8]
  exact congrArg (beside · _) hz.symm

theorem jmpaLow_fieldAt {w : Insn} (hz : fieldAt w 11 9 = 0) :
    jmpaLow (flagAt w 8) (flagAt w 9) (flagAt w 10) = fieldAt w 8 12 := by
  rw [jmpaLow, bit_flagAt, bit_flagAt, bit_flagAt, beside_fieldAt w 8 1 1, beside_fieldAt w 8 1 2,
    ← beside_fieldAt w 8 9 3]
  exact congrArg (beside · _) hz.symm

/-- The decoder drops no bit: the fields it reads and the bits it finds zero make up the whole word. -/
theorem encode_decodeFields {op : Op} {w : Insn} {j : Instr} (h0 : fieldAt w 0 8 = Config.opc op)
    (hz : fieldAt w (mustBeZero op).1 (mustBeZero op).2 = 0) (hf : decodeFields op w = some j) :
    encode j = w := by
  have hsize := sizeCode_sizeAt w
  cases op
  case add | sub | mul | div =>
    obtain rfl := Option.some.inj hf
    exact packR3_fieldAt h0 (flags6_fieldAt_of_bit11 hsize hz)
  case addi | subi | muli | divi | modi =>
    obtain rfl := Option.some.inj hf
    exact packI8_fieldAt h0 (flags4_fieldAt_of_bit11 hsize hz)
  case mod | rot | roti =>
    obtain rfl := Option.some.inj hf
    exact packR3_fieldAt h0 (flags6_fieldAt_of_bits11 hsize hz)
  case shift | shifti =>
    obtain rfl := Option.some.inj hf
    exact packR3_fieldAt h0 (flags6_fieldAt_of_bits12 hsize hz)
  case fadd | fsub | fmul | fdiv =>
    obtain rfl := Option.some.inj hf
    exact packR3_fieldAt h0 (flags6_fieldAt_of_bits12 rfl hz)
  case bitop =>
    obtain rfl := Option.some.inj hf
    exact packR3_fieldAt h0 (flags6_fieldAt_of_bits10 (bitOperationCode_ofCode _) hz)
  case logic =>
    obtain rfl := Option.some.inj hf
    refine packR3_fieldAt h0 ?_
    rw [hsize, flags6_fieldAt]
  case load | store =>
    obtain rfl := Option.some.inj hf
    refine packR3_fieldAt h0 ?_
    rw [endianCode_endianAt, flags6_fieldAt_of_bits11 hsize hz]
  case loadi | storei =>
    obtain rfl := Option.some.inj hf
    refine packI9_fieldAt h0 ?_
    rw [endianCode_endianAt, loadiFlags_fieldAt hsize]
  case mix =>
    obtain rfl := Option.some.inj hf
    exact packR3_fieldAt h0 (mixFlags_fieldAt hz)
  case bitrev | bitrevi =>
    obtain rfl := Option.some.inj hf
    exact packR3_fieldAt h0 hz.symm
  case expand =>
    obtain rfl := Option.some.inj hf
    exact packR2_fieldAt h0 (expandLow_fieldAt hz)
  case finv | fsqrt | finvsqrt =>
    obtain rfl := Option.some.inj hf
    exact packR2_fieldAt h0 (fpLow_fieldAt hz)
  case byterev =>
    obtain rfl := Option.some.inj hf
    exact packR2_fieldAt h0 (byterevLow_fieldAt hsize hz)
  case get | put | loop =>
    obtain rfl := Option.some.inj hf
    exact packR2_fieldAt h0 hz.symm
  case jmpi =>
    obtain rfl := Option.some.inj hf
    exact packR2_fieldAt h0 rfl
  case loadcons | loadconsx =>
    obtain rfl := Option.some.inj hf
    exact packI16_fieldAt h0 rfl
  case geti | puti =>
    obtain rfl := Option.some.inj hf
    exact packI16_fieldAt h0 hz.symm
  case loopentry =>
    obtain rfl := Option.some.inj hf
    exact packI18_fieldAt h0 hz.symm
  case loadaddr | jmpr | systrap | halt | rfe =>
    obtain rfl := Option.some.inj hf
    exact packI18_fieldAt h0 rfl
  case fconv =>
    obtain ⟨rounding, hr, rfl⟩ := Option.map_eq_some_iff.1 hf
    have hlow := fconvLow_fieldAt (roundingCode_ofCode hr) hz
    cases hdirection : flagAt w 10 <;> rw [hdirection] at hlow <;> exact packR2_fieldAt h0 hlow
  case mov =>
    obtain ⟨mode, hmode, rfl⟩ := Option.map_eq_some_iff.1 hf
    exact packR3_fieldAt h0 (movFlags_fieldAt hsize (highModeCode_ofCode hmode) hz)
  case cachemm =>
    obtain ⟨level, hlevel, rfl⟩ := Option.map_eq_some_iff.1 hf
    exact packR2_fieldAt h0 (cachemmLow_fieldAt hsize (memLevelCode_ofCode hlevel) hz)
  case jmpa =>
    obtain ⟨test, htest, rfl⟩ := Option.map_eq_some_iff.1 hf
    refine packR2_fieldAt h0 ?_
    rw [bitTestFlags_ofFlags htest, jmpaLow_fieldAt hz]

/-- Settles O2: the word is the encoding of the fields read from it, and the canonical name has that word too. -/
theorem decodedWordIsTheEncodingOfItsInstruction :
    Obligations.DecodedWordIsTheEncodingOfItsInstruction := by
  intro w i h
  obtain ⟨op, j, h0, hz, hf, rfl⟩ := decodeWord_ok h
  refine ⟨Instr.wellFormed_iff.2 j.canonical_canonical, ?_⟩
  rw [encode_canonical, encode_decodeFields h0 (Machine.reservedSet_eq_false_iff.1 hz) hf]

end Sys2Proof
end

section
/-!
PROOFS. Which words are rejected, and as what: reserved bits and values (R97), unassigned opcodes (R98), the
floating-point opcodes (R191), and what a step raises for such a word.
-/

namespace Sys2Proof.Machine

/-! ### The fetch of a step -/

/-- A fetch that succeeds gives what its bytes decode to. -/
theorem fetch_of_fetches {s : State} {bytes : List Byte} (h : s.fetches bytes) :
    s.fetch = match decode bytes with
      | .error r => .rejected r
      | .ok i => .instruction i := by
  obtain ⟨_, hstored, hbytes⟩ := h
  unfold State.fetch
  rw [fetchStored_eq_false.2 hstored, hbytes]
  rfl

theorem step_of_running {s : State} (h : s.run = .running) :
    step s = match s.fetch with
      | .storedByte => .refused .fetchOfStoredByte
      | .noMemory => .fault .memoryException
      | .rejected r => raiseReject r
      | .instruction i => exec i s := by
  unfold step
  rw [h]
  rfl

theorem step_of_halted {s : State} (h : s.run = .halted) : step s = .next s := by
  unfold step
  rw [h]

theorem step_of_decode_ok {s : State} {bytes : List Byte} {i : Instr} (h : s.fetches bytes)
    (hd : decode bytes = .ok i) : step s = exec i s := by
  rw [step_of_running h.1, fetch_of_fetches h, hd]

theorem step_of_decode_error {s : State} {bytes : List Byte} {r : Reject} (h : s.fetches bytes)
    (hd : decode bytes = .error r) : step s = raiseReject r := by
  rw [step_of_running h.1, fetch_of_fetches h, hd]

theorem decode_wordBytes (w : Insn) : decode (bytesOfWord w) = decodeWord w := by
  simpa using decode_bytesOfWord w []

/-- Settles O14: a step is what its fetch gives, and this fetch gives the instruction. -/
theorem stepRunsTheDecodedInstruction : Obligations.StepRunsTheDecodedInstruction :=
  fun _ _ _ h hd => step_of_decode_ok h hd

/-- Settles O15: each clause is one outcome of the fetch, in the order of R308. -/
theorem stepStopsAtTheFetch : Obligations.StepStopsAtTheFetch := by
  refine fun s => ⟨step_of_halted, fun hr hstored => ?stored, fun hr hfresh habsent => ?absent,
    fun _ h hd => step_of_decode_error h hd, fun _ h hd => step_of_decode_error h hd⟩
  case stored =>
    have hf : s.fetch = .storedByte := by rw [State.fetch, fetchStored_eq_true.2 hstored, if_pos rfl]
    rw [step_of_running hr, hf]
  case absent =>
    have hf : s.fetch = .noMemory := by
      rw [State.fetch, fetchStored_eq_false.2 hfresh, Memory.bytesAt_eq_none.2 habsent]
      rfl
    rw [step_of_running hr, hf]

/-! ### Opcodes -/

theorem implementedAt_fpLevel (op : Op) :
    implementedAt Config.fpLevel op = !isFloatingPoint op := by
  cases op <;> rfl

theorem rejectOf_eq_illegal {op : Op} : rejectOf op = .illegalOpcode ↔ isFloatingPoint op = true := by
  rw [rejectOf_eq, implementedAt_fpLevel]
  cases isFloatingPoint op <;> decide

/-- The floating-point opcodes are the numbers from 0x12 to 0x19 (D4). -/
theorem isFloatingPoint_iff_opc (op : Op) : isFloatingPoint op = true ↔
    0x12 ≤ (Config.opc op).toNat ∧ (Config.opc op).toNat ≤ 0x19 := by
  cases op <;> decide

/-- The two ways in which a word is no instruction. -/
theorem decodeWord_error {w : Insn} {r : Reject} (h : decodeWord w = .error r) :
    opOfNumber (fieldAt w 0 8) = none ∧ r = .illegalOpcode ∨
    ∃ op, fieldAt w 0 8 = Config.opc op ∧ (reservedSet op w = true ∨ decodeFields op w = none) ∧
      r = rejectOf op := by
  cases hop : opOfNumber (fieldAt w 0 8) with
  | none =>
    rw [decodeWord_eq_illegal hop] at h
    injection h with h
    exact .inl ⟨rfl, h.symm⟩
  | some op =>
    have h0 := (opc_of_opOfNumber hop).symm
    have hreject : reservedSet op w = true ∨ decodeFields op w = none := by
      by_contra hno
      obtain ⟨hz, hf⟩ := not_or.1 hno
      obtain ⟨j, hj⟩ := Option.ne_none_iff_exists'.1 hf
      rw [decodeWord_eq_ok h0 (by simpa using hz) hj] at h
      cases h
    rw [decodeWord_eq_reject h0 hreject] at h
    injection h with h
    exact .inr ⟨op, h0, hreject, h.symm⟩

theorem decodeWord_of_unassigned {w : Insn} (h : 0x32 ≤ (fieldAt w 0 8).toNat) :
    decodeWord w = .error .illegalOpcode :=
  decodeWord_eq_illegal (opOfNumber_none_iff.2 h)

/-- Settles O6: a word is illegal for its unassigned opcode or for its floating-point one. -/
theorem unassignedOpcodeIsIllegal : Obligations.UnassignedOpcodeIsIllegal := by
  refine ⟨fun w h => ?_, fun w h => ⟨decodeWord_of_unassigned h, fun s hs => ?_⟩⟩
  · rcases decodeWord_error h with ⟨hnone, _⟩ | ⟨op, h0, _, hr⟩
    · exact .inl (opOfNumber_none_iff.1 hnone)
    · rw [h0]
      exact .inr ((isFloatingPoint_iff_opc op).1 (rejectOf_eq_illegal.1 hr.symm))
  · exact step_of_decode_error hs ((decode_wordBytes w).trans (decodeWord_of_unassigned h))

/-! ### Floating point (R191) -/

/-- Settles O60: at level 0 `fpOp` of each of the eight opcodes evaluates to the exception. -/
theorem floatingPointIsIllegal : Obligations.FloatingPointIsIllegal := by
  intro fpSize simd nonIeee rounding r1 r2 r3 s i hi
  simp only [List.mem_cons, List.not_mem_nil, or_false] at hi
  rcases hi with rfl | rfl | rfl | rfl | rfl | rfl | rfl | rfl | rfl <;> rfl

/-- What the fields of a floating-point word decode to has the one meaning of R191. -/
theorem exec_of_decodeFields_floatingPoint {op : Op} {w : Insn} {j : Instr}
    (hop : isFloatingPoint op = true) (hf : decodeFields op w = some j) (s : State) :
    exec j s = .fault .illegalOpcode := by
  cases op
  case fadd | fsub | fmul | fdiv | finv | fsqrt | finvsqrt =>
    obtain rfl := Option.some.inj hf
    rfl
  case fconv =>
    obtain ⟨rounding, _, rfl⟩ := Option.map_eq_some_iff.1 hf
    split <;> rfl
  all_goals cases hop

/-- Settles O7: such a word is either rejected as illegal or a floating-point instruction, which is illegal. -/
theorem floatingPointOpcodeIsIllegalWhateverItsBits :
    Obligations.FloatingPointOpcodeIsIllegalWhateverItsBits := by
  intro w s hlo hhi hs
  cases hd : decodeWord w with
  | error r =>
    have hr : r = .illegalOpcode := by
      rcases decodeWord_error hd with ⟨_, hr⟩ | ⟨op, h0, _, hr⟩
      · exact hr
      · rw [h0] at hlo hhi
        rw [hr, rejectOf_eq_illegal, isFloatingPoint_iff_opc]
        exact ⟨hlo, hhi⟩
    rw [step_of_decode_error hs ((decode_wordBytes w).trans hd), hr]
    rfl
  | ok i =>
    obtain ⟨op, j, h0, _, hf, rfl⟩ := decodeWord_ok hd
    rw [h0] at hlo hhi
    rw [step_of_decode_ok hs ((decode_wordBytes w).trans hd), exec_canonical,
      exec_of_decodeFields_floatingPoint ((isFloatingPoint_iff_opc op).2 ⟨hlo, hhi⟩) hf]

/-! ### Reserved bits and values (R97) -/

/-- The word with the bits of a field set and no other. -/
def fieldMask (lo len : Nat) : Insn :=
  (BitVec.allOnes len).setWidth 32 <<< lo

theorem and_fieldMask_eq_zero {w : Insn} {lo len : Nat} (h : lo + len ≤ 32) :
    w &&& fieldMask lo len = 0 ↔ fieldAt w lo len = 0 := by
  constructor
  · intro hz
    apply BitVec.eq_of_getLsbD_eq
    intro i hi
    have hbit := congrArg (fun x : Insn => x.getLsbD (lo + i)) hz
    simpa [fieldMask, fieldAt_eq, hi, show lo + i < 32 by omega, show i < 32 by omega] using hbit
  · intro hz
    apply BitVec.eq_of_getLsbD_eq
    intro i hi
    have hflag := flagAt_eq_false_of_field hz i
    rw [flagAt_eq_getLsbD] at hflag
    simp only [fieldMask, BitVec.getLsbD_and, BitVec.getLsbD_shiftLeft, BitVec.getLsbD_setWidth,
      BitVec.getLsbD_allOnes]
    by_cases hin : lo ≤ i ∧ i < lo + len
    · simp [hflag hin.1 hin.2]
    · rcases not_and_or.1 hin with hlo | hhi
      · simp [show i < lo by omega]
      · simp [show ¬ i - lo < len by omega]

/-- The two descriptions of the must-be-zero bits agree: the mask of the opcode table and the field of R97. -/
theorem reservedMask_eq (op : Op) :
    reservedMask op = fieldMask (mustBeZero op).1 (mustBeZero op).2 ∧
      (mustBeZero op).1 + (mustBeZero op).2 ≤ 32 := by
  cases op <;> decide

theorem reservedSet_eq_true_iff {op : Op} {w : Insn} :
    reservedSet op w = true ↔ w &&& reservedMask op ≠ 0 := by
  obtain ⟨hmask, hle⟩ := reservedMask_eq op
  rw [hmask, Ne, and_fieldMask_eq_zero hle, reservedSet, bne_iff_ne]

theorem highModeOfCode_eq_none {c : BitVec 2} : highModeOfCode c = none ↔ c = 3 := by
  revert c; decide

theorem memLevelOfCode_eq_none {c : BitVec 3} : memLevelOfCode c = none ↔ c = 3 := by
  revert c; decide

theorem bitTestOfFlags_eq_none (w : Insn) :
    bitTestOfFlags (flagAt w 9) (flagAt w 10) = none ↔ fieldAt w 9 2 = 3 := by
  rw [fieldAt_two_eq_flags]
  cases flagAt w 9 <;> cases flagAt w 10 <;> decide

/-- The reserved field values (R216, R226, R262). -/
theorem decodeFields_eq_none_iff {op : Op} (w : Insn) (hop : isFloatingPoint op = false) :
    decodeFields op w = none ↔ (op = .mov ∧ fieldAt w 10 2 = 3) ∨
      (op = .cachemm ∧ fieldAt w 12 3 = 3) ∨ (op = .jmpa ∧ fieldAt w 9 2 = 3) := by
  cases op
  case mov => simp [decodeFields_mov, highModeOfCode_eq_none]
  case cachemm => simp [decodeFields_cachemm, memLevelOfCode_eq_none]
  case jmpa => simp [decodeFields, bitTestOfFlags_eq_none]
  case fadd | fsub | fmul | fdiv | fconv | finv | fsqrt | finvsqrt => cases hop
  all_goals simp [decodeFields]

/-- Settles O5: the two grounds to reject a word, and what is left decodes. -/
theorem reservedBitsAreMalformed : Obligations.ReservedBitsAreMalformed := by
  intro w op h0 hop
  rw [← reservedSet_eq_true_iff, ← decodeFields_eq_none_iff w hop]
  by_cases hreject : reservedSet op w = true ∨ decodeFields op w = none
  · have hmalformed : decodeWord w = .error .malformed := by
      rw [decodeWord_eq_reject h0 hreject, rejectOf_eq, implementedAt_fpLevel, hop]
      rfl
    exact ⟨iff_of_true hmalformed hreject, .inl hmalformed⟩
  · obtain ⟨hz, hf⟩ := not_or.1 hreject
    obtain ⟨j, hj⟩ := Option.ne_none_iff_exists'.1 hf
    have hok := decodeWord_eq_ok h0 (by simpa using hz) hj
    exact ⟨iff_of_false (by simp [hok]) hreject, .inr ⟨_, hok⟩⟩

/-- Settles O8: each word is the encoding of its instruction, which is spelled by its canonical name. -/
theorem wordsOfTheFiguresDecode : Obligations.WordsOfTheFiguresDecode := by
  have decodes {w : Insn} (i : Instr) (hw : encode i = w) (hi : i.canonical = i) :
      decodeWord w = .ok i := by rw [← hw, decodeWord_encode, hi]
  exact ⟨decodes _ rfl rfl, decodes _ rfl rfl, decodes _ rfl rfl, decodes _ rfl rfl,
    decodes _ rfl rfl, decodes _ rfl rfl, decodes _ rfl rfl, decodes _ rfl rfl,
    decodes _ rfl rfl, decodes _ rfl rfl⟩

end Sys2Proof.Machine
end

section
/-!
PROOFS. What every completed instruction keeps: each statement is read off the seven ways to complete that
`Completed` lists, so that no proof here goes through the instructions one by one.
-/

namespace Sys2Proof.Machine

/-! ### General registers -/

theorem State.sameRegs.mono {s t : State} {ds es : List Reg} (h : s.sameRegs t ds) (hsub : ds ⊆ es) :
    s.sameRegs t es :=
  fun r hr => h r (hr.imp_right fun hne hmem => hne (hsub hmem))

theorem State.sameRegs.trans {s t u : State} {ds : List Reg} (h : s.sameRegs t ds)
    (h' : t.sameRegs u ds) : s.sameRegs u ds :=
  fun r hr => ⟨(h' r hr).1.trans (h r hr).1, (h' r hr).2.trans (h r hr).2⟩

theorem Completed.sameRegs {i : Instr} {s t : State} (h : Completed i s t) :
    s.sameRegs t i.destinations := by
  have one {u : State} {d : Reg} {v : Word} (hd : d ∈ i.destinations) :
      u.sameRegs (u.writeReg d v) i.destinations :=
    (sameRegs_writeReg u d v).mono (List.cons_subset.2 ⟨hd, List.nil_subset _⟩)
  rcases h with rfl | ⟨_, x, rfl, _⟩ | ⟨d, v, hd, rfl⟩ | ⟨d, v, e, w, hd, he, rfl⟩ |
    ⟨_, size, e, ea, v, m, _, rfl⟩ | ⟨_, n, v, sr, _, rfl⟩ | ⟨_, rfl⟩
  · exact sameRegs_refl s _
  · exact sameRegs_refl s _
  · exact one hd
  · exact (one hd).trans (one he)
  · exact sameRegs_refl s _
  · exact sameRegs_refl s _
  · exact sameRegs_refl s _

/-! ### Memory -/

/-- A completed instruction leaves memory and the stored-to list alone, or it is a store of one access. -/
theorem Completed.memory {i : Instr} {s t : State} (h : Completed i s t) :
    t.mem = s.mem ∧ t.storedTo = s.storedTo ∨
    i.isStore = true ∧ ∃ size e ea v, Memory.write s.mem ea size e v = some t.mem ∧
      t.storedTo = (touched ea (sizeBytes size)).foldl insertAddress s.storedTo := by
  rcases h with rfl | ⟨_, x, rfl, _⟩ | ⟨d, v, _, rfl⟩ | ⟨d, v, e, w, _, _, rfl⟩ |
    ⟨hstore, size, e, ea, v, m, hm, rfl⟩ | ⟨_, n, v, sr, _, rfl⟩ | ⟨_, rfl⟩
  · exact .inl ⟨rfl, rfl⟩
  · exact .inl ⟨rfl, rfl⟩
  · exact .inl ⟨rfl, rfl⟩
  · exact .inl ⟨rfl, rfl⟩
  · exact .inr ⟨hstore, size, e, ea, v, hm, rfl⟩
  · exact .inl ⟨rfl, rfl⟩
  · exact .inl ⟨rfl, rfl⟩

/-- Settles O23: the registers by the ways to complete, the memory because only a store touches it. -/
theorem onlyDestinationsChange : Obligations.OnlyDestinationsChange := by
  refine fun i s t h => ⟨(exec_completed i s t h).sameRegs, fun hi => ?_⟩
  rcases (exec_completed i s t h).memory with ⟨hmem, hstored⟩ | ⟨hstore, _⟩
  · exact ⟨fun a => by rw [hmem], hstored⟩
  · rw [hi] at hstore
    cases hstore

theorem Completed.addresses {i : Instr} {s t : State} (h : Completed i s t)
    (hwf : Memory.wf s.mem = true) : t.addresses = s.addresses := by
  rcases h.memory with ⟨hmem, _⟩ | ⟨_, size, e, ea, v, hm, _⟩
  · rw [State.addresses, hmem, State.addresses]
  · exact Memory.map_fst_write hwf hm

/-- Settles O20: a write of existing bytes keeps the list of addresses, and nothing else touches memory. -/
theorem existingAddressesNeverChange : Obligations.ExistingAddressesNeverChange := by
  intro s t hwf h
  rcases step_next h with ⟨_, rfl⟩ | ⟨_, i, _, hi⟩
  · rfl
  · exact (exec_completed i s t hi).addresses hwf

/-! ### The invariant -/

theorem State.storesWf_iff {s : State} : s.storesWf = true ↔
    risingFrom 0 s.storedTo = true ∧ ∀ a ∈ s.storedTo, a ∈ s.addresses := by
  simp only [State.storesWf, Bool.and_eq_true, List.all_eq_true, Memory.byteAt_isSome, State.addresses]

theorem State.zeroSlot_iff {s : State} : s.zeroSlot = true ↔
    s.regs[(0 : Reg)] = 0 ∧ s.written[(0 : Reg)] = false := by
  simp only [State.zeroSlot, Bool.and_eq_true, beq_iff_eq]
  rfl

theorem State.inv_iff {s : State} : s.inv = true ↔
    Memory.wf s.mem = true ∧ s.storesWf = true ∧ s.pc.toNat % 4 = 0 ∧ s.zeroSlot = true := by
  simp only [State.inv, State.pcAligned, Bool.and_eq_true, aligned_iff, and_assoc]

theorem Completed.memory_wf {i : Instr} {s t : State} (h : Completed i s t)
    (hwf : Memory.wf s.mem = true) : Memory.wf t.mem = true := by
  rcases h.memory with ⟨hmem, _⟩ | ⟨_, size, e, ea, v, hm, _⟩
  · rw [hmem, hwf]
  · exact Memory.wf_write hwf hm

/-- The bytes of an access that has been written exist. -/
theorem mem_addresses_of_write {s : State} {m : Memory} {size : Size} {e : Endian} {ea v : Word}
    (h : Memory.write s.mem ea size e v = some m) {a : Nat} (ha : a ∈ touched ea (sizeBytes size)) :
    a ∈ s.addresses := by
  rw [State.addresses, ← Memory.byteAt_isSome, Option.isSome_iff_ne_none]
  intro hnone
  rw [Memory.write_eq_none.2 ⟨a, ha, hnone⟩] at h
  cases h

theorem Completed.storesWf {i : Instr} {s t : State} (h : Completed i s t)
    (hwf : Memory.wf s.mem = true) (hs : s.storesWf = true) : t.storesWf = true := by
  rw [State.storesWf_iff] at hs ⊢
  rw [h.addresses hwf]
  obtain ⟨hrising, hexist⟩ := hs
  rcases h.memory with ⟨_, hstored⟩ | ⟨_, size, e, ea, v, hm, hstored⟩ <;> rw [hstored]
  · exact ⟨hrising, hexist⟩
  · refine ⟨risingFrom_foldl_insertAddress hrising fun _ => touched_lt, fun a ha => ?_⟩
    rcases mem_foldl_insertAddress.1 ha with hnew | hold
    · exact mem_addresses_of_write hm hnew
    · exact hexist a hold

theorem Completed.zeroSlot {i : Instr} {s t : State} (h : Completed i s t)
    (hs : s.zeroSlot = true) : t.zeroSlot = true := by
  rw [State.zeroSlot_iff] at hs ⊢
  obtain ⟨hregs, hwritten⟩ := h.sameRegs 0 (.inl rfl)
  rwa [hregs, hwritten]

theorem Completed.inv {i : Instr} {s t : State} (h : Completed i s t) (hs : s.inv = true) :
    t.inv = true := by
  rw [State.inv_iff] at hs ⊢
  obtain ⟨hmem, hstores, hpc, hzero⟩ := hs
  exact ⟨h.memory_wf hmem, h.storesWf hmem hstores, h.pc_mod_four hpc, h.zeroSlot hzero⟩

/-- Settles O11: the four parts of the invariant, each kept by every way to complete. -/
theorem stepKeepsTheInvariant : Obligations.StepKeepsTheInvariant := by
  intro s t hs h
  rcases step_next h with ⟨_, rfl⟩ | ⟨_, i, _, hi⟩
  · exact hs
  · exact (exec_completed i s t hi).inv hs

/-! ### The state after reset -/

theorem reset_written (r : Reg) : State.reset.written[r] = false := by
  simp [State.reset]

/-- Settles O9: the fields of the reset state, the registers' marks through `reset_written`. -/
theorem resetState : Obligations.ResetState :=
  ⟨rfl, rfl, readReg_zero _, reset_written, rfl, rfl, rfl, rfl, rfl, rfl, rfl, reset_memory_wf⟩

/-- Settles O10: the base case of the invariant that `stepKeepsTheInvariant` carries along a run. -/
theorem resetMeetsTheInvariant : Obligations.ResetMeetsTheInvariant :=
  State.inv_iff.2 ⟨reset_memory_wf, rfl, rfl, State.zeroSlot_iff.2 ⟨rfl, reset_written 0⟩⟩

/-- Settles O13: register 0 by its own case in `readReg` and `writeReg`. -/
theorem registerZeroIsZero : Obligations.RegisterZeroIsZero :=
  fun s site v => ⟨readReg_zero s site, writeReg_zero s v, fun _ hr => holds_writeReg s v hr⟩

/-! ### Internal registers -/

/-- A put leaves the two registers that only an exception would write (R36, R37). -/
theorem SpecialRegs.write_er_ent {sr x : SpecialRegs} {n : IReg} {v : Word}
    (h : sr.write n v = some x) : x.er = sr.er ∧ x.ent = sr.ent := by
  cases n
  case srOpc | srOmsw | srEv | srTmp =>
    obtain rfl := Option.some.inj h
    exact ⟨rfl, rfl⟩
  all_goals cases h

theorem Completed.internal {i : Instr} {s t : State} (h : Completed i s t) :
    (t.msw = s.msw ∧ t.procId = s.procId ∧ t.counters = s.counters) ∧
    (t.sr = s.sr ∨ i.isPut = true ∧ t.sr.er = s.sr.er ∧ t.sr.ent = s.sr.ent) := by
  rcases h with rfl | ⟨_, x, rfl, _⟩ | ⟨d, v, _, rfl⟩ | ⟨d, v, e, w, _, _, rfl⟩ |
    ⟨_, size, e, ea, v, m, _, rfl⟩ | ⟨hput, n, v, sr, hsr, rfl⟩ | ⟨_, rfl⟩
  · exact ⟨⟨rfl, rfl, rfl⟩, .inl rfl⟩
  · exact ⟨⟨rfl, rfl, rfl⟩, .inl rfl⟩
  · exact ⟨⟨rfl, rfl, rfl⟩, .inl rfl⟩
  · exact ⟨⟨rfl, rfl, rfl⟩, .inl rfl⟩
  · exact ⟨⟨rfl, rfl, rfl⟩, .inl rfl⟩
  · exact ⟨⟨rfl, rfl, rfl⟩, .inr ⟨hput, SpecialRegs.write_er_ent hsr⟩⟩
  · exact ⟨⟨rfl, rfl, rfl⟩, .inl rfl⟩

theorem isPut_iff {i : Instr} : i.isPut = true ↔
    (∃ r1 r2, i = .put r1 r2) ∨ ∃ imm16 r1, i = .puti imm16 r1 := by
  cases i <;> simp [Instr.isPut]

/-- Settles O21: of the ways to complete only a put writes special registers, and never these two. -/
theorem onlyPutsChangeInternalRegisters : Obligations.OnlyPutsChangeInternalRegisters := by
  intro i s t h
  obtain ⟨⟨hmsw, hproc, hcounters⟩, hsr⟩ := (exec_completed i s t h).internal
  refine ⟨hmsw, hproc, hcounters, ?_⟩
  rcases hsr with hsr | ⟨hput, her, hent⟩
  · exact ⟨by rw [hsr], by rw [hsr], .inl hsr⟩
  · exact ⟨her, hent, .inr (isPut_iff.1 hput)⟩

/-! ### `pc` and the run state -/

theorem Completed.pc_run {i : Instr} {s t : State} (h : Completed i s t) (hi : i.isHalt = false) :
    t.run = s.run ∧ (t.pc = s.pc + 4 ∨ i.isJump = true) := by
  rcases h with rfl | ⟨hjump, x, rfl, _⟩ | ⟨d, v, _, rfl⟩ | ⟨d, v, e, w, _, _, rfl⟩ |
    ⟨_, size, e, ea, v, m, _, rfl⟩ | ⟨_, n, v, sr, _, rfl⟩ | ⟨hhalt, _⟩
  · exact ⟨rfl, .inl rfl⟩
  · exact ⟨rfl, .inr hjump⟩
  · exact ⟨rfl, .inl rfl⟩
  · exact ⟨rfl, .inl rfl⟩
  · exact ⟨rfl, .inl rfl⟩
  · exact ⟨rfl, .inl rfl⟩
  · rw [hi] at hhalt
    cases hhalt

theorem isJump_iff {i : Instr} : i.isJump = true ↔
    (∃ negate test r1 r2, i = .jmpa negate test r1 r2) ∨ (∃ imm12 r1 r2, i = .jmpi imm12 r1 r2) ∨
      ∃ imm18 r1, i = .jmpr imm18 r1 := by
  cases i <;> simp [Instr.isJump]

theorem isHalt_iff {i : Instr} : i.isHalt = true ↔ ∃ imm18 r1, i = .halt imm18 r1 := by
  cases i <;> simp [Instr.isHalt]

/-- `halt` by its operand (R280, R283). -/
theorem exec_halt (imm18 : BitVec 18) (r1 : Reg) (s : State) :
    exec (.halt imm18 r1) s =
      if s.readReg .reg1 r1 = 0 then .refused .optionalOperandZero else .next s.halted :=
  withOperand_cases s r1 _

/-- Settles O22: a halt by its own meaning, every other instruction by the ways to complete. -/
theorem pcAdvancesByFourUnlessJumped : Obligations.PcAdvancesByFourUnlessJumped := by
  intro i s t h
  refine ⟨?_, fun hi => ?_⟩
  · rintro ⟨imm18, r1, rfl⟩
    rw [exec_halt] at h
    split at h
    · cases h
    · injection h with h
      rw [← h]
      exact ⟨rfl, rfl⟩
  · have hhalt : i.isHalt = false := by
      rw [← Bool.not_eq_true, isHalt_iff]
      rintro ⟨imm18, r1, hi'⟩
      exact hi imm18 r1 hi'
    obtain ⟨hrun, hpc⟩ := (exec_completed i s t h).pc_run hhalt
    refine ⟨hrun, hpc.imp (fun hpc => ?_) isJump_iff.1⟩
    rw [hpc, BitVec.toNat_add]
    rfl

end Sys2Proof.Machine
end

section
/-!
PROOFS. Exceptions and refusals: which instruction can raise what (R305), the tables of types and reasons
(R301, R302), the operand forms without a meaning (R308), and the system instructions (R280 to R284).
-/

namespace Sys2Proof.Machine

/-! ### What the shared operations raise -/

theorem writeResults_not_fault {s : State} {size : Size} {simd second : Bool} {src : Word} {d : Reg}
    {f : Nat → BitVec (sizeBits size) × BitVec (sizeBits size)} {e : Fault}
    (h : writeResults s size simd second src d f = .fault e) : False := by
  rw [writeResults_cases] at h
  split at h
  · cases h
  · split at h <;> cases h

theorem loadFrom_fault {s : State} {size : Size} {e : Endian} {ea : Word} {d : Reg} {f : Fault}
    (h : loadFrom s size e ea d = .fault f) : f = .memoryException := by
  rcases loadFrom_cases s size e ea d with ⟨_, h'⟩ | ⟨_, _, h'⟩ | ⟨_, v, _, h'⟩ <;> rw [h'] at h
  · cases h
  · injection h with h
    exact h.symm
  · cases h

theorem storeTo_fault {s : State} {size : Size} {e : Endian} {ea v : Word} {f : Fault}
    (h : storeTo s size e ea v = .fault f) : f = .memoryException := by
  rcases storeTo_cases s size e ea v with ⟨_, h'⟩ | ⟨_, _, h'⟩ | ⟨_, m, _, h'⟩ <;> rw [h'] at h
  · cases h
  · injection h with h
    exact h.symm
  · cases h

theorem getInternal_ne_fault (s : State) (i : Word) (d : Reg) (f : Fault) :
    getInternal s i d ≠ .fault f := by
  rcases getInternal_cases s i d with ⟨_, h⟩ | ⟨n, _, h⟩ <;> simp [h]

theorem putInternal_ne_fault (s : State) (i v : Word) (f : Fault) :
    putInternal s i v ≠ .fault f := by
  rcases putInternal_cases s i v with ⟨_, h⟩ | ⟨n, _, ⟨_, h⟩ | ⟨x, _, h⟩⟩ <;> simp [h]

theorem jumpIf_ne_fault (s : State) (cond : Bool) (t : Word) (f : Fault) :
    jumpIf s cond t ≠ .fault f := by
  rw [jumpIf_cases]
  split
  · split <;> simp
  · simp

theorem withOperand_fault {s : State} {r1 : Reg} {o : Outcome} {f : Fault}
    (h : withOperand s r1 o = .fault f) : o = .fault f := by
  rw [withOperand_cases] at h
  split at h
  · cases h
  · exact h

/-- The exception that an instruction can raise, by its form: none, or the one exception that its meaning names. -/
def raisedBy : Instr → Option Fault
  | .div .. | .divi .. | .mod .. | .modi .. => some .integerDivideByZero
  | .load .. | .store .. | .loadi .. | .storei .. => some .memoryException
  | .syscall .. | .trap .. => some .syscall
  | .fadd .. | .fsub .. | .fmul .. | .fdiv .. | .int2f .. | .f2int .. | .finv .. | .fsqrt ..
  | .finvsqrt .. => some .illegalOpcode
  | _ => none

/-- `raisedBy` names the only exception of each meaning. -/
theorem exec_fault {i : Instr} {s : State} {f : Fault} (h : exec i s = .fault f) :
    raisedBy i = some f := by
  cases i
  case add | sub =>
    simp only [exec, execAdd, execSub] at h
    split at h
    · cases h
    · exact (writeResults_not_fault h).elim
  case mul => exact (writeResults_not_fault h).elim
  case addi | subi | muli => exact (writeResults_not_fault (second := false) h).elim
  case div =>
    simp only [exec, execDiv] at h
    split at h
    · cases h
    · split at h
      · injection h with h
        rw [← h]
        rfl
      · exact (writeResults_not_fault h).elim
  case divi | mod | modi =>
    simp only [exec, execDivi, execMod, execModi] at h
    split at h
    · injection h with h
      rw [← h]
      rfl
    · exact (writeResults_not_fault h).elim
  case load => rw [loadFrom_fault h]; rfl
  case store => rw [storeTo_fault h]; rfl
  case loadi =>
    simp only [exec, execLoadi] at h
    split at h
    · cases h
    · rw [loadFrom_fault h]; rfl
  case storei =>
    simp only [exec, execStorei] at h
    split at h
    · cases h
    · rw [storeTo_fault h]; rfl
  case get | geti => exact absurd h (getInternal_ne_fault _ _ _ _)
  case put | puti => exact absurd h (putInternal_ne_fault _ _ _ _)
  case jmpa => exact absurd h (jumpIf_ne_fault _ _ _ _)
  case jmpi =>
    simp only [exec, execJmpi] at h
    split at h
    · cases h
    · exact absurd h (jumpIf_ne_fault _ _ _ _)
  case jmpr =>
    simp only [exec, execJmpr] at h
    split at h <;> cases h
  case mov =>
    simp only [exec, execMov] at h
    split at h <;> cases h
  case syscall | trap =>
    injection withOperand_fault h with h
    rw [← h]
    rfl
  case halt | rfe => cases withOperand_fault h
  case fadd | fsub | fmul | fdiv | int2f | f2int | finv | fsqrt | finvsqrt =>
    injection h with h
    rw [← h]
    rfl
  all_goals cases h

/-- Settles O24: the forms of each exception are read off `raisedBy`, and a floating-point instruction has
one of the floating-point opcodes in its word. -/
theorem causesOfExceptions : Obligations.CausesOfExceptions := by
  intro i s f h
  have hraises := exec_fault h
  cases i
  case div | divi | mod | modi =>
    obtain rfl := Option.some.inj hraises
    exact .inl ⟨rfl, by simp⟩
  case load | store | loadi | storei =>
    obtain rfl := Option.some.inj hraises
    exact .inr (.inl ⟨rfl, by simp⟩)
  case syscall | trap =>
    obtain rfl := Option.some.inj hraises
    exact .inr (.inr (.inl ⟨rfl, by simp⟩))
  case fadd | fsub | fmul | fdiv =>
    obtain rfl := Option.some.inj hraises
    refine .inr (.inr (.inr ⟨rfl, _, ?_, packR3_opcode _ _ _ _ _⟩))
    rfl
  case int2f | f2int | finv | fsqrt | finvsqrt =>
    obtain rfl := Option.some.inj hraises
    refine .inr (.inr (.inr ⟨rfl, _, ?_, packR2_opcode _ _ _ _⟩))
    rfl
  all_goals cases hraises

/-- Settles O25: the entries of the two tables, and the bounds and the injectivity by cases on the exceptions. -/
theorem typesAndReasonsOfExceptions : Obligations.TypesAndReasonsOfExceptions := by
  refine ⟨rfl, rfl, rfl, rfl, rfl, rfl, rfl, rfl, rfl, rfl, rfl, rfl, rfl, rfl, rfl, rfl, rfl, rfl, rfl,
    rfl, rfl, rfl, rfl, rfl, rfl, rfl, fun f n h => ?reasons, fun f => ?types, fun f g h => ?injective⟩
  case reasons => cases f <;> cases h <;> decide
  case types => cases f <;> decide
  case injective => cases f <;> cases g <;> cases h <;> rfl

/-! ### Operand forms without a meaning -/

/-- `jmpi` by its immediate (R267, D21). -/
theorem exec_jmpi (imm12 : BitVec 12) (r1 r2 : Reg) (s : State) :
    exec (.jmpi imm12 r1 r2) s =
      if 2047 < imm12.toNat then .refused .imm12Above2047
      else jumpIf s (nonNil (s.readReg .reg1 r1)) (s.readReg .reg2 r2 + 4 * imm12.setWidth 64) := rfl

/-- Settles O59: each refusal is the first test of its meaning (R308). -/
theorem formsWithoutMeaningAreRefused : Obligations.FormsWithoutMeaningAreRefused := by
  refine ⟨fun _ _ _ _ _ _ => ⟨rfl, rfl⟩, fun size simd signed r1 r2 s => ⟨rfl, rfl, rfl, rfl⟩,
    fun imm12 r1 r2 s h => ?_⟩
  rw [exec_jmpi, if_pos h]

/-! ### System instructions -/

/-- Settles O58: the operand of R280 decides between the effect and the refusal, and the lost meanings have no
effect at all. -/
theorem systemAndLostInstructionStops : Obligations.SystemAndLostInstructionStops := by
  refine ⟨fun imm18 r1 s => ?_, fun _ _ _ _ _ => ⟨rfl, rfl, rfl⟩⟩
  have taken (h : s.readReg .reg1 r1 ≠ 0) (o : Outcome) : withOperand s r1 o = o := by
    rw [withOperand_cases, if_neg h]
  have refused (h : s.readReg .reg1 r1 = 0) (o : Outcome) :
      withOperand s r1 o = .refused .optionalOperandZero := by
    rw [withOperand_cases, if_pos h]
  exact ⟨fun h => ⟨taken h _, taken h _, taken h _⟩, fun h => ⟨refused h _, refused h _, refused h _⟩⟩

/-- A state that a step leaves as it is stays so for any number of steps. -/
theorem core_run_of_fixed {M : Host.Core} {s : M.State} (h : M.step s = .next s) (k : Nat) :
    M.run k s = .next s := by
  induction k with
  | zero => rfl
  | succ k ih => simp only [Host.Core.run, h, ih]

/-- Settles O57: the halted state keeps every field but the run state, and steps no further. -/
theorem haltResults : Obligations.HaltResults := by
  refine fun imm18 r1 s => ⟨fun h => ⟨s.halted, ?_, rfl, rfl, sameRegs_refl s [], ⟨rfl, rfl, rfl, rfl⟩,
    ⟨fun _ => rfl, rfl⟩, ?_⟩, fun h => ?_⟩
  · rw [exec_halt, if_neg h]
  · exact core_run_of_fixed (M := Sys2Proof.core) (step_of_halted (s := s.halted) rfl)
  · rw [exec_halt, if_pos h]

end Sys2Proof.Machine
end

section
/-!
PROOFS. Noninterference: a step reads the state through operations that do not see what no program can read, and
its updates keep two states equal but there (R43, R245, logs 3 to 8).
-/

namespace Sys2Proof.Machine

/-! ### Two outcomes that agree -/

theorem agree_ite {R : State → State → Prop} {c : Prop} [Decidable c] {o o' p p' : Outcome}
    (h : c → Outcome.agree R o p) (h' : ¬ c → Outcome.agree R o' p') :
    Outcome.agree R (if c then o else o') (if c then p else p') := by
  split
  · exact h ‹_›
  · exact h' ‹_›

theorem agree_withOperand {R : State → State → Prop} {s t : State} {r1 : Reg} {o p : Outcome}
    (hr : t.readReg .reg1 r1 = s.readReg .reg1 r1) (h : Outcome.agree R o p) :
    Outcome.agree R (withOperand s r1 o) (withOperand t r1 p) := by
  rw [withOperand_cases, withOperand_cases, hr]
  exact agree_ite (fun _ => rfl) fun _ => h

/-! ### The special registers -/

/-- The part of `State.sameVisible` that speaks of the special registers. -/
def SpecialRegs.sameVisible (x y : SpecialRegs) : Prop :=
  (y.opcWritten = x.opcWritten ∧ (x.opcWritten = true → y.opc = x.opc)) ∧
  (y.omswWritten = x.omswWritten ∧ (x.omswWritten = true → y.omsw = x.omsw)) ∧
  (y.evWritten = x.evWritten ∧ (x.evWritten = true → y.ev = x.ev)) ∧
  (y.tmpWritten = x.tmpWritten ∧ (x.tmpWritten = true → y.tmp = x.tmp))

/-- A put is refused for both or writes the same value into both. -/
theorem SpecialRegs.sameVisible.write {x y : SpecialRegs} (h : x.sameVisible y) (n : IReg) (v : Word) :
    x.write n v = none ∧ y.write n v = none ∨
    ∃ x' y', x.write n v = some x' ∧ y.write n v = some y' ∧ x'.sameVisible y' := by
  obtain ⟨hopc, homsw, hev, htmp⟩ := h
  cases n
  case srOpc => exact .inr ⟨_, _, rfl, rfl, ⟨rfl, fun _ => rfl⟩, homsw, hev, htmp⟩
  case srOmsw => exact .inr ⟨_, _, rfl, rfl, hopc, ⟨rfl, fun _ => rfl⟩, hev, htmp⟩
  case srEv => exact .inr ⟨_, _, rfl, rfl, hopc, homsw, ⟨rfl, fun _ => rfl⟩, htmp⟩
  case srTmp => exact .inr ⟨_, _, rfl, rfl, hopc, homsw, hev, ⟨rfl, fun _ => rfl⟩⟩
  all_goals exact .inl ⟨rfl, rfl⟩

/-- A value behind a mark is read alike from two states that agree on the mark, and on the value where it is
set. -/
theorem ite_marked_eq {m m' : Bool} {v v' d : Word} (h : m' = m ∧ (m = true → v' = v)) :
    (if m' then v' else d) = if m then v else d := by
  obtain ⟨rfl, hv⟩ := h
  split
  · exact hv ‹_›
  · rfl

namespace State.sameVisible

variable {s t : State}

/-! ### What a program reads -/

theorem special (h : s.sameVisible t) : s.sr.sameVisible t.sr := by
  obtain ⟨_, _, _, _, _, _, _, hsr⟩ := h
  exact hsr

theorem drawAt (h : s.sameVisible t) (site : Config.DrawSite) : t.drawAt site = s.drawAt site := by
  obtain ⟨_, _, _, _, _, _, hdraws, _⟩ := h
  rw [State.drawAt, hdraws, State.drawAt]

theorem readReg (h : s.sameVisible t) (site : Config.DrawSite) (r : Reg) :
    t.readReg site r = s.readReg site r := by
  by_cases hr : r = 0
  · rw [hr, readReg_zero, readReg_zero]
  · have hdraw := h.drawAt site
    rw [State.drawAt, State.drawAt] at hdraw
    rw [State.readReg, State.readReg, if_neg hr, if_neg hr, hdraw]
    exact ite_marked_eq (h.1 r hr)

theorem iregValue (h : s.sameVisible t) (n : IReg) : t.iregValue n = s.iregValue n := by
  obtain ⟨hopc, homsw, hev, htmp⟩ := h.special
  cases n
  case srOpc => rw [State.iregValue, State.iregValue, h.drawAt]; exact ite_marked_eq hopc
  case srOmsw => rw [State.iregValue, State.iregValue, h.drawAt]; exact ite_marked_eq homsw
  case srEv => rw [State.iregValue, State.iregValue, h.drawAt]; exact ite_marked_eq hev
  case srTmp => rw [State.iregValue, State.iregValue, h.drawAt]; exact ite_marked_eq htmp
  case procId =>
    obtain ⟨_, _, hproc, _⟩ := h
    exact hproc
  all_goals exact h.drawAt .internal

theorem pc (h : s.sameVisible t) : t.pc = s.pc := by
  obtain ⟨_, hpc, _⟩ := h
  exact hpc

theorem mem (h : s.sameVisible t) : t.mem = s.mem := by
  obtain ⟨_, _, _, hmem, _⟩ := h
  exact hmem

theorem run (h : s.sameVisible t) : t.run = s.run := by
  obtain ⟨_, _, _, _, _, hrun, _⟩ := h
  exact hrun

theorem fetch (h : s.sameVisible t) : t.fetch = s.fetch := by
  obtain ⟨_, hpc, _, hmem, hstored, _⟩ := h
  have hmark : t.fetchStored = s.fetchStored := by rw [State.fetchStored, State.fetchStored, hpc, hstored]
  rw [State.fetch, State.fetch, hmark, hpc, hmem]

/-! ### What an instruction updates -/

theorem writeReg (h : s.sameVisible t) (d : Reg) (v : Word) :
    (s.writeReg d v).sameVisible (t.writeReg d v) := by
  refine ⟨fun r hr => ?_, h.2⟩
  by_cases hd : r = d
  · subst hd
    obtain ⟨hs, hsw⟩ := regs_writeReg_self s v hr
    obtain ⟨ht, htw⟩ := regs_writeReg_self t v hr
    exact ⟨htw.trans hsw.symm, fun _ => ht.trans hs.symm⟩
  · obtain ⟨hs, hsw⟩ := regs_writeReg_of_ne s v hd
    obtain ⟨ht, htw⟩ := regs_writeReg_of_ne t v hd
    rw [hs, hsw, ht, htw]
    exact h.1 r hr

theorem goto (h : s.sameVisible t) (x : Word) : (s.goto x).sameVisible (t.goto x) := by
  obtain ⟨hregs, _, hproc, hmem, hstored, hrun, hdraws, hsr⟩ := h
  exact ⟨hregs, rfl, hproc, hmem, hstored, hrun, congrArg (· + 1) hdraws, hsr⟩

theorem advance (h : s.sameVisible t) : s.advance.sameVisible t.advance := by
  obtain ⟨hregs, hpc, hproc, hmem, hstored, hrun, hdraws, hsr⟩ := h
  exact ⟨hregs, congrArg (· + 4) hpc, hproc, hmem, hstored, hrun, congrArg (· + 1) hdraws, hsr⟩

theorem stored (h : s.sameVisible t) (m : Memory) (l : List Nat) :
    (s.stored m l).sameVisible (t.stored m l) := by
  obtain ⟨hregs, hpc, hproc, _, hstored, hrun, hdraws, hsr⟩ := h
  exact ⟨hregs, hpc, hproc, rfl, congrArg (l.foldl insertAddress) hstored, hrun, hdraws, hsr⟩

theorem withSpecial (h : s.sameVisible t) {x y : SpecialRegs} (hsr : x.sameVisible y) :
    (s.withSpecial x).sameVisible (t.withSpecial y) := by
  obtain ⟨hregs, hpc, hproc, hmem, hstored, hrun, hdraws, _⟩ := h
  exact ⟨hregs, hpc, hproc, hmem, hstored, hrun, hdraws, hsr⟩

theorem halted (h : s.sameVisible t) : s.halted.sameVisible t.halted := by
  obtain ⟨hregs, hpc, hproc, hmem, hstored, _, hdraws, hsr⟩ := h
  exact ⟨hregs, hpc, hproc, hmem, hstored, rfl, hdraws, hsr⟩

/-! ### The shared operations -/

theorem agree_complete_writeReg (h : s.sameVisible t) (d : Reg) (v : Word) :
    Outcome.agree State.sameVisible (complete (s.writeReg d v)) (complete (t.writeReg d v)) :=
  (h.writeReg d v).advance

theorem agree_writeResults (h : s.sameVisible t) (size : Size) (simd second : Bool) (src : Word) (d : Reg)
    (f : Nat → BitVec (sizeBits size) × BitVec (sizeBits size)) :
    Outcome.agree State.sameVisible (writeResults s size simd second src d f)
      (writeResults t size simd second src d f) := by
  rw [writeResults_cases, writeResults_cases, h.readReg, h.drawAt]
  exact agree_ite (fun _ => rfl) fun _ =>
    agree_ite (fun _ => ((h.writeReg d _).writeReg (d + 1) _).advance) fun _ => (h.writeReg d _).advance

theorem agree_writeLow (h : s.sameVisible t) (size : Size) (src : Word) (d : Reg)
    (w : BitVec (sizeBits size)) :
    Outcome.agree State.sameVisible (writeLow s size src d w) (writeLow t size src d w) := by
  rw [writeLow_eq, writeLow_eq]
  exact (h.writeReg d _).advance

theorem agree_loadFrom (h : s.sameVisible t) (size : Size) (e : Endian) (ea : Word) (d : Reg) :
    Outcome.agree State.sameVisible (loadFrom s size e ea d) (loadFrom t size e ea d) := by
  rw [loadFrom, loadFrom, accessAt_eq, accessAt_eq]
  refine agree_ite (fun _ => ?_) fun _ => rfl
  simp only [h.mem, loadHighBits_eq, h.drawAt]
  cases Memory.read s.mem ea size e with
  | none => rfl
  | some v => exact h.agree_complete_writeReg d _

theorem agree_storeTo (h : s.sameVisible t) (size : Size) (e : Endian) (ea v : Word) :
    Outcome.agree State.sameVisible (storeTo s size e ea v) (storeTo t size e ea v) := by
  rw [storeTo, storeTo, accessAt_eq, accessAt_eq]
  refine agree_ite (fun _ => ?_) fun _ => rfl
  simp only [h.mem]
  cases Memory.write s.mem ea size e v with
  | none => rfl
  | some m => exact (h.stored m _).advance

theorem agree_jumpIf (h : s.sameVisible t) (cond : Bool) (x : Word) :
    Outcome.agree State.sameVisible (jumpIf s cond x) (jumpIf t cond x) := by
  rw [jumpIf_cases, jumpIf_cases]
  exact agree_ite (fun _ => agree_ite (fun _ => h.goto x) fun _ => rfl) fun _ => h.advance

theorem agree_getInternal (h : s.sameVisible t) (x : Word) (d : Reg) :
    Outcome.agree State.sameVisible (getInternal s x d) (getInternal t x d) := by
  unfold getInternal
  cases iregAt x with
  | none => rfl
  | some n =>
    simp only [h.iregValue]
    exact h.agree_complete_writeReg d _

theorem agree_putInternal (h : s.sameVisible t) (x v : Word) :
    Outcome.agree State.sameVisible (putInternal s x v) (putInternal t x v) := by
  unfold putInternal
  cases iregAt x with
  | none => rfl
  | some n =>
    rcases h.special.write n v with ⟨hs, ht⟩ | ⟨a, b, hs, ht, hab⟩
    · simp only [hs, ht]
      rfl
    · simp only [hs, ht]
      exact (h.withSpecial hab).advance

/-! ### Instructions and steps -/

/-- Every instruction reads its operands alike in both states and ends in one shared operation. -/
theorem agree_exec (h : s.sameVisible t) (i : Instr) :
    Outcome.agree State.sameVisible (exec i s) (exec i t) := by
  cases i
  case add | sub =>
    simp only [exec, execAdd, execSub, h.readReg]
    exact agree_ite (fun _ => rfl) fun _ => h.agree_writeResults ..
  case mul | addi | subi | muli =>
    simp only [exec, execMul, execAddi, execSubi, execMuli, h.readReg]
    exact h.agree_writeResults ..
  case div =>
    simp only [exec, execDiv, h.readReg]
    exact agree_ite (fun _ => rfl) fun _ => agree_ite (fun _ => rfl) fun _ => h.agree_writeResults ..
  case divi | mod | modi =>
    simp only [exec, execDivi, execMod, execModi, h.readReg]
    exact agree_ite (fun _ => rfl) fun _ => h.agree_writeResults ..
  case shift | rot | shifti | roti | byterev =>
    simp only [exec, execShift, execRot, execShifti, execRoti, execByterev, h.readReg]
    exact h.agree_writeLow ..
  case logic | and | xor | not | nor | nand =>
    simp only [exec, execLogic, execAnd, execXor, execNot, execNor, execNand, logicOp, h.readReg]
    exact h.agree_writeLow ..
  case bitop | bitset | bclear | bchange | btest =>
    simp only [exec, execBitop, execBitset, execBclear, execBchange, execBtest, bitOp, h.readReg]
    exact h.agree_complete_writeReg ..
  case bitrev | bitrevi | loadcons | loadconsx =>
    simp only [exec, execBitrev, execBitrevi, execLoadcons, execLoadconsx, h.readReg]
    exact h.agree_complete_writeReg ..
  case loadaddr | loopentry =>
    simp only [exec, execLoadaddr, execLoopentry, h.pc]
    exact h.agree_complete_writeReg ..
  case load =>
    simp only [exec, execLoad, h.readReg]
    exact h.agree_loadFrom ..
  case loadi =>
    simp only [exec, execLoadi, h.readReg]
    exact agree_ite (fun _ => rfl) fun _ => h.agree_loadFrom ..
  case store =>
    simp only [exec, execStore, h.readReg]
    exact h.agree_storeTo ..
  case storei =>
    simp only [exec, execStorei, h.readReg]
    exact agree_ite (fun _ => rfl) fun _ => h.agree_storeTo ..
  case mov =>
    simp only [exec, execMov, h.readReg]
    exact agree_ite (fun _ => h.agree_complete_writeReg ..) fun _ => h.advance
  case cachemm => exact h.advance
  case get | geti =>
    simp only [exec, execGet, execGeti, h.readReg]
    exact h.agree_getInternal ..
  case put | puti =>
    simp only [exec, execPut, execPuti, h.readReg]
    exact h.agree_putInternal ..
  case jmpa =>
    simp only [exec, execJmpa, h.readReg]
    exact h.agree_jumpIf ..
  case jmpi =>
    simp only [exec, execJmpi, h.readReg]
    exact agree_ite (fun _ => rfl) fun _ => h.agree_jumpIf ..
  case jmpr =>
    simp only [exec, execJmpr, h.readReg, h.pc]
    exact agree_ite (fun _ => h.goto _) fun _ => h.advance
  case syscall | trap | rfe => exact agree_withOperand (h.readReg _ _) rfl
  case halt => exact agree_withOperand (h.readReg _ _) h.halted
  case mix | expand | loop => rfl
  case fadd | fsub | fmul | fdiv | int2f | f2int | finv | fsqrt | finvsqrt => rfl

theorem agree_step (h : s.sameVisible t) : Outcome.agree State.sameVisible (step s) (step t) := by
  unfold step
  rw [h.run, h.fetch]
  cases s.run with
  | halted => exact h
  | running =>
    cases s.fetch with
    | storedByte => rfl
    | noMemory => rfl
    | rejected r => cases r <;> rfl
    | instruction i => exact h.agree_exec i

end State.sameVisible

/-- Settles O26: the two steps fetch the same and execute the same instruction alike. -/
theorem unwrittenValuesInfluenceNothing : Obligations.UnwrittenValuesInfluenceNothing :=
  fun _ _ h => h.agree_step

end Sys2Proof.Machine
end

section
/-!
PROOFS. Memory accesses: read after write, the bytes of a write and of a read, and the effective address
(R50 to R53, R69).
-/

namespace Sys2Proof.Machine

theorem bytePlace_eq (e : Endian) (bytes k : Nat) :
    bytePlace e bytes k = if e = .little then k else bytes - 1 - k := rfl

theorem bytePlace_lt (e : Endian) {bytes k : Nat} (hk : k < bytes) : bytePlace e bytes k < bytes := by
  rw [bytePlace_eq]
  split <;> omega

theorem not_accessExists {s : State} {ea : Word} {count : Nat} :
    ¬ s.accessExists ea count ↔ ∃ a ∈ touched ea count, Memory.byteAt s.mem a = none := by
  simp [State.accessExists]

theorem read_isSome_iff {s : State} {ea : Word} {size : Size} {e : Endian} :
    (Memory.read s.mem ea size e).isSome = true ↔ s.accessExists ea (sizeBytes size) := by
  rw [← not_iff_not, not_accessExists, ← Memory.bytesAt_eq_none]
  simp [Memory.read]

theorem write_of_accessExists {s : State} {ea : Word} {size : Size}
    (h : s.accessExists ea (sizeBytes size)) (e : Endian) (v : Word) :
    ∃ m, Memory.write s.mem ea size e v = some m :=
  ⟨_, Memory.write_eq_some.2 ⟨Memory.bytesAt_isSome h, rfl⟩⟩

/-- Settles O16: the bytes after the write are those of the value in the order in which the read takes them. -/
theorem writeThenReadReturnsTheLowBytes : Obligations.WriteThenReadReturnsTheLowBytes := by
  intro s ea v size e h
  obtain ⟨m, hm⟩ := write_of_accessExists h e v
  refine ⟨m, hm, Memory.read_eq_some.2 ⟨_, Memory.bytesAt_write hm, ?_⟩⟩
  have hwidth : 256 ^ sizeBytes size = 2 ^ sizeBits size := by rw [sizeBits_eq, Nat.pow_mul]
  apply BitVec.eq_of_toNat_eq
  rw [inOrder_inOrder, numberOfBytes_bytesOfNumber, hwidth, BitVec.toNat_setWidth, BitVec.toNat_ofNat,
    Nat.mod_mod]

/-- Settles O17: the laws of a write, gathered. -/
theorem writeChangesOnlyItsBytes : Obligations.WriteChangesOnlyItsBytes :=
  fun _ _ _ _ _ _ h => ⟨Memory.write_bytes h, fun _ => Memory.byteAt_write_of_not_mem h,
    fun hwf => ⟨Memory.wf_write hwf h, Memory.map_fst_write hwf h⟩⟩

/-- A byte of a narrow value is a byte of the register that holds it zero-extended. -/
theorem extractLsb'_setWidth_byte (size : Size) (v : BitVec (sizeBits size)) {k : Nat}
    (hk : k < sizeBytes size) : (v.setWidth 64).extractLsb' (8 * k) 8 = v.extractLsb' (8 * k) 8 := by
  have hbits := sizeBits_eq size
  have hle := sizeBits_le size
  exact BitVec.extractLsb'_setWidth_of_le (by omega)

theorem effectiveAddress_toNat (size : Size) (base index : Word) :
    (effectiveAddress size base index).toNat =
      (base.toNat + index.toNat * (sizeBits size / 8)) % 2 ^ 64 := by
  rw [effectiveAddress, BitVec.toNat_add, BitVec.toNat_mul, BitVec.toNat_ofNat, Nat.add_mod_mod,
    Nat.add_mod, Nat.mul_mod_mod, ← Nat.add_mod]
  rfl

/-- Settles O18: `Memory.read_bytes` for the bytes, and the two address computations as numbers. -/
theorem readAssemblesBytesInTheChosenOrder : Obligations.ReadAssemblesBytesInTheChosenOrder := by
  refine fun s ea size e => ⟨read_isSome_iff, fun v hv k hk => ?_, fun k _ => byteAddress_eq ea k,
    effectiveAddress_toNat size⟩
  rw [Memory.read_bytes hv k hk, extractLsb'_setWidth_byte size v (bytePlace_lt e hk), bytePlace_eq]

end Sys2Proof.Machine
end

section
/-!
PROOFS. Integer arithmetic (R121 to R133): the shared end `writeResults` gives the frame and the lanes, and what
is left for each instruction is its lane as a number.
-/

namespace Sys2Proof.Machine

/-! ### Forms with one result -/

theorem writeResults_wrote_one (s : State) (size : Size) (simd : Bool) (src : Word) (d : Reg)
    (f : Nat → BitVec (sizeBits size) × BitVec (sizeBits size)) :
    ∃ t v, writeResults s size simd false src d f = .next t ∧ s.wrote t [(d, v)] ∧
      keepsHigh (sizeBits size) simd v src ∧
      ∀ k, workedOn (sizeBits size) simd k → lane (sizeBits size) v k = (f k).1 := by
  obtain ⟨t, v, _, hexec, hwrote, hlanes, hhigh⟩ :=
    writeResults_wrote s size simd false src d f (fun h => by cases h)
  exact ⟨t, v, hexec, hwrote, hhigh, fun k hk => (hlanes k hk).1⟩

/-! ### Addition and subtraction -/

/-- Settles O27: a lane of add and its carry as numbers. -/
theorem addResults : Obligations.AddResults := by
  intro size simd saturate carry r1 r2 r3 s hflags hd
  obtain ⟨t, v, w, hexec, hwrote, hlanes, hhigh⟩ :=
    writeResults_wrote s size simd carry (s.readReg .reg1 r1) r3 (fun k =>
      addLane (sizeBits size) saturate (lane (sizeBits size) (s.readReg .reg1 r1) k)
        (lane (sizeBits size) (s.readReg .reg2 r2) k)) hd
  refine ⟨t, v, w, ?_, hwrote, hhigh, fun k hk => ?_⟩
  · show execAdd size simd saturate carry r1 r2 r3 s = _
    rw [execAdd, if_neg (by simpa using hflags)]
    exact hexec
  · obtain ⟨hsum, hcarry⟩ := hlanes k hk
    refine ⟨by rw [hsum, addLane_fst_toNat], fun hc => ?_⟩
    rw [hcarry hc, addLane_snd_toNat _ (sizeBits_pos size)]

/-- Settles O28: a lane of sub and its borrow as numbers. -/
theorem subResults : Obligations.SubResults := by
  intro size simd floor borrow r1 r2 r3 s hflags hd
  obtain ⟨t, v, w, hexec, hwrote, hlanes, hhigh⟩ :=
    writeResults_wrote s size simd borrow (s.readReg .reg1 r1) r3 (fun k =>
      subLane (sizeBits size) floor (lane (sizeBits size) (s.readReg .reg1 r1) k)
        (lane (sizeBits size) (s.readReg .reg2 r2) k)) hd
  refine ⟨t, v, w, ?_, hwrote, hhigh, fun k hk => ?_⟩
  · show execSub size simd floor borrow r1 r2 r3 s = _
    rw [execSub, if_neg (by simpa using hflags)]
    exact hexec
  · obtain ⟨hdiff, hborrow⟩ := hlanes k hk
    refine ⟨?_, fun hb => ?_⟩
    · simp only [hdiff, subLane_fst_toNat, ← Nat.not_lt, ite_not]
    · rw [hborrow hb, subLane_snd, apply_ite BitVec.toNat, BitVec.toNat_allOnes]
      rfl

/-! ### Multiplication -/

/-- The two digits of a number modulo the square of the base. -/
theorem digits_of_emod_mul_self {N lo hi p : Int} (hlo : 0 ≤ lo ∧ lo < N) (hhi : 0 ≤ hi ∧ hi < N)
    (h : lo + N * hi = p % (N * N)) : lo = p % N ∧ hi = p / N % N := by
  have hN : 0 < N := by omega
  have hp : p = lo + N * (hi + N * (p / (N * N))) := by
    have := Int.emod_add_mul_ediv p (N * N)
    rw [← h] at this
    linarith
  constructor
  · rw [hp, Int.add_mul_emod_self_left, Int.emod_eq_of_lt hlo.1 hlo.2]
  · have hdiv : p / N = hi + N * (p / (N * N)) := by
      conv_lhs => rw [hp]
      rw [Int.add_mul_ediv_left _ _ hN.ne', Int.ediv_eq_zero_of_lt hlo.1 hlo.2, Int.zero_add]
    rw [hdiv, Int.add_mul_emod_self_left, Int.emod_eq_of_lt hhi.1 hhi.2]

theorem lanesInt_mul {n : Nat} (signed : Bool) (a b : BitVec n) :
    lanesInt signed a * lanesInt signed b =
      if signed then a.toInt * b.toInt else a.toNat * b.toNat := by
  cases signed <;> rfl

theorem mulLane_halves (n : Nat) (signed : Bool) (a b : BitVec n) :
    ((mulLane n signed a b).1.toNat : Int) =
      (if signed then a.toInt * b.toInt else a.toNat * b.toNat) % 2 ^ n ∧
    ((mulLane n signed a b).2.toNat : Int) =
      (if signed then a.toInt * b.toInt else a.toNat * b.toNat) / 2 ^ n % 2 ^ n := by
  have hproduct := mulLane_product n signed a b
  have bounds (x : BitVec n) : 0 ≤ (x.toNat : Int) ∧ (x.toNat : Int) < 2 ^ n :=
    ⟨Int.natCast_nonneg _, by exact_mod_cast x.isLt⟩
  rw [← lanesInt_mul]
  refine digits_of_emod_mul_self (bounds _) (bounds _) ?_
  rw [← pow_add, ← two_mul, ← hproduct]
  push_cast
  rfl

/-- Settles O29: the two halves of the product as its digits to the base 2^n. -/
theorem mulResults : Obligations.MulResults := by
  intro size simd signed high r1 r2 r3 s hd
  obtain ⟨t, v, w, hexec, hwrote, hlanes, hhigh⟩ :=
    writeResults_wrote s size simd high (s.readReg .reg1 r1) r3 (fun k =>
      mulLane (sizeBits size) signed (lane (sizeBits size) (s.readReg .reg1 r1) k)
        (lane (sizeBits size) (s.readReg .reg2 r2) k)) hd
  refine ⟨t, v, w, hexec, hwrote, hhigh, fun k hk => ?_⟩
  obtain ⟨hlow, hnext⟩ := hlanes k hk
  refine ⟨?_, fun h => ?_⟩
  · rw [hlow]
    exact (mulLane_halves _ _ _ _).1
  · rw [hnext h]
    exact (mulLane_halves _ _ _ _).2

/-! ### Division -/

theorem msb_eq_false_iff_toNat_lt {n : Nat} {x : BitVec n} :
    x.msb = false ↔ x.toNat < 2 ^ (n - 1) := by
  rw [BitVec.msb_eq_decide, decide_eq_false_iff_not, Nat.not_le]

theorem noSecondDest_eq_true {second : Bool} {d : Reg} :
    noSecondDest second d = true ↔ second = true ∧ d.val = 63 := by
  rw [noSecondDest, Bool.and_eq_true, Option.isNone_iff_eq_none, dest2_eq_none]

theorem anyLane_zero_iff (size : Size) (simd : Bool) (b : Word) :
    anyLane (sizeBits size) simd b (fun x => x == 0) = true ↔
      ∃ k, workedOn (sizeBits size) simd k ∧ lane (sizeBits size) b k = 0 := by
  rw [anyLane_eq_true]
  simp only [beq_iff_eq]
  rfl

/-- A lane of a division as numbers: exact, or what the open function gives (R127, D29). -/
theorem divLane_results (n : Nat) (signed : Bool) (x y : BitVec n) (hy : y ≠ 0) :
    if signed = false ∨ x.toNat < 2 ^ (n - 1) ∧ y.toNat < 2 ^ (n - 1) then
      (divLane n signed x y).1.toNat = x.toNat / y.toNat ∧
        (divLane n signed x y).2.toNat = x.toNat % y.toNat ∧
        x.toNat = (divLane n signed x y).1.toNat * y.toNat + (divLane n signed x y).2.toNat ∧
        (divLane n signed x y).2.toNat < y.toNat
    else divLane n signed x y = Config.divSignedCorner n x y := by
  simp only [← msb_eq_false_iff_toNat_lt]
  split
  · rename_i hexact
    have hpos : 0 < y.toNat := Nat.pos_of_ne_zero (by simpa using BitVec.toNat_ne.1 hy)
    rw [divLane_exact n signed x y hexact, BitVec.toNat_udiv, BitVec.toNat_umod]
    exact ⟨rfl, rfl, (Nat.div_add_mod' _ _).symm, Nat.mod_lt _ hpos⟩
  · rename_i hcorner
    obtain ⟨hsigned, hmsb⟩ := not_or.1 hcorner
    rw [Bool.not_eq_false] at hsigned
    rw [not_and_or, Bool.not_eq_false, Bool.not_eq_false] at hmsb
    rw [hsigned, divLane_corner n x y hmsb]

theorem exec_div (size : Size) (simd signed modulo : Bool) (r1 r2 r3 : Reg) (s : State) :
    exec (.div size simd signed modulo r1 r2 r3) s =
      if noSecondDest modulo r3 = true then .refused .secondDestinationAboveR63
      else if anyLane (sizeBits size) simd (s.readReg .reg2 r2) (fun x => x == 0) = true then
        .fault .integerDivideByZero
      else writeResults s size simd modulo (s.readReg .reg1 r1) r3 fun k =>
        divLane (sizeBits size) signed (lane (sizeBits size) (s.readReg .reg1 r1) k)
          (lane (sizeBits size) (s.readReg .reg2 r2) k) := rfl

theorem exec_mod (size : Size) (simd : Bool) (r1 r2 r3 : Reg) (s : State) :
    exec (.mod size simd r1 r2 r3) s =
      if anyLane (sizeBits size) simd (s.readReg .reg2 r2) (fun x => x == 0) = true then
        .fault .integerDivideByZero
      else writeResults s size simd false (s.readReg .reg1 r1) r3 fun k =>
        ((divLane (sizeBits size) true (lane (sizeBits size) (s.readReg .reg1 r1) k)
          (lane (sizeBits size) (s.readReg .reg2 r2) k)).2, 0) := rfl

/-- Settles O30: no tested lane of the divisor is zero, and a lane of the division as numbers. -/
theorem divResults : Obligations.DivResults := by
  intro size simd signed modulo r1 r2 r3 s hd hzero
  obtain ⟨t, v, w, hexec, hwrote, hlanes, hhigh⟩ :=
    writeResults_wrote s size simd modulo (s.readReg .reg1 r1) r3 (fun k =>
      divLane (sizeBits size) signed (lane (sizeBits size) (s.readReg .reg1 r1) k)
        (lane (sizeBits size) (s.readReg .reg2 r2) k)) hd
  refine ⟨t, v, w, ?_, hwrote, hhigh, fun k hk => ?_⟩
  · rw [exec_div, if_neg, if_neg]
    · exact hexec
    · rw [anyLane_zero_iff]
      rintro ⟨k, hk, hk0⟩
      exact hzero k hk hk0
    · rw [noSecondDest_eq_true]
      rintro ⟨hm, h63⟩
      exact absurd (hd hm) (by omega)
  · obtain ⟨hquot, hrem⟩ := hlanes k hk
    have hresults := divLane_results _ signed (lane (sizeBits size) (s.readReg .reg1 r1) k) _ (hzero k hk)
    rw [← hquot] at hresults
    dsimp only
    split at hresults
    · rename_i hexact
      rw [if_pos hexact]
      obtain ⟨hq, _, hsum, hlt⟩ := hresults
      exact ⟨hq, fun hm => by rw [hrem hm]; exact ⟨hsum, hlt⟩⟩
    · rename_i hcorner
      rw [if_neg hcorner, ← hresults]
      exact ⟨hquot, hrem⟩

/-- Settles O31: the remainder of the signed division. -/
theorem modResults : Obligations.ModResults := by
  intro size simd r1 r2 r3 s hzero
  obtain ⟨t, v, hexec, hwrote, hhigh, hlanes⟩ :=
    writeResults_wrote_one s size simd (s.readReg .reg1 r1) r3 (fun k =>
      ((divLane (sizeBits size) true (lane (sizeBits size) (s.readReg .reg1 r1) k)
        (lane (sizeBits size) (s.readReg .reg2 r2) k)).2, 0))
  refine ⟨t, v, ?_, hwrote, hhigh, fun k hk => ?_⟩
  · rw [exec_mod, if_neg]
    · exact hexec
    · rw [anyLane_zero_iff]
      rintro ⟨k, hk, hk0⟩
      exact hzero k hk hk0
  · have hresults := divLane_results _ true (lane (sizeBits size) (s.readReg .reg1 r1) k) _ (hzero k hk)
    simp only [Bool.true_eq_false, false_or] at hresults
    dsimp only
    rw [hlanes k hk]
    split at hresults
    · rename_i hexact
      rw [if_pos hexact]
      exact hresults.2.1
    · rename_i hcorner
      rw [if_neg hcorner, ← hresults]

/-! ### Immediates -/

/-- The immediate is sign-extended (`IMM8_EXT`, D7). -/
theorem ext8_eq (imm8 : BitVec 8) (n : Nat) : ext8 imm8 n = imm8.signExtend n := rfl

theorem ofInt_sub (n : Nat) (x y : Int) :
    BitVec.ofInt n (x - y) = BitVec.ofInt n x - BitVec.ofInt n y := by
  rw [Int.sub_eq_add_neg, BitVec.ofInt_add, BitVec.ofInt_neg, BitVec.sub_eq_add_neg]

theorem ofInt_toNat_cast (n : Nat) (x : BitVec n) : BitVec.ofInt n (x.toNat : Int) = x := by
  rw [BitVec.ofInt_natCast, BitVec.ofNat_toNat, BitVec.setWidth_eq]

theorem toNat_ofInt_cast (n : Nat) (i : Int) : ((BitVec.ofInt n i).toNat : Int) = i % 2 ^ n := by
  rw [BitVec.toNat_ofInt, Int.toNat_of_nonneg (Int.emod_nonneg _ (by positivity))]
  push_cast
  rfl

/-- Settles O32: each operation on lanes is the operation on integers, taken modulo 2^n. -/
theorem immediateResults : Obligations.ImmediateResults := by
  intro size simd imm8 r1 r2 s c hc
  have completes (i : Instr) (f : BitVec (sizeBits size) → BitVec (sizeBits size)) (g : Int → Int → Int)
      (hi : exec i s = writeResults s size simd false (s.readReg .reg1 r1) r2
        fun k => (f (lane (sizeBits size) (s.readReg .reg1 r1) k), 0))
      (hf : ∀ x, f x = BitVec.ofInt (sizeBits size) (g x.toNat imm8.toInt)) :
      ∃ t v, exec i s = .next t ∧ s.wrote t [(r2, v)] ∧
        keepsHigh (sizeBits size) simd v (s.readReg .reg1 r1) ∧
        ∀ k, workedOn (sizeBits size) simd k →
          ((lane (sizeBits size) v k).toNat : Int) =
            g (lane (sizeBits size) (s.readReg .reg1 r1) k).toNat imm8.toInt % 2 ^ sizeBits size := by
    obtain ⟨t, v, hexec, hwrote, hhigh, hlanes⟩ := writeResults_wrote_one s size simd
      (s.readReg .reg1 r1) r2 fun k => (f (lane (sizeBits size) (s.readReg .reg1 r1) k), 0)
    refine ⟨t, v, hi.trans hexec, hwrote, hhigh, fun k hk => ?_⟩
    rw [hlanes k hk, hf, toNat_ofInt_cast]
  simp only [List.mem_cons, List.not_mem_nil, or_false] at hc
  rcases hc with rfl | rfl | rfl
  · refine completes _ (· + ext8 imm8 _) _ rfl fun x => ?_
    rw [BitVec.ofInt_add, ofInt_toNat_cast]
    rfl
  · refine completes _ (· - ext8 imm8 _) _ rfl fun x => ?_
    rw [ofInt_sub, ofInt_toNat_cast]
    rfl
  · refine completes _ (· * ext8 imm8 _) _ rfl fun x => ?_
    rw [BitVec.ofInt_mul, ofInt_toNat_cast]
    rfl

/-! ### Division by an immediate -/

theorem eight_le_sizeBits (size : Size) : 8 ≤ sizeBits size := by cases size <;> decide

/-- An immediate below 0x80 is the same number at every operand size. -/
theorem ext8_toNat (size : Size) {imm8 : BitVec 8} (h : imm8.toNat < 0x80) :
    (ext8 imm8 (sizeBits size)).toNat = imm8.toNat := by
  have hmsb : imm8.msb = false := msb_eq_false_iff_toNat_lt.2 h
  rw [ext8_eq, BitVec.signExtend_eq_setWidth_of_msb_false hmsb]
  exact BitVec.toNat_setWidth_of_le (eight_le_sizeBits size)

/-- The sign of an immediate is its sign at every operand size. -/
theorem ext8_lt_iff (size : Size) (imm8 : BitVec 8) :
    (ext8 imm8 (sizeBits size)).toNat < 2 ^ (sizeBits size - 1) ↔ imm8.toNat < 0x80 := by
  have h8 : imm8.msb = false ↔ imm8.toNat < 0x80 := msb_eq_false_iff_toNat_lt
  rw [← msb_eq_false_iff_toNat_lt, ← h8, ext8_eq, BitVec.msb_eq_toInt,
    BitVec.toInt_signExtend_of_le (eight_le_sizeBits size), ← BitVec.msb_eq_toInt]

theorem ext8_ne_zero (size : Size) {imm8 : BitVec 8} (h : imm8 ≠ 0) :
    ext8 imm8 (sizeBits size) ≠ 0 := by
  intro h0
  have hlt : imm8.toNat < 0x80 := by
    rw [← ext8_lt_iff size, h0]
    simp
  have hn := ext8_toNat size hlt
  rw [h0] at hn
  exact BitVec.toNat_ne.1 h (by simpa using hn.symm)

theorem exec_divi (size : Size) (simd : Bool) {imm8 : BitVec 8} (r1 r2 : Reg) (s : State)
    (h : imm8 ≠ 0) :
    exec (.divi size simd imm8 r1 r2) s =
      writeResults s size simd false (s.readReg .reg1 r1) r2 fun k =>
        ((divLane (sizeBits size) true (lane (sizeBits size) (s.readReg .reg1 r1) k)
          (ext8 imm8 (sizeBits size))).1, 0) := by
  show execDivi size simd imm8 r1 r2 s = _
  rw [execDivi, if_neg (by simpa using h)]

theorem exec_modi (size : Size) (simd : Bool) {imm8 : BitVec 8} (r1 r2 : Reg) (s : State)
    (h : imm8 ≠ 0) :
    exec (.modi size simd imm8 r1 r2) s =
      writeResults s size simd false (s.readReg .reg1 r1) r2 fun k =>
        (modiLane (sizeBits size) (lane (sizeBits size) (s.readReg .reg1 r1) k) imm8, 0) := by
  show execModi size simd imm8 r1 r2 s = _
  rw [execModi, if_neg (by simpa using h)]

theorem modiLane_results (size : Size) (x : BitVec (sizeBits size)) (imm8 : BitVec 8) :
    if x.toNat < 2 ^ (sizeBits size - 1) ∧ imm8.toNat < 0x80 then
      (modiLane (sizeBits size) x imm8).toNat = x.toNat % imm8.toNat
    else modiLane (sizeBits size) x imm8 = Config.modiCorner (sizeBits size) x imm8 := by
  simp only [← msb_eq_false_iff_toNat_lt, modiLane, Bool.and_eq_true, Bool.not_eq_true',
    decide_eq_true_eq]
  split
  · rw [BitVec.toNat_umod, BitVec.toNat_setWidth_of_le (eight_le_sizeBits size)]
  · rfl

/-- Settles O33: the division by the extended immediate, and the remainder by the immediate itself. -/
theorem immediateDivisionResults : Obligations.ImmediateDivisionResults := by
  intro size simd imm8 r1 r2 s himm
  constructor
  · obtain ⟨t, v, hexec, hwrote, hhigh, hlanes⟩ := writeResults_wrote_one s size simd
      (s.readReg .reg1 r1) r2 fun k =>
        ((divLane (sizeBits size) true (lane (sizeBits size) (s.readReg .reg1 r1) k)
          (ext8 imm8 (sizeBits size))).1, 0)
    refine ⟨t, v, (exec_divi size simd r1 r2 s himm).trans hexec, hwrote, hhigh, fun k hk => ?_⟩
    have hresults := divLane_results _ true (lane (sizeBits size) (s.readReg .reg1 r1) k) _
      (ext8_ne_zero size himm)
    simp only [Bool.true_eq_false, false_or, ext8_lt_iff] at hresults
    dsimp only
    rw [hlanes k hk]
    split at hresults
    · rename_i hexact
      rw [if_pos hexact, hresults.1, ext8_toNat size hexact.2]
    · rename_i hcorner
      rw [if_neg hcorner, hresults, ext8_eq]
  · obtain ⟨t, v, hexec, hwrote, hhigh, hlanes⟩ := writeResults_wrote_one s size simd
      (s.readReg .reg1 r1) r2 fun k =>
        (modiLane (sizeBits size) (lane (sizeBits size) (s.readReg .reg1 r1) k) imm8, 0)
    refine ⟨t, v, (exec_modi size simd r1 r2 s himm).trans hexec, hwrote, hhigh, fun k hk => ?_⟩
    dsimp only
    rw [hlanes k hk]
    exact modiLane_results size _ imm8

/-- Settles O34: the divisor is tested after the second destination and before the lanes. -/
theorem divisionByZeroIsRaised : Obligations.DivisionByZeroIsRaised := by
  refine ⟨fun size simd signed modulo r1 r2 r3 s k hd hk hk0 => ?_, fun _ _ _ _ _ => ⟨rfl, rfl⟩⟩
  have hzero := (anyLane_zero_iff size simd (s.readReg .reg2 r2)).2 ⟨k, hk, hk0⟩
  constructor
  · rw [exec_div, if_neg, if_pos hzero]
    rw [noSecondDest_eq_true]
    rintro ⟨hm, h63⟩
    exact hd ⟨hm, Fin.ext h63⟩
  · rw [exec_mod, if_pos hzero]

end Sys2Proof.Machine
end

section
/-!
PROOFS. Shifts, rotations, single bits, truth tables and reversals (R150 to R167, R200 to R203): the shared ends
`writeLow` and `complete` give the frame, and the laws of the lanes say what was written.
-/

namespace Sys2Proof.Machine

/-! ### The shared ends -/

/-- The frame and the two parts of the value of an operation on the low n bits (R150). -/
theorem writeLow_wrote (s : State) (size : Size) (src : Word) (d : Reg) (w : BitVec (sizeBits size)) :
    ∃ t v, writeLow s size src d w = .next t ∧ s.wrote t [(d, v)] ∧
      v >>> sizeBits size = src >>> sizeBits size ∧ lane (sizeBits size) v 0 = w :=
  ⟨_, _, writeLow_eq s size src d w, wrote_one s d _, himerge_ushiftRight _ src w,
    lane_himerge _ (sizeBits_le size) src w⟩

/-! ### Shifts and rotations -/

theorem shiftLane_result (n : Nat) (right signed : Bool) (v : BitVec n) (cnt : Word) :
    shiftResult n right signed v cnt (shiftLane n right signed v cnt) := by
  unfold shiftResult
  split
  · exact shiftLane_out_of_range n right signed v cnt ‹_›
  · rename_i hlt
    rw [Nat.not_le] at hlt
    cases right with
    | false => exact shiftLane_left n signed v cnt hlt
    | true =>
      cases signed with
      | false => exact shiftLane_right_logical n v cnt hlt
      | true => exact shiftLane_right_arithmetic n v cnt hlt

/-- Settles O35: `shiftLane` by its four cases, below the bits that `writeLow` keeps. -/
theorem shiftResults : Obligations.ShiftResults := by
  intro size right signed r1 r2 r3 imm6 s
  have completes (d : Reg) (cnt : Word) :
      ∃ t v, writeLow s size (s.readReg .reg1 r1) d (shiftLane (sizeBits size) right signed
          (lane (sizeBits size) (s.readReg .reg1 r1) 0) cnt) = .next t ∧ s.wrote t [(d, v)] ∧
        v >>> sizeBits size = s.readReg .reg1 r1 >>> sizeBits size ∧
        shiftResult (sizeBits size) right signed (lane (sizeBits size) (s.readReg .reg1 r1) 0) cnt
          (lane (sizeBits size) v 0) := by
    obtain ⟨t, v, hexec, hwrote, hhigh, hlow⟩ := writeLow_wrote s size (s.readReg .reg1 r1) d
      (shiftLane (sizeBits size) right signed (lane (sizeBits size) (s.readReg .reg1 r1) 0) cnt)
    exact ⟨t, v, hexec, hwrote, hhigh, by rw [hlow]; exact shiftLane_result _ _ _ _ _⟩
  exact ⟨completes r3 _, completes r2 _⟩

theorem rotLane_result (size : Size) (right : Bool) (v : BitVec (sizeBits size)) (cnt : Nat) :
    rotateResult (sizeBits size) right v cnt (rotLane (sizeBits size) right v cnt) := by
  intro i hi
  cases right with
  | false => exact getLsbD_rotLane_left _ (sizeBits_pos size) v cnt i hi
  | true => exact getLsbD_rotLane_right _ (sizeBits_pos size) v cnt i hi

/-- Settles O36: `rotLane` bit by bit, below the bits that `writeLow` keeps. -/
theorem rotateResults : Obligations.RotateResults := by
  intro size right r1 r2 r3 imm6 s
  have completes (d : Reg) (cnt : Nat) :
      ∃ t v, writeLow s size (s.readReg .reg1 r1) d (rotLane (sizeBits size) right
          (lane (sizeBits size) (s.readReg .reg1 r1) 0) cnt) = .next t ∧ s.wrote t [(d, v)] ∧
        v >>> sizeBits size = s.readReg .reg1 r1 >>> sizeBits size ∧
        rotateResult (sizeBits size) right (lane (sizeBits size) (s.readReg .reg1 r1) 0) cnt
          (lane (sizeBits size) v 0) := by
    obtain ⟨t, v, hexec, hwrote, hhigh, hlow⟩ := writeLow_wrote s size (s.readReg .reg1 r1) d
      (rotLane (sizeBits size) right (lane (sizeBits size) (s.readReg .reg1 r1) 0) cnt)
    exact ⟨t, v, hexec, hwrote, hhigh, by rw [hlow]; exact rotLane_result _ _ _ _⟩
  exact ⟨completes r3 _, completes r2 _⟩

/-! ### Single bits and truth tables -/

theorem bitOp_wrote (op : BitOperation) (imm6 : BitVec 6) (r1 r2 : Reg) (s : State) :
    ∃ t v, bitOp op imm6 r1 r2 s = .next t ∧ s.wrote t [(r2, v)] ∧
      singleBitResult op imm6 (s.readReg .reg1 r1) v :=
  ⟨_, _, complete_eq _, wrote_one s r2 _, getLsbD_bitOperation op imm6 _⟩

/-- Settles O37: every spelling runs `bitOp`, which is described bit by bit. -/
theorem singleBitResults : Obligations.SingleBitResults := by
  intro op imm6 r1 r2 s c hc
  simp only [List.mem_cons, List.not_mem_nil, or_false] at hc
  rcases hc with rfl | rfl | rfl | rfl | rfl <;> exact bitOp_wrote _ imm6 r1 r2 s

theorem truth_eq_ite (f00 f10 f01 f11 p q : Bool) :
    truth f00 f10 f01 f11 p q = if q then (if p then f11 else f01) else (if p then f10 else f00) := by
  cases p <;> cases q <;> rfl

/-- A low bit of a value is that bit of its lane 0. -/
theorem getLsbD_lane_zero {n : Nat} (v : Word) {i : Nat} (hi : i < n) :
    (lane n v 0).getLsbD i = v.getLsbD i := by
  rw [getLsbD_lane, decide_eq_true hi, Bool.true_and, Nat.mul_zero, Nat.zero_add]

theorem logicOp_wrote (size : Size) (f00 f10 f01 f11 : Bool) (r1 r2 r3 : Reg) (s : State) :
    ∃ t v, logicOp size f00 f10 f01 f11 r1 r2 r3 s = .next t ∧ s.wrote t [(r3, v)] ∧
      v >>> sizeBits size = s.readReg .reg1 r1 >>> sizeBits size ∧
      logicResult (sizeBits size) f00 f10 f01 f11 (s.readReg .reg1 r1) (s.readReg .reg2 r2) v := by
  obtain ⟨t, v, hexec, hwrote, hhigh, hlow⟩ := writeLow_wrote s size (s.readReg .reg1 r1) r3
    (logicLane (sizeBits size) f00 f10 f01 f11 (lane (sizeBits size) (s.readReg .reg1 r1) 0)
      (lane (sizeBits size) (s.readReg .reg2 r2) 0))
  refine ⟨t, v, hexec, hwrote, hhigh, fun i hi => ?_⟩
  rw [← getLsbD_lane_zero v hi, hlow, getLsbD_logicLane _ _ _ _ _ _ _ i hi, truth_eq_ite,
    getLsbD_lane_zero _ hi, getLsbD_lane_zero _ hi]

/-- Settles O38: every spelling runs `logicOp` with its truth table. -/
theorem logicResults : Obligations.LogicResults := by
  intro size f00 f10 f01 f11 r1 r2 r3 s c hc
  simp only [List.mem_cons, List.not_mem_nil, or_false] at hc
  rcases hc with rfl | rfl | rfl | rfl | rfl | rfl <;> exact logicOp_wrote size _ _ _ _ r1 r2 r3 s

/-! ### Reversals -/

theorem reverseShift_result (a cnt : Word) : reversalResult a cnt (reverseShift a cnt) := by
  refine ⟨rev64 a, getLsbD_rev64 a, ?_⟩
  unfold reverseShift
  split
  · rfl
  · rw [BitVec.toNat_ushiftRight, Nat.shiftRight_eq_div_pow]

/-- Settles O39: both forms write `reverseShift` of the source. -/
theorem bitReversalResults : Obligations.BitReversalResults :=
  fun _ _ r3 _ s => ⟨⟨_, _, complete_eq _, wrote_one s r3 _, reverseShift_result _ _⟩,
    ⟨_, _, complete_eq _, wrote_one s _ _, reverseShift_result _ _⟩⟩

/-- A low byte of a value is that byte of its lane 0. -/
theorem extractLsb'_lane_zero_byte (size : Size) (v : Word) {j : Nat} (hj : j < sizeBytes size) :
    (lane (sizeBits size) v 0).extractLsb' (8 * j) 8 = v.extractLsb' (8 * j) 8 := by
  have hbits := sizeBits_eq size
  apply BitVec.eq_of_getLsbD_eq
  intro i hi
  simp only [BitVec.getLsbD_extractLsb', hi, decide_true, Bool.true_and]
  exact getLsbD_lane_zero v (by omega)

/-- Settles O40: the low bytes of the value are those of `brev`, and these are the source's in reverse order. -/
theorem byteReversalResults : Obligations.ByteReversalResults := by
  intro size r1 r2 s
  obtain ⟨t, v, hexec, hwrote, hhigh, hlow⟩ := writeLow_wrote s size (s.readReg .reg1 r1) r2
    (brev (sizeBits size) (lane (sizeBits size) (s.readReg .reg1 r1) 0))
  refine ⟨t, v, hexec, hwrote, hhigh, fun j hj => ?_⟩
  rw [← extractLsb'_lane_zero_byte size v hj, hlow, extractLsb'_brev size _ j hj,
    extractLsb'_lane_zero_byte size _ (by omega)]

end Sys2Proof.Machine
end

section
/-!
PROOFS. Loads, stores, mov, loadcons and cachemm (R210 to R229): the cases of an access give the completion and the
stops, and the laws of the values say what is written.
-/

namespace Sys2Proof.Machine

/-! ### Data accesses -/

theorem exec_loadi_of_le (size : Size) (e : Endian) {imm9 : BitVec 9} (r1 r2 : Reg) (s : State)
    (h : imm9.toNat ≤ 255) : exec (.loadi size e imm9 r1 r2) s =
      loadFrom s size e (effectiveAddress size (s.readReg .reg1 r1) (imm9.setWidth 64)) r2 := by
  show execLoadi size e imm9 r1 r2 s = _
  rw [execLoadi, if_neg (by omega)]

theorem exec_storei_of_le (size : Size) (e : Endian) {imm9 : BitVec 9} (r1 r2 : Reg) (s : State)
    (h : imm9.toNat ≤ 255) : exec (.storei size e imm9 r1 r2) s =
      storeTo s size e (effectiveAddress size (s.readReg .reg2 r2) (imm9.setWidth 64))
        (s.readReg .reg1 r1) := by
  show execStorei size e imm9 r1 r2 s = _
  rw [execStorei, if_neg (by omega)]

/-- The value and the frame of a load whose access is aligned and exists. -/
theorem loadFrom_wrote {s : State} {size : Size} {e : Endian} {ea : Word} (d : Reg)
    (haligned : ea.toNat % sizeBytes size = 0) (hexists : s.accessExists ea (sizeBytes size)) :
    ∃ t v, loadFrom s size e ea d = .next t ∧ s.wrote t [(d, v)] ∧ s.loadsBytes size e ea v := by
  rcases loadFrom_cases s size e ea d with ⟨hmis, _⟩ | ⟨_, habsent, _⟩ | ⟨_, v, hread, hexec⟩
  · exact absurd haligned hmis
  · exact absurd hexists (not_accessExists.2 habsent)
  · refine ⟨_, _, hexec, wrote_one s d _, fun k hk => ?_⟩
    rw [Memory.read_bytes hread k hk, extractLsb'_himerge_byte size _ v _ (bytePlace_lt e hk),
      bytePlace_eq]

/-- Settles O41: both forms end in `loadFrom` at their effective address. -/
theorem loadResults : Obligations.LoadResults := by
  refine fun size e r1 r2 r3 imm9 s => ⟨fun ha he => loadFrom_wrote r3 ha he, fun himm ha he => ?_⟩
  rw [exec_loadi_of_le size e r1 r2 s himm]
  exact loadFrom_wrote r2 ha he

/-- The bytes and the frame of a store whose access is aligned and exists. -/
theorem storeTo_stored {s : State} {size : Size} {e : Endian} {ea : Word} (v : Word)
    (haligned : ea.toNat % sizeBytes size = 0) (hexists : s.accessExists ea (sizeBytes size)) :
    ∃ t, storeTo s size e ea v = .next t ∧ s.storedBytes t size e ea v ∧
      s.sameRegs t [] ∧ s.sameSpecial t ∧ t.run = s.run ∧ t.pc = s.pc + 4 := by
  rcases storeTo_cases s size e ea v with ⟨hmis, _⟩ | ⟨_, habsent, _⟩ | ⟨_, m, hwrite, hexec⟩
  · exact absurd haligned hmis
  · exact absurd hexists (not_accessExists.2 habsent)
  · exact ⟨_, hexec, ⟨Memory.write_bytes hwrite, fun _ => Memory.byteAt_write_of_not_mem hwrite,
      fun _ => mem_foldl_insertAddress⟩, sameRegs_refl s [], ⟨rfl, rfl, rfl, rfl⟩, rfl, rfl⟩

/-- Settles O42: both forms end in `storeTo` at their effective address. -/
theorem storeResults : Obligations.StoreResults := by
  refine fun size e r1 r2 r3 imm9 s => ⟨fun ha he => storeTo_stored _ ha he, fun himm ha he => ?_⟩
  rw [exec_storei_of_le size e r1 r2 s himm]
  exact storeTo_stored _ ha he

theorem loadFrom_stops (s : State) (size : Size) (e : Endian) (ea : Word) (d : Reg) :
    (ea.toNat % sizeBytes size ≠ 0 → loadFrom s size e ea d = .refused .misalignedData) ∧
    (ea.toNat % sizeBytes size = 0 → ¬ s.accessExists ea (sizeBytes size) →
      loadFrom s size e ea d = .fault .memoryException) := by
  rcases loadFrom_cases s size e ea d with ⟨hmis, h⟩ | ⟨ha, _, h⟩ | ⟨ha, v, hread, _⟩
  · exact ⟨fun _ => h, fun ha => absurd ha hmis⟩
  · exact ⟨fun hmis => absurd ha hmis, fun _ _ => h⟩
  · have hexists := read_isSome_iff.1 (by rw [hread]; rfl)
    exact ⟨fun hmis => absurd ha hmis, fun _ habsent => absurd hexists habsent⟩

theorem storeTo_stops (s : State) (size : Size) (e : Endian) (ea v : Word) :
    (ea.toNat % sizeBytes size ≠ 0 → storeTo s size e ea v = .refused .misalignedData) ∧
    (ea.toNat % sizeBytes size = 0 → ¬ s.accessExists ea (sizeBytes size) →
      storeTo s size e ea v = .fault .memoryException) := by
  rcases storeTo_cases s size e ea v with ⟨hmis, h⟩ | ⟨ha, _, h⟩ | ⟨ha, m, hwrite, _⟩
  · exact ⟨fun _ => h, fun ha => absurd ha hmis⟩
  · exact ⟨fun hmis => absurd ha hmis, fun _ _ => h⟩
  · refine ⟨fun hmis => absurd ha hmis, fun _ habsent => ?_⟩
    rw [Memory.write_eq_none.2 (not_accessExists.1 habsent)] at hwrite
    cases hwrite

/-- Settles O43: the immediate first, then the alignment, then the existence of the bytes (R308). -/
theorem accessStops : Obligations.AccessStops := by
  refine fun size e r1 r2 r3 imm9 s => ⟨fun c hc => ?_, fun c hc => ?_⟩ <;>
    simp only [List.mem_cons, List.not_mem_nil, or_false] at hc <;> rcases hc with rfl | rfl
  · exact loadFrom_stops s size e _ r3
  · exact storeTo_stops s size e _ _
  · refine ⟨fun himm => if_pos himm, fun himm => ?_, fun himm => ?_⟩ <;>
      rw [exec_loadi_of_le size e r1 r2 s himm]
    · exact (loadFrom_stops s size e _ r2).1
    · exact (loadFrom_stops s size e _ r2).2
  · refine ⟨fun himm => if_pos himm, fun himm => ?_, fun himm => ?_⟩ <;>
      rw [exec_storei_of_le size e r1 r2 s himm]
    · exact (storeTo_stops s size e _ _).1
    · exact (storeTo_stops s size e _ _).2

/-! ### mov, loadcons and cachemm -/

theorem exec_mov_of_eq_zero (size : Size) (mode : HighMode) {r1 : Reg} (r2 r3 : Reg) {s : State}
    (hc : s.readReg .reg1 r1 = 0) : exec (.mov size mode r1 r2 r3) s = .next s.advance := by
  show execMov size mode r1 r2 r3 s = _
  rw [execMov, if_neg (by rw [nonNil_eq_true, not_not]; exact hc), complete_eq]

/-- Settles O44: the condition by its two outcomes, the part above the moved bits mode by mode. -/
theorem movResults : Obligations.MovResults := by
  refine fun size mode r1 r2 r3 s => ⟨fun hc => ⟨_, exec_mov_of_eq_zero size mode r2 r3 hc,
    wrote_nothing s⟩, fun hc => ⟨_, _, exec_mov_of_ne_zero size mode r2 r3 hc, wrote_one s r3 _,
    movValue_low size mode _ _, ?_⟩⟩
  cases mode with
  | keep => exact movValue_keep size _ _
  | zeroExtend => exact movValue_zeroExtend size _ _
  | signExtend => exact movValue_signExtend size _ _

/-- Settles O46: the value written is described bit by bit. -/
theorem loadconsResults : Obligations.LoadconsResults :=
  fun shift imm16 r1 s => ⟨_, _, complete_eq _, wrote_one s r1 _,
    getLsbD_loadconsValue shift imm16 (s.readReg .reg1 r1)⟩

/-- Settles O48: the next state is the advanced one. -/
theorem cachemmChangesNothing : Obligations.CachemmChangesNothing :=
  fun _ _ _ _ _ _ s => ⟨_, complete_eq s, wrote_nothing s⟩

end Sys2Proof.Machine
end

section
/-!
PROOFS. The internal registers (R240 to R246): an index picks at most one of them, a read gives what was put, and
a put of a read-only one is refused.
-/

namespace Sys2Proof.Machine

theorem iregValue_internalRead (s : State) (n : IReg) : s.internalRead n (s.iregValue n) := by
  refine ⟨?_, ?_, ?_, ?_, ?_⟩
  · rintro rfl hw
    exact if_pos hw
  · rintro rfl hw
    exact if_pos hw
  · rintro rfl hw
    exact if_pos hw
  · rintro rfl hw
    exact if_pos hw
  · rintro rfl
    rfl

theorem getInternal_irIndex (s : State) (n : IReg) (d : Reg) :
    getInternal s ((Config.irIndex n).setWidth 64) d =
      .next (s.writeReg d (s.iregValue n)).advance := by
  simp only [getInternal, iregAt_irIndex, complete_eq]

theorem getInternal_wrote (s : State) (n : IReg) (d : Reg) :
    ∃ t v, getInternal s ((Config.irIndex n).setWidth 64) d = .next t ∧ s.wrote t [(d, v)] ∧
      s.internalRead n v :=
  ⟨_, _, getInternal_irIndex s n d, wrote_one s d _, iregValue_internalRead s n⟩

theorem exec_get (r1 r2 : Reg) (s : State) :
    exec (.get r1 r2) s = getInternal s (s.readReg .reg1 r1) r2 := rfl

theorem exec_put (r1 r2 : Reg) (s : State) :
    exec (.put r1 r2) s = putInternal s (s.readReg .reg2 r2) (s.readReg .reg1 r1) := rfl

/-- Settles O50: both forms end in `getInternal` at a populated index. -/
theorem getResults : Obligations.GetResults := by
  refine fun n r1 r2 s => ⟨fun hindex => ?_, getInternal_wrote s n r1⟩
  rw [exec_get, hindex]
  exact getInternal_wrote s n r2

/-- A register whose access is "RW" takes the value. -/
theorem SpecialRegs.write_of_readWrite (sr : SpecialRegs) {n : IReg} (h : n ∈ readWrite) (v : Word) :
    ∃ x, sr.write n v = some x ∧ sr.afterPut x n v := by
  simp only [readWrite, List.mem_cons, List.not_mem_nil, or_false] at h
  rcases h with rfl | rfl | rfl | rfl
  · exact ⟨_, rfl, .inl ⟨rfl, rfl⟩⟩
  · exact ⟨_, rfl, .inr (.inl ⟨rfl, rfl⟩)⟩
  · exact ⟨_, rfl, .inr (.inr (.inl ⟨rfl, rfl⟩))⟩
  · exact ⟨_, rfl, .inr (.inr (.inr ⟨rfl, rfl⟩))⟩

theorem SpecialRegs.write_of_readOnly (sr : SpecialRegs) {n : IReg} (h : n ∉ readWrite) (v : Word) :
    sr.write n v = none := by
  cases n
  case srOpc | srOmsw | srEv | srTmp => exact absurd (by decide) h
  all_goals rfl

theorem putInternal_put (s : State) {n : IReg} (h : n ∈ readWrite) (v : Word) :
    ∃ t, putInternal s ((Config.irIndex n).setWidth 64) v = .next t ∧ s.sr.afterPut t.sr n v ∧
      s.sameRegs t [] ∧ s.sameMemory t ∧ t.msw = s.msw ∧ t.procId = s.procId ∧
      t.counters = s.counters ∧ t.run = s.run ∧ t.pc = s.pc + 4 := by
  obtain ⟨x, hx, hafter⟩ := s.sr.write_of_readWrite h v
  have hexec : putInternal s ((Config.irIndex n).setWidth 64) v = .next (s.withSpecial x).advance := by
    simp only [putInternal, iregAt_irIndex, hx, complete_eq]
  exact ⟨_, hexec, hafter, sameRegs_refl s [], ⟨fun _ => rfl, rfl⟩, rfl, rfl, rfl, rfl, rfl⟩

/-- Settles O51: both forms end in `putInternal` at the index of a register that takes the value. -/
theorem putResults : Obligations.PutResults := by
  refine fun n r1 r2 s hn => ⟨fun hindex => ?_, putInternal_put s hn _⟩
  rw [exec_put, hindex]
  exact putInternal_put s hn _

theorem getInternal_unpopulated (s : State) {i : Word} (d : Reg)
    (h : ∀ n, i ≠ (Config.irIndex n).setWidth 64) :
    getInternal s i d = .refused .indexNotPopulated := by
  simp only [getInternal, iregAt_eq_none.2 h]

theorem putInternal_unpopulated (s : State) {i : Word} (v : Word)
    (h : ∀ n, i ≠ (Config.irIndex n).setWidth 64) :
    putInternal s i v = .refused .indexNotPopulated := by
  simp only [putInternal, iregAt_eq_none.2 h]

theorem putInternal_readOnly (s : State) {n : IReg} (h : n ∉ readWrite) (v : Word) :
    putInternal s ((Config.irIndex n).setWidth 64) v = .refused .putToReadOnly := by
  simp only [putInternal, iregAt_irIndex, s.sr.write_of_readOnly h v]

/-- An index of 2^16 or more is none of the 16-bit ones. -/
theorem ne_irIndex_of_le {i : Word} (h : 2 ^ 16 ≤ i.toNat) (n : IReg) :
    i ≠ (Config.irIndex n).setWidth 64 := by
  rintro rfl
  rw [BitVec.toNat_setWidth_of_le (by decide)] at h
  exact absurd (Config.irIndex n).isLt (Nat.not_lt.2 h)

/-- Settles O52: the map of the indices is injective, and each refusal is a case of `getInternal` or
`putInternal`. -/
theorem internalRegisterStops : Obligations.InternalRegisterStops := by
  refine ⟨fun _ _ => irIndex_injective, fun r1 r2 s => ⟨getInternal_unpopulated s r2,
    putInternal_unpopulated s _, fun h => getInternal_unpopulated s r2 (ne_irIndex_of_le h),
    fun h => putInternal_unpopulated s _ (ne_irIndex_of_le h)⟩, fun imm16 r1 s h => ?_,
    fun n r1 r2 s hn => ⟨fun hindex => ?_, putInternal_readOnly s hn _⟩⟩
  · have hwide (n : IReg) : imm16.setWidth 64 ≠ (Config.irIndex n).setWidth 64 :=
      fun e => h n (setWidth_64_injective e)
    exact ⟨getInternal_unpopulated s r1 hwide, putInternal_unpopulated s _ hwide⟩
  · rw [exec_put, hindex]
    exact putInternal_readOnly s hn _

end Sys2Proof.Machine
end

section
/-!
PROOFS. Control transfer (R260 to R268): a jump is `jumpIf` of its condition and target, or for jmpr of its
condition alone, and the targets are stated as numbers.
-/

namespace Sys2Proof.Machine

theorem framed_goto (s : State) (x : Word) : s.framed (s.goto x) [] :=
  ⟨sameRegs_refl s [], ⟨rfl, rfl, rfl, rfl⟩, ⟨fun _ => rfl, rfl⟩, rfl⟩

theorem jumpIf_taken (s : State) {cond : Bool} {t : Word} (hc : cond = true) (ht : t.toNat % 4 = 0) :
    jumpIf s cond t = .next (s.goto t) := by
  rw [jumpIf_cases, if_pos hc, if_pos ht]

theorem jumpIf_notTaken (s : State) {cond : Bool} (t : Word) (hc : ¬ cond = true) :
    jumpIf s cond t = .next s.advance := by
  rw [jumpIf_cases, if_neg hc]

theorem nonNil_ne_true {c : Word} (h : c = 0) : ¬ nonNil c = true := by
  rw [nonNil_eq_true, not_not]
  exact h

/-- Settles O53: the condition that is computed is the one of R262. -/
theorem jmpaResults : Obligations.JmpaResults :=
  fun _ _ _ _ s => ⟨fun hc ht => ⟨_, jumpIf_taken s (jmpaCondition_eq_true.2 hc) ht, rfl, framed_goto s _⟩,
    fun hc => ⟨_, jumpIf_notTaken s _ fun h => hc (jmpaCondition_eq_true.1 h), wrote_nothing s⟩⟩

/-- The target of jmpi as a number (R267). -/
theorem jmpi_target_toNat (base : Word) (imm12 : BitVec 12) :
    (base + 4 * imm12.setWidth 64).toNat = (base.toNat + 4 * imm12.toNat) % 2 ^ 64 := by
  have himm := imm12.isLt
  rw [BitVec.toNat_add, BitVec.toNat_mul, BitVec.toNat_setWidth_of_le (by decide),
    show (4 : Word).toNat = 4 from rfl]
  omega

/-- An address moved by a signed number, modulo 2^64 (D34). -/
theorem toNat_add_ofInt (a : Word) (x : Int) :
    ((a + BitVec.ofInt 64 x).toNat : Int) = (a.toNat + x) % 2 ^ 64 := by
  rw [← toNat_ofInt_cast, BitVec.ofInt_add, ofInt_toNat_cast]

/-- The offset of jmpr counts instructions of four bytes (R268). -/
theorem jmpr_offset_eq (imm18 : BitVec 18) :
    (imm18.signExtend 64 <<< 2 : Word) = BitVec.ofInt 64 (4 * imm18.toInt) := by
  rw [BitVec.shiftLeft_eq_mul_twoPow, BitVec.ofInt_mul, BitVec.mul_comm]
  rfl

theorem exec_jmpr (imm18 : BitVec 18) (r1 : Reg) (s : State) :
    exec (.jmpr imm18 r1) s =
      if nonNil (s.readReg .reg1 r1) = true then .next (s.goto (s.pc + (imm18.signExtend 64 <<< 2)))
      else .next s.advance := rfl

/-- Settles O54: each jump by its condition, with its target as a number. -/
theorem jmpiAndJmprResults : Obligations.JmpiAndJmprResults := by
  intro imm12 imm18 r1 r2 s
  refine ⟨fun himm => ?jmpi, fun hc => ?notTaken, fun hc => ?taken⟩
  case jmpi =>
    rw [exec_jmpi, if_neg (Nat.not_lt.2 himm)]
    refine ⟨fun hc => ⟨_, jumpIf_notTaken s _ (nonNil_ne_true hc), wrote_nothing s⟩, fun hc ht => ?_⟩
    have htarget : (s.readReg .reg2 r2 + 4 * imm12.setWidth 64).toNat % 4 = 0 := by
      rwa [toNat_add_mod_four (toNat_four_mul_mod_four _)]
    exact ⟨_, jumpIf_taken s (nonNil_eq_true.2 hc) htarget, framed_goto s _, jmpi_target_toNat _ imm12⟩
  case notTaken =>
    rw [exec_jmpr, if_neg (nonNil_ne_true hc)]
    exact ⟨_, rfl, wrote_nothing s⟩
  case taken =>
    rw [exec_jmpr, if_pos (nonNil_eq_true.2 hc), jmpr_offset_eq]
    exact ⟨_, rfl, framed_goto s _, toNat_add_ofInt s.pc _⟩

/-- Settles O55: the sign-extended offset as a signed number. -/
theorem loadaddrResults : Obligations.LoadaddrResults :=
  fun imm18 r1 s => ⟨_, _, exec_loadaddr imm18 r1 s, wrote_one s r1 _, toNat_add_ofInt s.pc imm18.toInt⟩

end Sys2Proof.Machine
end
